-- ==== Sys2Proof/Word.lean ====
section
/-! DEFINITION. The byte and the word of the packed codec (R9 of 00_scope.md). -/

namespace Sys2Proof

/-- A byte, an unsigned 8-bit value (R9). -/
abbrev Byte := BitVec 8

/-- A word of 8 bytes carried as a 64-bit value; byte `i` is bits `[8i+7:8i]` (R9, R52, decision D3). -/
abbrev Word := BitVec 64

end Sys2Proof
end

