-- ==== Sys2Proof/Config.lean ====
section
/-! DEFINITION. What an implementation of the unit fixes (R7, R8 of 00_scope.md) and the free values. -/

namespace Sys2Proof

/-- The most words a run adds to its first word (R7: "capped at 255"). -/
def Config.runMax : Nat := 255

/-- The parameters the source leaves open (R8, decision D24). They are plain data of the state, constant
while the machine runs, so that every statement over states holds for every choice (log 1). -/
structure Params where
  /-- `AW`, the width of a source-buffer address. -/
  aw : Nat
  /-- `LW`, the width of a buffer length of PACK and UNPACK. -/
  lw : Nat
  /-- `KW`, the width of the length SREAD asks for. -/
  kw : Nat
  /-- `N_SRD`, the number of streaming decoders. -/
  nSrd : Nat
deriving DecidableEq, Repr

/-- The constraints of R8: `AW ≥ 1`, `LW ≥ 4`, `KW ≥ 1`, `N_SRD ≥ 1`. -/
abbrev Params.wf (p : Params) : Prop := 1 ≤ p.aw ∧ 4 ≤ p.lw ∧ 1 ≤ p.kw ∧ 1 ≤ p.nSrd

/-- The number of addresses, `2^AW`. -/
def Params.space (p : Params) : Nat := 2 ^ p.aw

/-- DESIGN CHOICE (log 1): the parameters of the state after reset, the example values of
95_test_vectors.md section 4. -/
def Config.exampleParams : Params := { aw := 16, lw := 16, kw := 16, nSrd := 1 }

/-- The parameter behind `ErrT` (R8, decision D24; log 2): which numbers name a payload. Nothing constrains it. -/
opaque Config.isPayload : Nat → Bool

/-- `ErrT`, the payload of a source I/O error: a parameter of the model, any nonempty set of names with
decidable equality (R8, D24). DESIGN CHOICE (log 2): payloads are named by numbers, 0 being one of them. -/
abbrev Config.ErrT := { n : Nat // n = 0 ∨ Config.isPayload n = true }

/-- Free value (log 12): what the byte-selector mux carries on a lane `m ≥ PC(T)`. R103: such lanes
"carry no defined value and no rule reads them". -/
opaque Config.muxIdleLane : Word → Byte → Nat → Byte

end Sys2Proof
end

