-- ==== Sys2Proof/Machine/TagRom.lean ====
section
/-! DEFINITION. Byte lanes of a word, the tag ROM (R34 of 10_state.md, R76 of 30_encoding.md) and the
datapath functions over it: tag-bitmap generator, byte-selector mux, byte-placement unit, run detectors. -/

namespace Sys2Proof.Machine

open Sys2Proof

/-- Byte `i` of a word, `W[8i+7:8i]` (R9, R52). -/
def lane (w : Word) (i : Nat) : Byte := w.extractLsb' (8 * i) 8

/-- The word with byte lane `i` set and the other lanes unchanged (R133). -/
def setLane (w : Word) (i : Nat) (b : Byte) : Word :=
  (w &&& ~~~((0xFF#64) <<< (8 * i))) ||| (b.setWidth 64 <<< (8 * i))

/-- The 8 bytes of a word, byte 0 first (R9). -/
def bytesOfWord (w : Word) : List Byte := (List.range 8).map (lane w)

/-- The word of a list of (up to 8) bytes, the first in the lowest lane (R52). -/
def wordOfBytes : List Byte → Word
  | [] => 0
  | b :: bs => (wordOfBytes bs <<< 8) ||| b.setWidth 64

/-- A byte list cut into consecutive 8-byte words (R100's `words`); an incomplete last word is dropped. -/
def wordsOfBytes : List Byte → List Word
  | b0 :: b1 :: b2 :: b3 :: b4 :: b5 :: b6 :: b7 :: rest =>
    wordOfBytes [b0, b1, b2, b3, b4, b5, b6, b7] :: wordsOfBytes rest
  | _ => []

/-- The bytes of a list of words, in stream order. -/
def bytesOfWords (ws : List Word) : List Byte := ws.flatMap bytesOfWord

/-- `RANK(t, i)`: the set bits of `t` below bit `i` (R76). -/
def rank (t : Byte) : Nat → Nat
  | 0 => 0
  | i + 1 => rank t i + (t.getLsbD i).toNat

/-- `PC(t)`: the number of 1 bits of a tag (R76, tabulated in R77). -/
def popCount (t : Byte) : Nat := rank t 8

/-- `POS(t, m)`: the index of the `m`-th set bit of `t` (R76), and 0 for `m ≥ PC(t)` (R34, decision D18). -/
def pos (t : Byte) (m : Nat) : Nat :=
  ((List.range 8).find? fun i => t.getLsbD i && rank t i == m).getD 0

/-- `tag(w)` and `TAGGEN(W)`: bit `i` is set iff byte `i` of the word is nonzero (R71, R102). -/
def tagGen (w : Word) : Byte :=
  (List.range 8).foldl (fun t i => if lane w i = 0 then t else t ||| (1#8 <<< i)) 0

/-- `MUX(W, T)[m]`: output lane `m` of the byte-selector mux (R103). A lane at or beyond `PC(T)` is a
free value. -/
def mux (w : Word) (t : Byte) (m : Nat) : Byte :=
  if m < popCount t then lane w (pos t m) else Config.muxIdleLane w t m

/-- `compact(w)`: the nonzero bytes of a word in ascending index order (R78). -/
def compact (w : Word) : List Byte :=
  (List.range (popCount (tagGen w))).map fun m => lane w (pos (tagGen w) m)

/-- `place(t, bs)`: the word with the bytes `bs` at the set bits of `t` and zero elsewhere (R79). -/
def place (t : Byte) (bs : List Byte) : Word :=
  wordOfBytes ((List.range 8).map fun i => if t.getLsbD i then bs.getD (rank t i) 0 else 0)

/-- `ZERO(V)`: the word is all zero (R104). -/
def isZeroWord (v : Word) : Bool := tagGen v == 0

/-- `LCONT(V)`: the word has at most one zero byte (R104). -/
def continuesLiteral (v : Word) : Bool := 7 ≤ popCount (tagGen v)

end Sys2Proof.Machine
end

