-- ==== Sys2Proof/Syntax.lean ====
section
/-! DEFINITION. The instructions: one constructor per row of spec/opcode_table.json. Three are records
of the packed wire format, four are host commands. -/

namespace Sys2Proof

/-- The rows of spec/opcode_table.json with their operands. -/
inductive Instr where
  /-- ZRUN record: tag `00` and the count `n` of additional zero words (R74). -/
  | zrun (n : Byte)
  /-- LRUN record: tag `FF`, the seed word, and the raw words; the count byte `N` is their number (R75). -/
  | lrun (seed : Word) (raw : List Word)
  /-- SPARSE record: a tag in `01..FE` and its `PC(t)` literal bytes (R73). -/
  | sparse (t : Byte) (lits : List Byte)
  /-- PACK command: encode the `len` bytes at `base` (R85, R105). -/
  | pack (base len : Nat)
  /-- UNPACK command: decode the `len` bytes at `base` (R85, R135). -/
  | unpack (base len : Nat)
  /-- SINIT command: construct a reader on SRD number `inst` (R85, R161). -/
  | sinit (inst : Nat)
  /-- SREAD command: read `k` bytes from SRD number `inst` (R85, R162). -/
  | sread (inst k : Nat)
deriving DecidableEq, Repr

/-- The instruction is a record of the packed wire format (R70, R72), not a host command (R85). -/
def Instr.isRecord : Instr → Bool
  | .zrun _ => true
  | .lrun _ _ => true
  | .sparse _ _ => true
  | .pack _ _ => false
  | .unpack _ _ => false
  | .sinit _ => false
  | .sread _ _ => false

end Sys2Proof
end

