-- ==== Sys2Proof/Machine/Operands.lean ====
section
/-! DEFINITION. Operand forms: the run count of a record (R80, R81 of 30_encoding.md) and the operand
fields of a host command (R85). -/

namespace Sys2Proof.Machine

open Sys2Proof

/-- Words a ZRUN of count `n` decodes to, `N + 1` (R74, R80). -/
def zrunWords (n : Byte) : Nat := n.toNat + 1

/-- Words an LRUN of count `n` decodes to, the seed included (R75, R80). -/
def lrunWords (n : Byte) : Nat := n.toNat + 1

/-- The words a record decodes to, in order (R73-R75, R79); a command decodes to none. -/
def recordWords : Instr → List Word
  | .zrun n => List.replicate (zrunWords n) 0
  | .lrun seed raw => seed :: raw
  | .sparse t lits => [place t lits]
  | .pack _ _ => []
  | .unpack _ _ => []
  | .sinit _ => []
  | .sread _ _ => []

/-- `reclen`: the length of a record from its tag and, for an LRUN, its count byte (R81). -/
def recordLength (t n : Byte) : Nat :=
  if t = 0x00#8 then 2 else if t = 0xFF#8 then 10 + 8 * n.toNat else 1 + popCount t

/-- The longest record, an LRUN of count 255 (R75). -/
def maxRecordLength : Nat := 2050

/-- `⌈log2 N_SRD⌉`, the width of the `inst` field (R85). -/
def instBits (nSrd : Nat) : Nat := if nSrd ≤ 1 then 0 else Nat.log2 (nSrd - 1) + 1

/-- The width of the word a command is written in: `op` and its operands (R85). -/
def commandBits (p : Params) : Instr → Nat
  | .zrun _ => 0
  | .lrun _ _ => 0
  | .sparse _ _ => 0
  | .pack _ _ => 2 + p.aw + p.lw
  | .unpack _ _ => 2 + p.aw + p.lw
  | .sinit _ => 2 + instBits p.nSrd
  | .sread _ _ => 2 + instBits p.nSrd + p.kw

end Sys2Proof.Machine
end

