-- ==== Sys2Proof/WellFormed.lean ====
section
/-! DEFINITION. Well-formed instructions: the terms that have an encoding (R72-R75, R85 of 30_encoding.md). -/

namespace Sys2Proof

open Sys2Proof.Machine

/-- An instruction whose operands fit the fields its encoding gives them, under the parameters `p`. -/
def Instr.wellFormed (p : Params) : Instr → Bool
  | .zrun _ => true
  | .lrun _ raw => decide (raw.length ≤ Config.runMax)
  | .sparse t lits => t != 0x00#8 && t != 0xFF#8 && lits.length == popCount t
  | .pack base len => decide (base < 2 ^ p.aw) && decide (len < 2 ^ p.lw)
  | .unpack base len => decide (base < 2 ^ p.aw) && decide (len < 2 ^ p.lw)
  | .sinit inst => decide (inst < 2 ^ instBits p.nSrd)
  | .sread inst k => decide (inst < 2 ^ instBits p.nSrd) && decide (k < 2 ^ p.kw)

end Sys2Proof
end

