-- ==== Sys2Proof/Decode.lean ====
section
/-! DEFINITION. The decoder, total on any bytes and any command word, and after it the encoder.
Two encodings exist and they overlap (30_encoding.md): the packed wire format, whose bytes the decoder
blocks read, and the host command format, which the command channels carry. -/

namespace Sys2Proof

open Sys2Proof.Machine

/-- Why a text is no instruction. -/
inductive DecodeError where
  /-- The bytes end before a tag byte: no record starts here (R82). -/
  | empty
  /-- The bytes end inside a record (R82: "An input that ends anywhere else is truncated"). -/
  | truncated
  /-- Bytes follow the one record that was asked for. -/
  | trailingBytes
  /-- A command word with bits above its operands: no command has them (R85). -/
  | excessBits
deriving DecidableEq, Repr

/-- The encoded forms of an instruction, kept apart because the two encodings overlap. -/
inductive Encoded where
  /-- The bytes of one record (R70). -/
  | record (bytes : List Byte)
  /-- The bits of one host command read as a number, bit 0 least significant (R85). -/
  | command (bits : Nat)
deriving DecidableEq, Repr

/-- The first record of a byte list and the bytes after it (R72: ZRUN and LRUN are checked first, every
other tag is SPARSE; R73-R75). -/
def decodeRecord : List Byte → Except DecodeError (Instr × List Byte)
  | [] => .error .empty
  | t :: r =>
    if t = 0x00#8 then
      match r with
      | [] => .error .truncated
      | n :: rest => .ok (.zrun n, rest)
    else if t = 0xFF#8 then
      match r.drop 8 with
      | [] => .error .truncated
      | n :: rest =>
        if rest.length < 8 * n.toNat then .error .truncated
        else .ok (.lrun (wordOfBytes (r.take 8)) (wordsOfBytes (rest.take (8 * n.toNat))), rest.drop (8 * n.toNat))
    else if r.length < popCount t then .error .truncated
    else .ok (.sparse t (r.take (popCount t)), r.drop (popCount t))

/-- The host command of a command word (R85). `op` is bits `[1:0]`. DESIGN CHOICE (log 3): the operands
follow from bit 2 upward in the order R85 lists them. Every `op` is defined. -/
def decodeCommand (p : Params) (bits : Nat) : Except DecodeError Instr :=
  let rest := bits / 4
  if bits % 4 = 0 then
    if rest / 2 ^ p.aw < 2 ^ p.lw then .ok (.pack (rest % 2 ^ p.aw) (rest / 2 ^ p.aw)) else .error .excessBits
  else if bits % 4 = 1 then
    if rest / 2 ^ p.aw < 2 ^ p.lw then .ok (.unpack (rest % 2 ^ p.aw) (rest / 2 ^ p.aw)) else .error .excessBits
  else if bits % 4 = 2 then
    if rest < 2 ^ instBits p.nSrd then .ok (.sinit rest) else .error .excessBits
  else if rest / 2 ^ instBits p.nSrd < 2 ^ p.kw then
    .ok (.sread (rest % 2 ^ instBits p.nSrd) (rest / 2 ^ instBits p.nSrd))
  else .error .excessBits

/-- The instruction of an encoded form. -/
def decode (p : Params) : Encoded → Except DecodeError Instr
  | .command bits => decodeCommand p bits
  | .record bytes =>
    match decodeRecord bytes with
    | .error e => .error e
    | .ok (i, []) => .ok i
    | .ok (_, _ :: _) => .error .trailingBytes

/-- The bytes of a record (R73-R75, the notation of R87); a command has none. -/
def encodeRecord : Instr → List Byte
  | .zrun n => [0x00#8, n]
  | .lrun seed raw => 0xFF#8 :: bytesOfWord seed ++ BitVec.ofNat 8 raw.length :: bytesOfWords raw
  | .sparse t lits => t :: lits
  | .pack _ _ => []
  | .unpack _ _ => []
  | .sinit _ => []
  | .sread _ _ => []

/-- The word of a host command (R85, log 3); a record has none and reads 0. -/
def encodeCommand (p : Params) : Instr → Nat
  | .zrun _ => 0
  | .lrun _ _ => 0
  | .sparse _ _ => 0
  | .pack base len => 4 * (base + 2 ^ p.aw * len)
  | .unpack base len => 1 + 4 * (base + 2 ^ p.aw * len)
  | .sinit inst => 2 + 4 * inst
  | .sread inst k => 3 + 4 * (inst + 2 ^ instBits p.nSrd * k)

/-- The encoded form of an instruction. -/
def encode (p : Params) (i : Instr) : Encoded :=
  if i.isRecord then .record (encodeRecord i) else .command (encodeCommand p i)

/-- The low `n` bytes of a number, least significant first. -/
def wordBytes : Nat → Nat → List Byte
  | 0, _ => []
  | n + 1, w => BitVec.ofNat 8 w :: wordBytes n (w / 256)

/-- DESIGN CHOICE (log 4): which encoding a numbered word of spec/opcode_table.json is read in. The
table gives a command row only its two `op` bits and a record row its tag byte, so a one-byte word names
both; a word whose bits above `op` are zero is read as a command. -/
def tableWordIsCommand (nbits w : Nat) : Bool := nbits ≤ 8 && w < 4

/-- The record bytes a table word stands for: as many as R81 says the record has, the bits above the
word zero. -/
def tableRecordBytes (w : Nat) : List Byte :=
  wordBytes (recordLength (BitVec.ofNat 8 w) (BitVec.ofNat 8 (w / 2 ^ 72))) w

/-- The instruction the decoder reads from a word numbered as spec/opcode_table.json numbers it, under
the parameters of the reset state. -/
def decodeTableWord (nbits w : Nat) : Option Instr :=
  (decode Config.exampleParams (if tableWordIsCommand nbits w then .command w else .record (tableRecordBytes w))).toOption

end Sys2Proof
end

