-- ==== Sys2Proof/Machine/State.lean ====
section
/-! DEFINITION. The state of the machine as plain data: the registers of ENC, DEC and every SRD
(10_state.md), the command channels, and the host's side of the channels (20_memory.md). -/

namespace Sys2Proof.Machine

open Sys2Proof

/-- FSM states of ENC (R22). The reserved codes 9..15 have no constructor (log 13). -/
inductive EncSt where
  | idle | fetch | tagOut | sparse | zscan | seed | lscan | lcopy | fault
deriving DecidableEq, Repr

/-- FSM states of DEC (R24). The reserved codes 8..15 have no constructor (log 13). -/
inductive DecSt where
  | idle | tag | sparse | zcount | zemit | seed | lcount | lraw
deriving DecidableEq, Repr

/-- FSM states of SRD (R26). The reserved codes 10..15 have no constructor (log 13). -/
inductive SrdSt where
  | tag | bytes | zeroCount | emitZeros | litWord | litCount | emitWord | emitLiterals | done | error
deriving DecidableEq, Repr

/-- Status codes of a response (R86), and of `DEC.last` (R23). -/
inductive Status where
  /-- 0 `ST_OK` -/
  | ok
  /-- 1 `ST_EOF` -/
  | eof
  /-- 2 `ST_TRUNC` -/
  | trunc
  /-- 3 `ST_IO` -/
  | io
deriving DecidableEq, Repr

/-- The terminal indicator of `SRD.term` (R25). -/
inductive Term where
  /-- 0 `NONE` -/
  | unset
  /-- 1 `EOF` -/
  | eof
  /-- 2 `TRUNC` -/
  | trunc
  /-- 3 `IO` -/
  | io
deriving DecidableEq, Repr

/-- One item of an SRD's source channel (R57). -/
inductive Token where
  /-- `Byte(b)`: one source byte. -/
  | byte (b : Byte)
  /-- `End`: the end of the input. -/
  | eof
  /-- `Err(e)`: a source I/O error with its payload. -/
  | err (e : Config.ErrT)
deriving DecidableEq, Repr

/-- A response on a block's response channel (R86, R205). -/
inductive Response where
  /-- The response of PACK. -/
  | pack (status : Status)
  /-- The response of UNPACK. -/
  | unpack (status : Status)
  /-- The response of SINIT. -/
  | sinit (status : Status)
  /-- The response of SREAD: bytes delivered, status, and the error payload with `ST_IO`. -/
  | sread (n : Nat) (status : Status) (e : Option Config.ErrT)
deriving DecidableEq, Repr

/-- The consumer of an output channel: how many more items it accepts (R56, R235; log 15). -/
inductive Sink where
  /-- It accepts every item as soon as it is offered. -/
  | always
  /-- It accepts `n` more items. -/
  | slots (n : Nat)
deriving DecidableEq, Repr

/-- The channels of one block to the host. -/
structure Port (α : Type) where
  /-- Commands issued to the block and not yet accepted, oldest first (R237). -/
  cmds : List Nat
  /-- Items delivered on the output channel, oldest first (R56). -/
  out : List α
  /-- The consumer of the output channel. -/
  sink : Sink
  /-- Responses delivered, oldest first (R205). -/
  resp : List Response
deriving DecidableEq, Repr

/-- The registers of ENC (R21). Registers of a parametric width are plain numbers (log 14). -/
structure Enc where
  st : EncSt
  base : Nat
  nw : Nat
  cur : Nat
  scan : Nat
  W : Word
  T : Byte
  k : BitVec 3
  cnt : BitVec 8
  fault : Bool
deriving DecidableEq, Repr

/-- The registers of DEC (R23). -/
structure Dec where
  st : DecSt
  base : Nat
  len : Nat
  pos : Nat
  T : Byte
  W : Word
  k : BitVec 3
  rem : BitVec 9
  last : Status
deriving DecidableEq, Repr

/-- The registers of one SRD (R25). -/
structure Srd where
  st : SrdSt
  T : Byte
  idx : BitVec 3
  SCR : Word
  rem : BitVec 12
  term : Term
  errv : Option Config.ErrT
  busy : Bool
  K : Nat
  n : Nat
deriving DecidableEq, Repr

/-- One SRD with its channels (R51, R57). -/
structure SrdUnit where
  regs : Srd
  /-- The tokens available on the source channel, the next one first (R57). -/
  src : List Token
  port : Port Byte
deriving DecidableEq, Repr

/-- The agents of the unit (R213). -/
inductive Agent where
  | enc
  | dec
  | srd (inst : Nat)
deriving DecidableEq, Repr

/-- A move of the machine: a block takes its turn, or the host acts. Which move comes next is data, so
that every interleaving of R12 is some state's (log 6). -/
inductive Move where
  /-- The block accepts a command or takes one step of R12. -/
  | tick (a : Agent)
  /-- The block takes the consecutive steps of the whole record at its cursor (log 7). -/
  | record (a : Agent)
  /-- The host issues a command word (R85). -/
  | issue (bits : Nat)
  /-- The source of an SRD makes a token available (R57). -/
  | token (inst : Nat) (t : Token)
  /-- The consumer of a block's output channel changes what it accepts (R56). -/
  | sink (a : Agent) (k : Sink)
  /-- The host writes a byte of the source-buffer space (R63, R233). -/
  | write (addr : Nat) (b : Byte)
  /-- The host asserts reset (R230). -/
  | reset
deriving DecidableEq, Repr

/-- A buffer of the source-buffer space: the bytes `[base, base + len)`. -/
structure Buffer where
  base : Nat
  len : Nat
deriving DecidableEq, Repr

/-- The source-buffer space (R50): pairs of address and byte, addresses strictly rising. -/
abbrev Memory := List Host.Cell

/-- The state of the machine. -/
structure State where
  /-- The parameters of R8, constant. -/
  params : Params
  enc : Enc
  dec : Dec
  /-- The SRD units `0 .. N_SRD - 1`. -/
  srd : List SrdUnit
  encPort : Port Byte
  decPort : Port Word
  /-- The host's source-buffer space. -/
  mem : Memory
  /-- The model's own: the buffer of an accepted PACK that raised F_ALIGN. It gets no response (R205), so the host
  must not write it until reset (R63; log 11). No block reads this field. -/
  faultBuffer : Option Buffer
  /-- The model's own: the moves to come (log 6). -/
  sched : List Move
  /-- The model's own: the block whose turn this step is (log 6). -/
  turn : Agent
deriving DecidableEq, Repr

/-- Reasons the machine stops. Both are the model's, and both are safe: the model stops where hardware
would go on. -/
inductive Fault where
  /-- Raised by a `MemRead` of a byte the host never placed (R233 makes placing it the host's duty). Safe (log 10). -/
  | unplacedByte (addr : Nat)
  /-- Raised by an access at an address of `2^AW` or more, which does not exist (R50). Safe (log 19). -/
  | outsideAddressSpace (addr : Nat)
deriving DecidableEq, Repr

/-- Reasons the model gives a situation no meaning. -/
inductive Refusal where
  /-- An instruction without a meaning. Raised by no arm of this model. Safe. -/
  | notModelled (mnemonic : String)
  /-- `refuse(RANGE)`: a PACK or UNPACK whose buffer exceeds the address space (R60). Safe. -/
  | range
  /-- `refuse(INST)`: an SRD number at or above `N_SRD` (R85). Safe. -/
  | inst
  /-- The host writes the buffer of a command between its acceptance and its response or reset: no move of the
  model (R63). Safe. -/
  | hostWriteInFlight
  /-- A channel word with bits no command of R85 has. Safe (log 17). -/
  | notACommand
deriving DecidableEq, Repr

/-- ENC after reset (R21, R230). -/
def Enc.reset : Enc :=
  { st := .idle, base := 0, nw := 0, cur := 0, scan := 0, W := 0, T := 0, k := 0, cnt := 0, fault := false }

/-- DEC after reset (R23, R230). -/
def Dec.reset : Dec :=
  { st := .idle, base := 0, len := 0, pos := 0, T := 0, W := 0, k := 0, rem := 0, last := .ok }

/-- An SRD after reset (R25, R230). -/
def Srd.reset : Srd :=
  { st := .tag, T := 0, idx := 0, SCR := 0, rem := 0, term := .unset, errv := none, busy := false, K := 0, n := 0 }

/-- Channels that have carried nothing; DESIGN CHOICE (log 15): the consumer accepts every item. -/
def Port.fresh (α : Type) : Port α := { cmds := [], out := [], sink := .always, resp := [] }

/-- An SRD unit that has just been reset and whose channels have carried nothing. -/
def SrdUnit.fresh : SrdUnit := { regs := Srd.reset, src := [], port := Port.fresh Byte }

/-- The machine after reset with the parameters `p` and nothing placed, issued or offered. -/
def State.resetWith (p : Params) : State :=
  { params := p, enc := Enc.reset, dec := Dec.reset, srd := List.replicate p.nSrd SrdUnit.fresh,
    encPort := Port.fresh Byte, decPort := Port.fresh Word, mem := [], faultBuffer := none, sched := [], turn := .enc }

/-- The machine right after reset (R36, R230), with the parameters of log 1. -/
def State.reset : State := State.resetWith Config.exampleParams

end Sys2Proof.Machine
end

