-- ==== Sys2Proof/Machine/Ops.lean ====
section
/-! DEFINITION. The named operations of R11 over memory, channels and registers: MemRead, EmitB and EmitW,
Respond, the taking of each exceptional event of R200 and the ways out of them (R209). -/

namespace Sys2Proof.Machine

open Sys2Proof

/-! ### Source-buffer memory (R50, R53) -/

/-- The byte the host placed at an address; an unlisted address has none (log 10). -/
def Memory.get : Memory → Nat → Option Byte
  | [], _ => none
  | (k, v) :: m, a => if k = a then some v else Memory.get m a

/-- The memory with a byte placed at an address, its addresses still rising. -/
def Memory.put : Memory → Nat → Byte → Memory
  | [], a, b => [(a, b)]
  | (k, v) :: m, a, b =>
    if a < k then (a, b) :: (k, v) :: m
    else if a = k then (a, b) :: m
    else (k, v) :: Memory.put m a b

/-- The memory with consecutive bytes placed from an address upward. -/
def Memory.putBytes (m : Memory) : Nat → List Byte → Memory
  | _, [] => m
  | a, b :: bs => Memory.putBytes (m.put a b) (a + 1) bs

/-- The canonical form: addresses strictly rising. An unlisted address has no value, so no entry can
repeat what an unlisted address reads as. -/
def Memory.wf : Memory → Bool
  | [] => true
  | [_] => true
  | (a, _) :: (b, w) :: m => decide (a < b) && Memory.wf ((b, w) :: m)

/-- `MemRead(addr, n)`: the bytes at `addr .. addr+n-1` in address order (R53), with no side effect. -/
def memRead (s : State) : Nat → Nat → Except Fault (List Byte)
  | _, 0 => .ok []
  | addr, n + 1 =>
    if s.params.space ≤ addr then .error (.outsideAddressSpace addr)
    else
      match s.mem.get addr with
      | none => .error (.unplacedByte addr)
      | some b =>
        match memRead s (addr + 1) n with
        | .error f => .error f
        | .ok bs => .ok (b :: bs)

/-- `MemRead(addr, 8)` as a word: the byte at the lowest address is the lowest lane (R52). -/
def memReadWord (s : State) (addr : Nat) : Except Fault Word :=
  (memRead s addr 8).map wordOfBytes

/-- `MemRead(addr, 1)[0]`. -/
def memReadByte (s : State) (addr : Nat) : Except Fault Byte :=
  (memRead s addr 1).map fun bs => bs.headD 0

/-- A buffer lies in the address space, `base + len ≤ 2^AW` (R60). -/
def Params.fits (p : Params) (base len : Nat) : Bool := decide (base + len ≤ p.space)

/-! ### Output and response channels (R56, R205) -/

/-- The consumer accepts an item now. -/
def Sink.ready : Sink → Bool
  | .always => true
  | .slots n => decide (0 < n)

/-- The consumer after it has accepted an item. -/
def Sink.take : Sink → Sink
  | .always => .always
  | .slots n => .slots (n - 1)

/-- The consumer accepts `k` items in a row now. -/
def Sink.readyFor : Sink → Nat → Bool
  | .always, _ => true
  | .slots n, k => decide (k ≤ n)

/-- The consumer after it has accepted `k` items. -/
def Sink.takeMany : Sink → Nat → Sink
  | .always, _ => .always
  | .slots n, k => .slots (n - k)

/-- `EmitB(b)` or `EmitW(w)`: deliver one item; none where the consumer does not accept (R56). -/
def Port.emit {α : Type} (p : Port α) (a : α) : Option (Port α) :=
  if p.sink.ready then some { p with out := p.out ++ [a], sink := p.sink.take } else none

/-- `Respond(r)`: deliver a response (R205). -/
def Port.respond {α : Type} (p : Port α) (r : Response) : Port α := { p with resp := p.resp ++ [r] }

/-- A command that waits on the channel behind those already there (R237). -/
def Port.hold {α : Type} (p : Port α) (bits : Nat) : Port α := { p with cmds := p.cmds ++ [bits] }

/-- The channel as reset leaves it: held commands are discarded, delivered items and responses stay
(R231, R237; log 16). -/
def Port.afterReset {α : Type} (p : Port α) : Port α := { p with cmds := [] }

/-- What one step of a block does: its registers, at most one output item, at most one response (R12). -/
structure Effect (ρ α : Type) where
  regs : ρ
  emit : Option α
  resp : Option Response
deriving DecidableEq, Repr

/-- The port after the item and the response of an effect, the item first (R64); none where the item is
not accepted. -/
def Port.commit {α : Type} (p : Port α) (item : Option α) (resp : Option Response) : Option (Port α) :=
  let after : Option (Port α) :=
    match item with
    | none => some p
    | some a => p.emit a
  match after, resp with
  | none, _ => none
  | some q, none => some q
  | some q, some r => some (q.respond r)

/-- What a block can do when it is its turn. -/
inductive BlockStep where
  /-- It has no step: it waits, and nothing changes (R12, R215). -/
  | waits
  /-- It takes a step. -/
  | moves (s : State)
  /-- Its read of the source buffer faults. -/
  | faults (f : Fault)
deriving DecidableEq, Repr

/-- A step that goes on with what a read gave. -/
def BlockStep.ofRead {α : Type} (r : Except Fault α) (k : α → BlockStep) : BlockStep :=
  match r with
  | .error f => .faults f
  | .ok a => k a

/-- The outcome of a block's turn: waiting changes nothing. -/
def BlockStep.outcome (s : State) : BlockStep → Host.Outcome State Fault Refusal
  | .waits => .next s
  | .moves t => .next t
  | .faults f => .fault f

/-- Up to `k` consecutive steps of a block, ending early where it waits (log 7). -/
def burst (f : State → BlockStep) : Nat → State → BlockStep
  | 0, s => .moves s
  | k + 1, s =>
    match f s with
    | .waits => .moves s
    | .faults e => .faults e
    | .moves t => burst f k t

/-- ENC takes the effect of a step, or waits for its consumer. -/
def State.commitEnc (s : State) (e : Effect Enc Byte) : BlockStep :=
  match s.encPort.commit e.emit e.resp with
  | none => .waits
  | some p => .moves { s with enc := e.regs, encPort := p }

/-- DEC takes the effect of a step, or waits for its consumer. -/
def State.commitDec (s : State) (e : Effect Dec Word) : BlockStep :=
  match s.decPort.commit e.emit e.resp with
  | none => .waits
  | some p => .moves { s with dec := e.regs, decPort := p }

/-- The state with SRD unit `j` replaced. -/
def State.setSrd (s : State) (j : Nat) (u : SrdUnit) : State := { s with srd := s.srd.set j u }

/-! ### Taking an exceptional event (R200, R208) -/

/-- `raise F_ALIGN` (R201): the fault flag is set and ENC is stuck in `E_FAULT`; no read, no output, no
response. -/
def raiseAlign (e : Enc) : Enc := { e with fault := true, st := .fault }

/-- Taking `F_ALIGN` at the acceptance of a PACK of `len` bytes at `base` (R201). The host's duty of R63 for this
buffer runs to reset, since the PACK gets no response (R205). -/
def State.takeAlignFault (s : State) (base len : Nat) : State :=
  { s with enc := raiseAlign s.enc, faultBuffer := some { base := base, len := len } }

/-- `E_TRUNC` in DEC (R143, R202): respond `ST_TRUNC`, latch it, return to `D_IDLE`; the word being
assembled is not emitted. -/
def decTruncate (d : Dec) : Effect Dec Word :=
  { regs := { d with last := .trunc, st := .idle }, emit := none, resp := some (.unpack .trunc) }

/-- `E_TRUNC` in SRD: `End` in a consuming state other than `S_TAG` (R165, R203). -/
def srdTruncate (r : Srd) : Srd := { r with term := .trunc, st := .error }

/-- `E_IO` in SRD: `Err(e)` in any consuming state, the payload kept verbatim (R165, R204). -/
def srdIoError (r : Srd) (e : Config.ErrT) : Srd := { r with term := .io, errv := some e, st := .error }

/-- The clean end of a stream: `End` in `S_TAG` (R165). It is no error (R200). -/
def srdEnd (r : Srd) : Srd := { r with term := .eof, st := .done }

/-- The status a terminal indicator is reported as, `status(term)` (R162). `NONE` reads as `ST_OK`: R86
gives both the code 0. -/
def Term.status : Term → Status
  | .unset => .ok
  | .eof => .eof
  | .trunc => .trunc
  | .io => .io

/-! ### Ways out of an error state (R209) -/

/-- The registers SINIT writes (R161): the reset values, `busy` untouched. -/
def srdInit (r : Srd) : Srd := { Srd.reset with busy := r.busy }

/-- Reset of the unit (R230, R231): every register takes its reset value, every held command is discarded,
and no command is in flight (R63). Delivered items, responses, tokens, memory, consumers and parameters stay (log 16). -/
def State.unitReset (s : State) : State :=
  { s with enc := Enc.reset, dec := Dec.reset, faultBuffer := none,
           srd := s.srd.map fun u => { u with regs := Srd.reset, port := u.port.afterReset },
           encPort := s.encPort.afterReset, decPort := s.decPort.afterReset }

end Sys2Proof.Machine
end

