-- ==== Sys2Proof/Machine/Flags.lean ====
section
/-! DEFINITION. State codes (R22, R24, R26), status codes (R86), and the status registers of R31. They are
functions of the registers: reading one has no side effect and none can be written. -/

namespace Sys2Proof.Machine

open Sys2Proof

/-- The code of an ENC state (R22). -/
def EncSt.code : EncSt → BitVec 4
  | .idle => 0
  | .fetch => 1
  | .tagOut => 2
  | .sparse => 3
  | .zscan => 4
  | .seed => 5
  | .lscan => 6
  | .lcopy => 7
  | .fault => 8

/-- The code of a DEC state (R24). -/
def DecSt.code : DecSt → BitVec 4
  | .idle => 0
  | .tag => 1
  | .sparse => 2
  | .zcount => 3
  | .zemit => 4
  | .seed => 5
  | .lcount => 6
  | .lraw => 7

/-- The code of an SRD state (R26). -/
def SrdSt.code : SrdSt → BitVec 4
  | .tag => 0
  | .bytes => 1
  | .zeroCount => 2
  | .emitZeros => 3
  | .litWord => 4
  | .litCount => 5
  | .emitWord => 6
  | .emitLiterals => 7
  | .done => 8
  | .error => 9

/-- The code of a status (R86). -/
def Status.code : Status → BitVec 2
  | .ok => 0
  | .eof => 1
  | .trunc => 2
  | .io => 3

/-- The code of a terminal indicator (R25, R86). -/
def Term.code : Term → BitVec 2
  | .unset => 0
  | .eof => 1
  | .trunc => 2
  | .io => 3

/-- A flag as one bit. -/
def bit (b : Bool) : BitVec 1 := BitVec.ofBool b

/-- ENC is neither idle nor stuck (R31 `BUSY`). -/
def Enc.isBusy (e : Enc) : Bool := !(e.st == .idle || e.st == .fault)

/-- DEC is not idle (R31 `BUSY`). -/
def Dec.isBusy (d : Dec) : Bool := !(d.st == .idle)

/-- ENC_STATUS (R31): reserved `[7:6]`, `FAULT` `[5]`, `BUSY` `[4]`, `ST` `[3:0]`. -/
def encStatus (e : Enc) : BitVec 8 := (0#2 ++ bit e.fault) ++ (bit e.isBusy ++ e.st.code)

/-- DEC_STATUS (R31): reserved `[7]`, `LAST` `[6:5]`, `BUSY` `[4]`, `ST` `[3:0]`. -/
def decStatus (d : Dec) : BitVec 8 := (0#1 ++ d.last.code) ++ (bit d.isBusy ++ d.st.code)

/-- SRD_STATUS (R31): reserved `[7]`, `TERM` `[6:5]`, `BUSY` `[4]`, `ST` `[3:0]`. -/
def srdStatus (r : Srd) : BitVec 8 := (0#1 ++ r.term.code) ++ (bit r.busy ++ r.st.code)

/-- SRD_ERRV (R31). -/
def srdErrv (r : Srd) : Option Config.ErrT := r.errv

end Sys2Proof.Machine
end

