-- ==== Sys2Proof/Machine/Decoder.lean ====
section
/-! DEFINITION. DEC, the one-shot decoder (41_decoder.md): its FSM steps R136-R144, a whole record at its
cursor, and the command UNPACK (R135). -/

namespace Sys2Proof.Machine

open Sys2Proof

/-! ### FSM steps. Each takes the registers after `NEXT()` has advanced `pos`, and the byte read. -/

/-- R144: the input ends at a tag boundary. -/
def decComplete (d : Dec) : Effect Dec Word :=
  { regs := { d with last := .ok, st := .idle }, emit := none, resp := some (.unpack .ok) }

/-- R136 `D_TAG`: the tag parser (R132). -/
def decTag (d : Dec) (t : Byte) : Effect Dec Word :=
  { regs :=
      if t = 0x00#8 then { d with T := t, st := .zcount }
      else if t = 0xFF#8 then { d with T := t, W := 0, k := 0, st := .seed }
      else { d with T := t, W := 0, k := 0, st := .sparse }
    emit := none, resp := none }

/-- R137 `D_SPARSE`: place one literal byte (R133), and emit the word when it is the last. -/
def decSparse (d : Dec) (b : Byte) : Effect Dec Word :=
  let w := setLane d.W (pos d.T d.k.toNat) b
  if d.k.toNat + 1 = popCount d.T then { regs := { d with st := .tag }, emit := some w, resp := none }
  else { regs := { d with W := w, k := d.k + 1 }, emit := none, resp := none }

/-- R138 `D_ZCOUNT`: load the run-length expander with `N + 1` (R134). -/
def decZcount (d : Dec) (n : Byte) : Effect Dec Word :=
  { regs := { d with rem := n.setWidth 9 + 1, st := .zemit }, emit := none, resp := none }

/-- R139 `D_ZEMIT`: emit one zero word. -/
def decZemit (d : Dec) : Effect Dec Word :=
  { regs := { d with rem := d.rem - 1, st := if d.rem = 1 then .tag else .zemit }, emit := some 0, resp := none }

/-- R140 `D_SEED`: collect one seed byte. -/
def decSeed (d : Dec) (b : Byte) : Effect Dec Word :=
  let w := setLane d.W d.k.toNat b
  { regs := if d.k.toNat = 7 then { d with W := w, st := .lcount } else { d with W := w, k := d.k + 1 }
    emit := none, resp := none }

/-- R141 `D_LCOUNT`: take the literal-run count and emit the seed. -/
def decLcount (d : Dec) (n : Byte) : Effect Dec Word :=
  { regs := { d with rem := n.setWidth 9, k := 0, st := if n = 0 then .tag else .lraw }
    emit := some d.W, resp := none }

/-- R142 `D_LRAW`: copy one raw byte, and emit the raw word when it is complete. -/
def decLraw (d : Dec) (b : Byte) : Effect Dec Word :=
  let w := setLane d.W d.k.toNat b
  if d.k.toNat = 7 then
    { regs := { d with k := 0, rem := d.rem - 1, st := if d.rem = 1 then .tag else .lraw }
      emit := some w, resp := none }
  else { regs := { d with W := w, k := d.k + 1 }, emit := none, resp := none }

/-- The byte `NEXT()` reads at offset `pos`: the one supplied for it, else `MemRead(base + pos, 1)[0]`. -/
def decByte (supply : Nat → Option Byte) (s : State) : Except Fault Byte :=
  match supply s.dec.pos with
  | some b => .ok b
  | none => memReadByte s (s.dec.base + s.dec.pos)

/-- The registers after `NEXT()`: `pos` has advanced by one (R29). -/
def Dec.advance (d : Dec) : Dec := { d with pos := d.pos + 1 }

/-- A step that reads a byte and does not check the end of the input itself: with the input exhausted,
`atEnd` applies instead (R143, R144). -/
def decConsume (supply : Nat → Option Byte) (s : State) (atEnd : Effect Dec Word)
    (rule : Dec → Byte → Effect Dec Word) : BlockStep :=
  if s.dec.pos = s.dec.len then s.commitDec atEnd
  else .ofRead (decByte supply s) fun b => s.commitDec (rule s.dec.advance b)

/-- One step of DEC, reading bytes from `supply` where it gives one and from the source buffer elsewhere. -/
def decStepFrom (supply : Nat → Option Byte) (s : State) : BlockStep :=
  match s.dec.st with
  | .idle => .waits
  | .tag => decConsume supply s (decComplete s.dec) decTag
  | .sparse => decConsume supply s (decTruncate s.dec) decSparse
  | .zcount => decConsume supply s (decTruncate s.dec) decZcount
  | .zemit => s.commitDec (decZemit s.dec)
  | .seed => decConsume supply s (decTruncate s.dec) decSeed
  | .lcount => decConsume supply s (decTruncate s.dec) decLcount
  | .lraw => decConsume supply s (decTruncate s.dec) decLraw

/-- One FSM step of DEC on the source buffer (R136-R144). -/
def decStep (s : State) : BlockStep := decStepFrom (fun _ => none) s

/-! ### Records (R145-R147) -/

/-- DEC is about to read a tag: a record starts here (R136). -/
def Dec.atRecord (d : Dec) : Bool := d.st == .tag && decide (d.pos < d.len)

/-- DEC takes the bytes of a record as its next input bytes, for `k` steps of R136-R144. The end of the
input still truncates it (R143). At any other point DEC takes up no record and nothing changes (log 9). -/
def decRecord (i : Instr) (k : Nat) (s : State) : BlockStep :=
  if s.dec.atRecord then
    burst (decStepFrom fun j => if s.dec.pos ≤ j then (encodeRecord i)[j - s.dec.pos]? else none) k s
  else .waits

/-! ### The command UNPACK -/

/-- DEC at the acceptance of an UNPACK (R135). -/
def decAccept (d : Dec) (base len : Nat) : Dec := { d with base := base, len := len, pos := 0, st := .tag }

/-- UNPACK (R135). Accepted only in `D_IDLE`, and held on the channel otherwise (R237). -/
def execUnpack (base len : Nat) (s : State) : Host.Outcome State Fault Refusal :=
  if s.dec.st ≠ .idle then .next { s with decPort := s.decPort.hold (encodeCommand s.params (.unpack base len)) }
  else if !Params.fits s.params base len then .refused .range
  else .next { s with dec := decAccept s.dec base len }

end Sys2Proof.Machine
end

