-- ==== Sys2Proof/Machine/Encoder.lean ====
section
/-! DEFINITION. ENC, the encoder (40_encoder.md): its FSM steps R106-R112, the record it encodes next,
and the command PACK (R105). -/

namespace Sys2Proof.Machine

open Sys2Proof

/-! ### FSM steps -/

/-- R106 at the end of the input: respond and return to `E_IDLE`. -/
def encComplete (e : Enc) : Effect Enc Byte :=
  { regs := { e with st := .idle }, emit := none, resp := some (.pack .ok) }

/-- R106 `E_FETCH`: take the next word and its tag. -/
def encFetch (e : Enc) (v : Word) : Effect Enc Byte :=
  { regs := { e with W := v, T := tagGen v, cur := e.cur + 1, st := .tagOut }, emit := none, resp := none }

/-- R107 `E_TAGOUT`: emit the tag and dispatch on it. -/
def encTagOut (e : Enc) : Effect Enc Byte :=
  { regs :=
      if e.T = 0x00#8 then { e with cnt := 0, st := .zscan }
      else if e.T = 0xFF#8 then { e with k := 0, st := .seed }
      else { e with k := 0, st := .sparse }
    emit := some e.T, resp := none }

/-- R108 `E_SPARSE`: emit lane `k` of the byte-selector mux. -/
def encSparse (e : Enc) : Effect Enc Byte :=
  { regs := if e.k.toNat + 1 = popCount e.T then { e with st := .fetch } else { e with k := e.k + 1 }
    emit := some (mux e.W e.T e.k.toNat), resp := none }

/-- R109 `E_ZSCAN`: count the look-ahead word when it is zero, else emit the count. `look` is the word
R109's guard lets the step read, none where the guard fails. -/
def encZscan (e : Enc) (look : Option Word) : Effect Enc Byte :=
  if look.any isZeroWord then
    { regs := { e with cnt := e.cnt + 1, cur := e.cur + 1 }, emit := none, resp := none }
  else { regs := { e with st := .fetch }, emit := some e.cnt, resp := none }

/-- R110 `E_SEED`: emit byte `k` of a word with no zero byte. -/
def encSeed (e : Enc) : Effect Enc Byte :=
  { regs := if e.k.toNat = 7 then { e with cnt := 0, scan := e.cur, st := .lscan } else { e with k := e.k + 1 }
    emit := some (lane e.W e.k.toNat), resp := none }

/-- R111 `E_LSCAN`: count the look-ahead word when it has at most one zero byte, else emit the count.
`look` is as in R109. -/
def encLscan (e : Enc) (look : Option Word) : Effect Enc Byte :=
  if look.any continuesLiteral then
    { regs := { e with cnt := e.cnt + 1, scan := e.scan + 1 }, emit := none, resp := none }
  else
    { regs := { e with k := 0, st := if e.cnt = 0 then .fetch else .lcopy }, emit := some e.cnt, resp := none }

/-- R112 `E_LCOPY`: copy one byte of a counted word. -/
def encLcopy (e : Enc) (b : Byte) : Effect Enc Byte :=
  { regs :=
      if e.k.toNat = 7 then
        { e with k := 0, cur := e.cur + 1, cnt := e.cnt - 1, st := if e.cnt = 1 then .fetch else .lcopy }
      else { e with k := e.k + 1 }
    emit := some b, resp := none }

/-- The word ENC reads at index `i`: the one supplied for it, else `MemRead(base + 8i, 8)`. -/
def encWord (supply : Nat → Option Word) (s : State) (i : Nat) : Except Fault Word :=
  match supply i with
  | some v => .ok v
  | none => memReadWord s (s.enc.base + 8 * i)

/-- The byte ENC reads at word `i`, lane `k`: of the word supplied, else `MemRead(base + 8i + k, 1)[0]`. -/
def encByte (supply : Nat → Option Word) (s : State) (i k : Nat) : Except Fault Byte :=
  match supply i with
  | some v => .ok (lane v k)
  | none => memReadByte s (s.enc.base + 8 * i + k)

/-- The guard of a run scan at word index `i`: a word is left and the count is below 255 (R109, R111). -/
def Enc.mayScan (e : Enc) (i : Nat) : Bool := decide (i < e.nw) && decide (e.cnt.toNat < Config.runMax)

/-- One step of ENC, reading words from `supply` where it gives one and from the source buffer elsewhere. -/
def encStepFrom (supply : Nat → Option Word) (s : State) : BlockStep :=
  match s.enc.st with
  | .idle => .waits
  | .fault => .waits
  | .fetch =>
    if s.enc.cur = s.enc.nw then s.commitEnc (encComplete s.enc)
    else .ofRead (encWord supply s s.enc.cur) fun v => s.commitEnc (encFetch s.enc v)
  | .tagOut => s.commitEnc (encTagOut s.enc)
  | .sparse => s.commitEnc (encSparse s.enc)
  | .zscan =>
    if s.enc.mayScan s.enc.cur then
      .ofRead (encWord supply s s.enc.cur) fun v => s.commitEnc (encZscan s.enc (some v))
    else s.commitEnc (encZscan s.enc none)
  | .seed => s.commitEnc (encSeed s.enc)
  | .lscan =>
    if s.enc.mayScan s.enc.scan then
      .ofRead (encWord supply s s.enc.scan) fun v => s.commitEnc (encLscan s.enc (some v))
    else s.commitEnc (encLscan s.enc none)
  | .lcopy =>
    .ofRead (encByte supply s s.enc.cur s.enc.k.toNat) fun b => s.commitEnc (encLcopy s.enc b)

/-- One FSM step of ENC on the source buffer (R106-R112). -/
def encStep (s : State) : BlockStep := encStepFrom (fun _ => none) s

/-! ### Records (R120-R122) -/

/-- ENC is about to fetch a word: the next record starts here (R106). -/
def Enc.atRecord (e : Enc) : Bool := e.st == .fetch && decide (e.cur < e.nw)

/-- ENC encodes the words of a record as its next words, for `k` steps of R106-R112. At any other point
ENC takes up no record and nothing changes (log 9). -/
def encRecord (i : Instr) (k : Nat) (s : State) : BlockStep :=
  if s.enc.atRecord then
    burst (encStepFrom fun j => if s.enc.cur ≤ j then (recordWords i)[j - s.enc.cur]? else none) k s
  else .waits

/-! ### The command PACK -/

/-- ENC at the acceptance of a PACK with an aligned length (R105). -/
def encAccept (e : Enc) (base len : Nat) : Enc := { e with base := base, nw := len / 8, cur := 0, st := .fetch }

/-- PACK (R105). Accepted only in `E_IDLE`, and held on the channel otherwise (R237). The range check
comes before the alignment check (R207). -/
def execPack (base len : Nat) (s : State) : Host.Outcome State Fault Refusal :=
  if s.enc.st ≠ .idle then .next { s with encPort := s.encPort.hold (encodeCommand s.params (.pack base len)) }
  else if !Params.fits s.params base len then .refused .range
  else if len % 8 ≠ 0 then .next (s.takeAlignFault base len)
  else .next { s with enc := encAccept s.enc base len }

end Sys2Proof.Machine
end

