-- ==== Sys2Proof/Machine/Stream.lean ====
section
/-! DEFINITION. SRD, the streaming decoder (42_stream_decoder.md): its FSM steps R165-R174 and transactions
R163, R164, a whole record at its cursor, and the commands SINIT (R161) and SREAD (R162). -/

namespace Sys2Proof.Machine

open Sys2Proof

/-! ### FSM steps. A step yields the registers and the byte it emits, if any. -/

/-- R166 `S_TAG` on `Byte(b)`: the tag parser; accepting a word's tag clears the scratch (D21). -/
def srdTag (r : Srd) (b : Byte) : Srd × Option Byte :=
  if b = 0x00#8 then ({ r with st := .zeroCount }, none)
  else if b = 0xFF#8 then ({ r with SCR := 0, idx := 0, st := .litWord }, none)
  else ({ r with T := b, SCR := 0, idx := 0, st := .bytes }, none)

/-- R167 `S_BYTES` on `Byte(b)`: the byte-placement unit into the scratch. -/
def srdBytes (r : Srd) (b : Byte) : Srd × Option Byte :=
  let w := setLane r.SCR (pos r.T r.idx.toNat) b
  if r.idx.toNat + 1 = popCount r.T then ({ r with SCR := w, idx := 0, rem := 0, st := .emitWord }, none)
  else ({ r with SCR := w, idx := r.idx + 1 }, none)

/-- R168 `S_ZERO_COUNT` on `Byte(b)`: `8·(b + 1)` zero bytes are pending. -/
def srdZeroCount (r : Srd) (b : Byte) : Srd × Option Byte :=
  ({ r with rem := 8 * (b.setWidth 12 + 1), st := .emitZeros }, none)

/-- R169 `S_EMIT_ZEROS`: emit one zero byte. -/
def srdEmitZeros (r : Srd) : Srd × Option Byte :=
  ({ r with rem := r.rem - 1, st := if r.rem = 1 then .tag else .emitZeros }, some 0)

/-- R170 `S_LIT_WORD` on `Byte(b)`: collect one seed byte. -/
def srdLitWord (r : Srd) (b : Byte) : Srd × Option Byte :=
  let w := setLane r.SCR r.idx.toNat b
  if r.idx.toNat = 7 then ({ r with SCR := w, idx := 0, st := .litCount }, none)
  else ({ r with SCR := w, idx := r.idx + 1 }, none)

/-- R171 `S_LIT_COUNT` on `Byte(b)`: `8·b` literal bytes are pending after the seed. -/
def srdLitCount (r : Srd) (b : Byte) : Srd × Option Byte :=
  ({ r with rem := 8 * b.setWidth 12, idx := 0, st := .emitWord }, none)

/-- R172 `S_EMIT_WORD`: emit one byte of the scratch. -/
def srdEmitWord (r : Srd) : Srd × Option Byte :=
  (if r.idx.toNat = 7 then { r with idx := 0, st := if r.rem = 0 then .tag else .emitLiterals }
   else { r with idx := r.idx + 1 },
   some (lane r.SCR r.idx.toNat))

/-- R173 `S_EMIT_LITERALS` on `Byte(b)`: pass one raw byte through. -/
def srdEmitLiterals (r : Srd) (b : Byte) : Srd × Option Byte :=
  ({ r with rem := r.rem - 1, st := if r.rem = 1 then .tag else .emitLiterals }, some b)

/-- The rule of the current state on `Byte(b)`; none in the states that consume no input (R26). -/
def srdOnByte (r : Srd) (b : Byte) : Option (Srd × Option Byte) :=
  match r.st with
  | .tag => some (srdTag r b)
  | .bytes => some (srdBytes r b)
  | .zeroCount => some (srdZeroCount r b)
  | .emitZeros => none
  | .litWord => some (srdLitWord r b)
  | .litCount => some (srdLitCount r b)
  | .emitWord => none
  | .emitLiterals => some (srdEmitLiterals r b)
  | .done => none
  | .error => none

/-- The step on a terminal token (R165): `Err` is latched in every consuming state, `End` is the clean
end in `S_TAG` and a truncation elsewhere. -/
def srdOnEnd (r : Srd) : Srd := if r.st = .tag then srdEnd r else srdTruncate r

/-- The step rule of R165-R173 with its pull: the registers, the byte emitted, the tokens left. None
where the block has no step for want of a token, or in a terminal state (R164, R174). -/
def srdRule (r : Srd) (src : List Token) : Option (Srd × Option Byte × List Token) :=
  match r.st with
  | .emitZeros => some ((srdEmitZeros r).1, (srdEmitZeros r).2, src)
  | .emitWord => some ((srdEmitWord r).1, (srdEmitWord r).2, src)
  | .done => none
  | .error => none
  | _ =>
    match src with
    | [] => none
    | .eof :: rest => some (srdOnEnd r, none, rest)
    | .err e :: rest => some (srdIoError r e, none, rest)
    | .byte b :: rest => (srdOnByte r b).map fun x => (x.1, x.2, rest)

/-- A byte emitted counts in `n`: it is delivered at index `n` of the caller's buffer (R164). -/
def Srd.counting (r : Srd) (item : Option Byte) : Srd := if item.isSome then { r with n := r.n + 1 } else r

/-- The FSM is in a terminal state (R174). -/
def Srd.isTerminal (r : Srd) : Bool := r.st == .done || r.st == .error

/-- The completion check at the end of every step of a transaction (R163): the response, if it is due. -/
def srdCompletion (r : Srd) : Option Response :=
  if r.isTerminal then some (.sread r.n r.term.status r.errv)
  else if r.n = r.K then some (.sread r.n .ok none)
  else none

/-- The transaction ends with its response (R163, R205). -/
def Srd.finish (r : Srd) : Srd := if (srdCompletion r).isSome then { r with busy := false } else r

/-- One step of an SRD unit (R163-R174). None where it has no step: no transaction, no token, a terminal
state, or a consumer that does not accept the byte. -/
def srdUnitStep (u : SrdUnit) : Option SrdUnit :=
  if u.regs.busy then
    match srdRule u.regs u.src with
    | none => none
    | some (r, item, src) =>
      (u.port.commit item (srdCompletion (r.counting item))).map fun p =>
        { regs := (r.counting item).finish, src := src, port := p }
  else none

/-- Up to `k` consecutive steps of an SRD unit, ending early where it has none. -/
def srdUnitBurst : Nat → SrdUnit → SrdUnit
  | 0, u => u
  | k + 1, u =>
    match srdUnitStep u with
    | none => u
    | some v => srdUnitBurst k v

/-- One FSM step of SRD `j`. -/
def srdStep (j : Nat) (s : State) : BlockStep :=
  match s.srd[j]? with
  | none => .waits
  | some u =>
    match srdUnitStep u with
    | none => .waits
    | some v => .moves (s.setSrd j v)

/-- The bytes of the caller's buffer of the transaction in flight, or of the last one: the last `n` bytes
delivered (R56, R164; log 18). -/
def SrdUnit.buffer (u : SrdUnit) : List Byte := u.port.out.drop (u.port.out.length - u.regs.n)

/-! ### Records (R175-R177) -/

/-- SRD is about to pull a tag: a transaction is open in `S_TAG` (R166). -/
def Srd.atRecord (r : Srd) : Bool := r.st == .tag && r.busy

/-- The source channel with the given bytes as the values of its next `Byte` tokens. A terminal token, or
the end of what is available, cuts them off. -/
def overlay : List Byte → List Token → List Token
  | b :: bs, .byte _ :: ts => .byte b :: overlay bs ts
  | _, ts => ts

/-- SRD `j` takes the bytes of a record as its next tokens, for `k` steps of R163-R173. Terminal tokens,
a missing token, a full buffer and the consumer still end the run. Where no tag is about to be pulled, SRD
takes up no record and nothing changes (log 9). -/
def srdRecord (j : Nat) (i : Instr) (k : Nat) (s : State) : BlockStep :=
  match s.srd[j]? with
  | none => .waits
  | some u =>
    if u.regs.atRecord then
      .moves (s.setSrd j (srdUnitBurst k { u with src := overlay (encodeRecord i) u.src }))
    else .waits

/-! ### The commands SINIT and SREAD -/

/-- SINIT at acceptance on a unit (R161). -/
def SrdUnit.init (u : SrdUnit) : SrdUnit :=
  { u with regs := srdInit u.regs, port := u.port.respond (.sinit .ok) }

/-- SREAD at acceptance on a unit (R162): the terminal state is checked first, then `K = 0` (R207). -/
def SrdUnit.read (u : SrdUnit) (k : Nat) : SrdUnit :=
  if u.regs.isTerminal then { u with port := u.port.respond (.sread 0 u.regs.term.status u.regs.errv) }
  else if k = 0 then { u with port := u.port.respond (.sread 0 .ok none) }
  else { u with regs := { u.regs with K := k, n := 0, busy := true } }

/-- A command for a busy SRD waits on its channel (R237). -/
def SrdUnit.hold (u : SrdUnit) (bits : Nat) : SrdUnit := { u with port := u.port.hold bits }

/-- SINIT (R161). A number at or above `N_SRD` is refused before anything else (R85, R207). -/
def execSinit (inst : Nat) (s : State) : Host.Outcome State Fault Refusal :=
  match s.srd[inst]? with
  | none => .refused .inst
  | some u =>
    if u.regs.busy then .next (s.setSrd inst (u.hold (encodeCommand s.params (.sinit inst))))
    else .next (s.setSrd inst u.init)

/-- SREAD (R162). A number at or above `N_SRD` is refused before anything else (R85, R207). -/
def execSread (inst k : Nat) (s : State) : Host.Outcome State Fault Refusal :=
  match s.srd[inst]? with
  | none => .refused .inst
  | some u =>
    if u.regs.busy then .next (s.setSrd inst (u.hold (encodeCommand s.params (.sread inst k))))
    else .next (s.setSrd inst (u.read k))

end Sys2Proof.Machine
end

