-- ==== Sys2Proof/Machine/Records.lean ====
section
/-! DEFINITION. The meanings of the three records, on the block whose turn it is: the consecutive FSM
steps that the record's instruction rule lists (R120-R122 on ENC, R145-R147 on DEC, R175-R177 on SRD). -/

namespace Sys2Proof.Machine

open Sys2Proof

/-- Steps ENC takes for a SPARSE word: R106, R107, then `PC(t)` times R108 (R120). -/
def encSparseSteps (t : Byte) : Nat := 2 + popCount t

/-- Steps ENC takes for a run of `n + 1` zero words: R106, R107, `n` counting steps of R109 and the
closing one (R121). -/
def encZrunSteps (n : Byte) : Nat := 2 + (n.toNat + 1)

/-- Steps ENC takes for a literal run with `n` words after the seed: R106, R107, 8 of R110, `n` counting
steps of R111 and the closing one, `8n` of R112 (R122). -/
def encLrunSteps (n : Nat) : Nat := 2 + 8 + (n + 1) + 8 * n

/-- Steps DEC takes for a SPARSE record: R136, then `PC(t)` times R137 (R145). -/
def decSparseSteps (t : Byte) : Nat := 1 + popCount t

/-- Steps DEC takes for a ZRUN record: R136, R138, then `n + 1` times R139 (R146). -/
def decZrunSteps (n : Byte) : Nat := 2 + (n.toNat + 1)

/-- Steps DEC takes for an LRUN record: R136, 8 of R140, R141, then `8n` of R142 (R147). -/
def decLrunSteps (n : Nat) : Nat := 1 + 8 + 1 + 8 * n

/-- Steps SRD takes for a SPARSE record: R166, `PC(t)` of R167, 8 of R172 (R175). -/
def srdSparseSteps (t : Byte) : Nat := 1 + popCount t + 8

/-- Steps SRD takes for a ZRUN record: R166, R168, then `8(n + 1)` of R169 (R176). -/
def srdZrunSteps (n : Byte) : Nat := 2 + 8 * (n.toNat + 1)

/-- Steps SRD takes for an LRUN record: R166, 8 of R170, R171, 8 of R172, `8n` of R173 (R177). -/
def srdLrunSteps (n : Nat) : Nat := 1 + 8 + 1 + 8 + 8 * n

/-- The number of steps a record's instruction rule lists on a block; a command has none. -/
def recordSteps (a : Agent) (i : Instr) : Nat :=
  match a, i with
  | .enc, .zrun n => encZrunSteps n
  | .enc, .lrun _ raw => encLrunSteps raw.length
  | .enc, .sparse t _ => encSparseSteps t
  | .dec, .zrun n => decZrunSteps n
  | .dec, .lrun _ raw => decLrunSteps raw.length
  | .dec, .sparse t _ => decSparseSteps t
  | .srd _, .zrun n => srdZrunSteps n
  | .srd _, .lrun _ raw => srdLrunSteps raw.length
  | .srd _, .sparse t _ => srdSparseSteps t
  | _, .pack _ _ => 0
  | _, .unpack _ _ => 0
  | _, .sinit _ => 0
  | _, .sread _ _ => 0

/-- ZRUN on the block whose turn it is: R121, R146, R176. -/
def execZrun (n : Byte) (s : State) : Host.Outcome State Fault Refusal :=
  match s.turn with
  | .enc => (encRecord (.zrun n) (encZrunSteps n) s).outcome s
  | .dec => (decRecord (.zrun n) (decZrunSteps n) s).outcome s
  | .srd j => (srdRecord j (.zrun n) (srdZrunSteps n) s).outcome s

/-- LRUN on the block whose turn it is: R122, R147, R177. -/
def execLrun (seed : Word) (raw : List Word) (s : State) : Host.Outcome State Fault Refusal :=
  match s.turn with
  | .enc => (encRecord (.lrun seed raw) (encLrunSteps raw.length) s).outcome s
  | .dec => (decRecord (.lrun seed raw) (decLrunSteps raw.length) s).outcome s
  | .srd j => (srdRecord j (.lrun seed raw) (srdLrunSteps raw.length) s).outcome s

/-- SPARSE on the block whose turn it is: R120, R145, R175. -/
def execSparse (t : Byte) (lits : List Byte) (s : State) : Host.Outcome State Fault Refusal :=
  match s.turn with
  | .enc => (encRecord (.sparse t lits) (encSparseSteps t) s).outcome s
  | .dec => (decRecord (.sparse t lits) (decSparseSteps t) s).outcome s
  | .srd j => (srdRecord j (.sparse t lits) (srdSparseSteps t) s).outcome s

end Sys2Proof.Machine
end

