-- ==== Sys2Proof/Machine/Dispatch.lean ====
section
/-! DEFINITION. The dispatch: one arm per constructor of Instr. -/

namespace Sys2Proof.Machine

open Sys2Proof

/-- The meaning of an instruction. A record is run by the block whose turn it is, a command by the block
its `op` names (R85). -/
def exec (i : Instr) (s : State) : Host.Outcome State Fault Refusal :=
  match i with
  | .zrun n => Sys2Proof.Machine.execZrun n s
  | .lrun seed raw => Sys2Proof.Machine.execLrun seed raw s
  | .sparse t lits => Sys2Proof.Machine.execSparse t lits s
  | .pack base len => Sys2Proof.Machine.execPack base len s
  | .unpack base len => Sys2Proof.Machine.execUnpack base len s
  | .sinit inst => Sys2Proof.Machine.execSinit inst s
  | .sread inst k => Sys2Proof.Machine.execSread inst k s

end Sys2Proof.Machine
end

