-- ==== Sys2Proof/Machine/Codec.lean ====
section
/-! DEFINITION. The normative functions of the codec: `pack` (R100 of 40_encoder.md) and `unpack` (R130 of
41_decoder.md). They recurse on fuel, which the length of the input suffices for. -/

namespace Sys2Proof.Machine

open Sys2Proof

/-- The length of the longest prefix, of at most `cap` words, whose words all pass a test. -/
def runLength (p : Word → Bool) : Nat → List Word → Nat
  | 0, _ => 0
  | _ + 1, [] => 0
  | cap + 1, w :: ws => if p w then runLength p cap ws + 1 else 0

/-- `zrun(ws)`: the zero words a zero run adds (R100). -/
def zrunLength (ws : List Word) : Nat := runLength isZeroWord Config.runMax ws

/-- `lrun(ws)`: the words a literal run adds (R100). -/
def lrunLength (ws : List Word) : Nat := runLength continuesLiteral Config.runMax ws

/-- The first record of `pack(ws)` (R100, R120-R122); none for the empty list. -/
def nextRecord : List Word → Option Instr
  | [] => none
  | w :: ws =>
    if tagGen w = 0x00#8 then some (.zrun (BitVec.ofNat 8 (zrunLength ws)))
    else if tagGen w = 0xFF#8 then some (.lrun w (ws.take (lrunLength ws)))
    else some (.sparse (tagGen w) (compact w))

/-- `pack` with fuel (R100). -/
def packFuel : Nat → List Word → List Byte
  | 0, _ => []
  | _ + 1, [] => []
  | fuel + 1, w :: ws =>
    if tagGen w = 0x00#8 then
      [0x00#8, BitVec.ofNat 8 (zrunLength ws)] ++ packFuel fuel (ws.drop (zrunLength ws))
    else if tagGen w = 0xFF#8 then
      [0xFF#8] ++ bytesOfWord w ++ [BitVec.ofNat 8 (lrunLength ws)] ++ bytesOfWords (ws.take (lrunLength ws))
        ++ packFuel fuel (ws.drop (lrunLength ws))
    else [tagGen w] ++ compact w ++ packFuel fuel ws

/-- `pack(ws)` (R100). -/
def packWords (ws : List Word) : List Byte := packFuel ws.length ws

/-- `dec` of R130 with fuel: the words emitted and the status. -/
def unpackFuel : Nat → List Byte → List Word → List Word × Status
  | 0, _, acc => (acc, .ok)
  | _ + 1, [], acc => (acc, .ok)
  | fuel + 1, t :: r, acc =>
    if t = 0x00#8 then
      match r with
      | [] => (acc, .trunc)
      | n :: rest => unpackFuel fuel rest (acc ++ List.replicate (n.toNat + 1) 0)
    else if t = 0xFF#8 then
      match r.drop 8 with
      | [] => (acc, .trunc)
      | n :: raw =>
        let m := min n.toNat (raw.length / 8)
        let acc' := acc ++ [wordOfBytes (r.take 8)] ++ wordsOfBytes (raw.take (8 * m))
        if m < n.toNat then (acc', .trunc) else unpackFuel fuel (raw.drop (8 * n.toNat)) acc'
    else if r.length < popCount t then (acc, .trunc)
    else unpackFuel fuel (r.drop (popCount t)) (acc ++ [place t (r.take (popCount t))])

/-- `unpack(p) = (ws, st)` (R130). -/
def unpackBytes (p : List Byte) : List Word × Status := unpackFuel p.length p []

/-- A packed stream is canonical iff it is `pack(u)` of some words `u` (R89). -/
def IsCanonical (p : List Byte) : Prop := ∃ ws, p = packWords ws

/-- The raw bytes of an incomplete literal word that SRD delivers before it sees the end of a truncated
stream (R179's `r`). -/
def residueFuel : Nat → List Byte → List Byte
  | 0, _ => []
  | _ + 1, [] => []
  | fuel + 1, t :: r =>
    if t = 0x00#8 then residueFuel fuel (r.drop 1)
    else if t = 0xFF#8 then
      match r.drop 8 with
      | [] => []
      | n :: raw =>
        if raw.length < 8 * n.toNat then raw.drop (8 * (raw.length / 8)) else residueFuel fuel (raw.drop (8 * n.toNat))
    else residueFuel fuel (r.drop (popCount t))

/-- `r` of R179. -/
def truncationResidue (p : List Byte) : List Byte := residueFuel p.length p

end Sys2Proof.Machine
end

