-- ==== Sys2Proof/Machine/Fetch.lean ====
section
/-! DEFINITION. Fetching: the record at a block's cursor, the command at the head of its channel, and the
channel a command is routed to (R85, R237). -/

namespace Sys2Proof.Machine

open Sys2Proof

/-- The bytes placed at `addr .. addr+n-1`, as far as they are placed without a gap. -/
def placedBytes (m : Memory) : Nat → Nat → List Byte
  | _, 0 => []
  | addr, n + 1 =>
    match m.get addr with
    | none => []
    | some b => b :: placedBytes m (addr + 1) n

/-- The bytes available on a source channel before a terminal token. -/
def availableBytes : List Token → List Byte
  | .byte b :: ts => b :: availableBytes ts
  | _ => []

/-- The words ENC has still to encode, at most the 256 one record can take. -/
def encWindow (s : State) : List Word :=
  let n := min (s.enc.nw - s.enc.cur) (Config.runMax + 1)
  wordsOfBytes (placedBytes s.mem (s.enc.base + 8 * s.enc.cur) (8 * n))

/-- The bytes DEC has still to read, at most the longest record. -/
def decWindow (s : State) : List Byte :=
  placedBytes s.mem (s.dec.base + s.dec.pos) (min (s.dec.len - s.dec.pos) maxRecordLength)

/-- The first record of a byte list, if it is complete. -/
def firstRecord (bytes : List Byte) : Option Instr := (decodeRecord bytes).toOption.map Prod.fst

/-- The record at a block's cursor: the one the input holds (DEC, SRD), or the one ENC encodes next. None
where the block is at no record boundary or the record is not all there. -/
def fetchRecord (a : Agent) (s : State) : Option Instr :=
  match a with
  | .enc => if s.enc.atRecord then nextRecord (encWindow s) else none
  | .dec => if s.dec.atRecord then firstRecord (decWindow s) else none
  | .srd j =>
    match s.srd[j]? with
    | none => none
    | some u => if u.regs.atRecord then firstRecord (availableBytes (u.src.take maxRecordLength)) else none

/-- The command words waiting on a block's channel. -/
def channel (a : Agent) (s : State) : List Nat :=
  match a with
  | .enc => s.encPort.cmds
  | .dec => s.decPort.cmds
  | .srd j => (s.srd[j]?.map fun u => u.port.cmds).getD []

/-- The state with a block's channel replaced. -/
def setChannel (a : Agent) (s : State) (cmds : List Nat) : State :=
  match a with
  | .enc => { s with encPort := { s.encPort with cmds := cmds } }
  | .dec => { s with decPort := { s.decPort with cmds := cmds } }
  | .srd j =>
    match s.srd[j]? with
    | none => s
    | some u => s.setSrd j { u with port := { u.port with cmds := cmds } }

/-- A block is idle, and so accepts a command (R237). -/
def acceptsCommand (a : Agent) (s : State) : Bool :=
  match a with
  | .enc => s.enc.st == .idle
  | .dec => s.dec.st == .idle
  | .srd j => (s.srd[j]?.map fun u => !u.regs.busy).getD false

/-- One FSM step of a block (R12). -/
def blockStep (a : Agent) (s : State) : BlockStep :=
  match a with
  | .enc => encStep s
  | .dec => decStep s
  | .srd j => srdStep j s

/-- The block a command is for (R85); none for a record. -/
def commandAgent : Instr → Option Agent
  | .zrun _ => none
  | .lrun _ _ => none
  | .sparse _ _ => none
  | .pack _ _ => some .enc
  | .unpack _ _ => some .dec
  | .sinit inst => some (.srd inst)
  | .sread inst _ => some (.srd inst)

/-- The agents of the unit in the order of R213. -/
def agents (s : State) : List Agent := .enc :: .dec :: (List.range s.srd.length).map .srd

/-- A block of the unit: an SRD number below `N_SRD`. -/
def agentExists (a : Agent) (s : State) : Bool :=
  match a with
  | .enc => true
  | .dec => true
  | .srd j => decide (j < s.srd.length)

end Sys2Proof.Machine
end

