-- ==== Sys2Proof/Machine/HostMoves.lean ====
section
/-! DEFINITION. What the host does to the machine (R233-R238 of 70_reset_and_hazards.md): it issues
commands, supplies tokens, accepts items, writes source bytes and asserts reset. -/

namespace Sys2Proof.Machine

open Sys2Proof

/-- The host issues a command: it waits on the channel of its block (R237), or is refused for an SRD
number at or above `N_SRD` (R85) or for bits that no command has (log 17). -/
def hostIssue (bits : Nat) (s : State) : Host.Outcome State Fault Refusal :=
  match decodeCommand s.params bits with
  | .error _ => .refused .notACommand
  | .ok i =>
    match commandAgent i with
    | none => .refused .notACommand
    | some a => if agentExists a s then .next (setChannel a s (channel a s ++ [bits])) else .refused .inst

/-- The source of an SRD makes a token available (R57). DESIGN CHOICE (log 21): a token once offered stays until it
is pulled, also across SINIT and reset; R233 does not say how a host clears the channel for a new source. -/
def hostToken (j : Nat) (t : Token) (s : State) : Host.Outcome State Fault Refusal :=
  match s.srd[j]? with
  | none => .refused .inst
  | some u => .next (s.setSrd j { u with src := u.src ++ [t] })

/-- The consumer of an output channel changes what it accepts (R56, R235). -/
def hostSink (a : Agent) (k : Sink) (s : State) : Host.Outcome State Fault Refusal :=
  match a with
  | .enc => .next { s with encPort := { s.encPort with sink := k } }
  | .dec => .next { s with decPort := { s.decPort with sink := k } }
  | .srd j =>
    match s.srd[j]? with
    | none => .refused .inst
    | some u => .next (s.setSrd j { u with port := { u.port with sink := k } })

/-- An address lies in a buffer. -/
def Buffer.contains (b : Buffer) (addr : Nat) : Bool := decide (b.base ≤ addr) && decide (addr < b.base + b.len)

/-- An address lies in the input of a block that is running a PACK or UNPACK. -/
def inputOfBlock (s : State) (addr : Nat) : Bool :=
  (s.enc.isBusy && decide (s.enc.base ≤ addr) && decide (addr < s.enc.base + 8 * s.enc.nw))
    || (s.dec.isBusy && decide (s.dec.base ≤ addr) && decide (addr < s.dec.base + s.dec.len))

/-- An address lies in the buffer of a PACK or UNPACK between its acceptance and its response or reset (R63):
the input of a running block, or the buffer of a PACK that raised F_ALIGN and gets no response (R205; log 11). -/
def inFlight (s : State) (addr : Nat) : Bool :=
  inputOfBlock s addr || s.faultBuffer.any fun b => b.contains addr

/-- The host writes a source byte: never into a buffer in flight (R63, R234). -/
def hostWrite (addr : Nat) (b : Byte) (s : State) : Host.Outcome State Fault Refusal :=
  if s.params.space ≤ addr then .fault (.outsideAddressSpace addr)
  else if inFlight s addr then .refused .hostWriteInFlight
  else .next { s with mem := s.mem.put addr b }

end Sys2Proof.Machine
end

