-- ==== Sys2Proof/Machine/Step.lean ====
section
/-! DEFINITION. The step of the machine: the next move, taken (R12, log 6). -/

namespace Sys2Proof.Machine

open Sys2Proof

/-- An idle block accepts the command at the head of its channel: it is decoded and executed (R237). -/
def acceptHead (a : Agent) (s : State) : Option (Host.Outcome State Fault Refusal) :=
  match channel a s with
  | [] => none
  | bits :: rest =>
    match decode s.params (.command bits) with
    | .error _ => some (.refused .notACommand)
    | .ok i => some (exec i (setChannel a s rest))

/-- The turn of a block: it accepts a command if it is idle and one waits, else it takes one FSM step.
None where it can do neither. -/
def blockTurn (a : Agent) (s : State) : Option (Host.Outcome State Fault Refusal) :=
  match if acceptsCommand a s then acceptHead a { s with turn := a } else none with
  | some o => some o
  | none =>
    match blockStep a { s with turn := a } with
    | .waits => none
    | .moves t => some (.next t)
    | .faults f => some (.fault f)

/-- The first block that can do something takes its turn; if none can, nothing changes (R215). -/
def firstTurn : List Agent → State → Host.Outcome State Fault Refusal
  | [], s => .next s
  | a :: as, s =>
    match blockTurn a s with
    | some o => o
    | none => firstTurn as s

/-- The turn of a named block; if it has no step it waits (R12). -/
def tickOutcome (a : Agent) (s : State) : Host.Outcome State Fault Refusal :=
  match blockTurn a s with
  | some o => o
  | none => .next s

/-- The consecutive steps of the whole record at a block's cursor: the record is fetched, decoded and
executed. Where no complete record stands there, the block takes its turn as in `tick`. -/
def recordOutcome (a : Agent) (s : State) : Host.Outcome State Fault Refusal :=
  match fetchRecord a s with
  | some i => exec i { s with turn := a }
  | none => tickOutcome a s

/-- One move. -/
def move (m : Move) (s : State) : Host.Outcome State Fault Refusal :=
  match m with
  | .tick a => tickOutcome a s
  | .record a => recordOutcome a s
  | .issue bits => hostIssue bits s
  | .token j t => hostToken j t s
  | .sink a k => hostSink a k s
  | .write addr b => hostWrite addr b s
  | .reset => .next s.unitReset

/-- One step: the next move of the schedule; with the schedule empty, the first block that can do
something, in the order of R213 (log 6). -/
def step (s : State) : Host.Outcome State Fault Refusal :=
  match s.sched with
  | [] => firstTurn (agents s) s
  | m :: rest => move m { s with sched := rest }

/-- The block whose channel a table word of a command goes to (R85). -/
def tableAgent (s : State) (w : Nat) : Agent :=
  match decodeCommand s.params w with
  | .error _ => .enc
  | .ok i => (commandAgent i).getD .enc

/-- The block made idle, so that it accepts a command (R237). -/
def State.makeIdle (s : State) : Agent → State
  | .enc => { s with enc := { s.enc with st := .idle } }
  | .dec => { s with dec := { s.dec with st := .idle } }
  | .srd j =>
    match s.srd[j]? with
    | none => s
    | some u => s.setSrd j { u with regs := { u.regs with busy := false } }

/-- The instruction of a table word placed where the next step fetches it (log 5): a command at the head
of its block's channel, a record as the input of DEC, with the next move that block's. -/
def State.withFetchWord (s : State) (nbits w : Nat) : State :=
  if tableWordIsCommand nbits w then
    let a := tableAgent s w
    let t := s.makeIdle a
    { setChannel a t (w :: channel a t) with sched := .tick a :: s.sched }
  else
    let bytes := tableRecordBytes w
    { s with mem := s.mem.putBytes 0 bytes
             dec := { s.dec with st := .tag, base := 0, len := bytes.length, pos := 0 }
             sched := .record .dec :: s.sched }

end Sys2Proof.Machine
end

