-- ==== Sys2Proof/Machine/Transactions.lean ====
section
/-! DEFINITION. Whole transactions of an SRD (R163, R178-R181 of 42_stream_decoder.md): an SREAD run to its
end, a series of SREADs, and the responses the rules expect of such a series. -/

namespace Sys2Proof.Machine

open Sys2Proof

/-- The most steps a transaction with request `k` takes (R180). -/
def workBound (k : Nat) : Nat := k + 10 * (k / 8 + 2) + 1

/-- The open transaction run as far as its tokens and its consumer let it, within the bound of R180. -/
def SrdUnit.complete (u : SrdUnit) : SrdUnit := srdUnitBurst (workBound u.regs.K) u

/-- A series of SREADs, each run to its end before the next is accepted. -/
def SrdUnit.reads (u : SrdUnit) (ks : List Nat) : SrdUnit := ks.foldl (fun v k => (v.read k).complete) u

/-- The responses to a series of SREADs when `left` bytes are still to come and the stream then ends with a
status: a buffer that fills answers `ST_OK`, any other answers the terminal status (R178, R181). -/
def expectedResponses (status : Status) (e : Option Config.ErrT) : Nat → List Nat → List Response
  | _, [] => []
  | left, k :: ks =>
    if k ≤ left then .sread k .ok none :: expectedResponses status e (left - k) ks
    else .sread left status e :: expectedResponses status e 0 ks

/-- The bytes SRD delivers over a packed input (R178, R179): those of the words DEC emits, then the raw
bytes of an incomplete literal word. -/
def streamBytes (p : List Byte) : List Byte := bytesOfWords (unpackBytes p).1 ++ truncationResidue p

/-- The terminal status of a packed input that ends with a given terminal token (R178, R179). -/
def streamStatus (p : List Byte) : Option Config.ErrT → Status
  | some _ => .io
  | none => if (unpackBytes p).2 = .ok then .eof else .trunc

/-- The terminal token: `Err(e)`, or `End` where there is no error. -/
def terminalToken : Option Config.ErrT → Token
  | some e => .err e
  | none => .eof

end Sys2Proof.Machine
end

