-- ==== Sys2Proof/Safety.lean ====
section
/-! DEFINITION. What a good state is: register ranges (R21, R23, R25), the state invariants of R28 and those
the ENC and DEC rules derive, and the canonical memory. -/

namespace Sys2Proof.Machine

open Sys2Proof

/-- ENC: its registers fit their widths, its buffer lies in the address space (R60), its cursors stay in the
input (R29), and its state's own ranges hold (R108, R112, R201). -/
structure EncInv (p : Params) (e : Enc) : Prop where
  base : e.base < p.space
  buffer : e.base + 8 * e.nw ≤ p.space
  nw : e.nw < 2 ^ (p.lw - 3)
  cur : e.cur ≤ e.nw
  scan : e.scan < 2 ^ (p.lw - 3)
  fault : e.fault = true ↔ e.st = .fault
  tagOut : e.st = .tagOut → e.T = tagGen e.W
  sparse : e.st = .sparse → e.T = tagGen e.W ∧ e.T ≠ 0x00#8 ∧ e.T ≠ 0xFF#8 ∧ e.k.toNat < popCount e.T
  lscan : e.st = .lscan → e.scan = e.cur + e.cnt.toNat ∧ e.scan ≤ e.nw
  lcopy : e.st = .lcopy → 1 ≤ e.cnt.toNat ∧ e.scan = e.cur + e.cnt.toNat ∧ e.scan ≤ e.nw

/-- DEC: its registers fit their widths, its buffer lies in the address space (R60), its cursor stays in the
input (R29), and its state's own ranges hold (R23, R134). -/
structure DecInv (p : Params) (d : Dec) : Prop where
  base : d.base < p.space
  buffer : d.base + d.len ≤ p.space
  len : d.len < 2 ^ p.lw
  pos : d.pos ≤ d.len
  last : d.last = .ok ∨ d.last = .trunc
  sparse : d.st = .sparse → d.T ≠ 0x00#8 ∧ d.T ≠ 0xFF#8 ∧ d.k.toNat < popCount d.T
  zemit : d.st = .zemit → 1 ≤ d.rem.toNat ∧ d.rem.toNat ≤ 256
  lraw : d.st = .lraw → 1 ≤ d.rem.toNat ∧ d.rem.toNat ≤ 255

/-- SRD: the table of R28, and the transaction registers (R25, R164). -/
structure SrdInv (p : Params) (r : Srd) : Prop where
  K : r.K < 2 ^ p.kw
  n : r.n ≤ r.K
  busy : r.busy = true → r.n < r.K ∧ r.isTerminal = false
  bytes : r.st = .bytes → 1 ≤ popCount r.T ∧ popCount r.T ≤ 7 ∧ r.idx.toNat < popCount r.T ∧
    ∀ j < 8, (∀ m < r.idx.toNat, pos r.T m ≠ j) → lane r.SCR j = 0
  emitZeros : r.st = .emitZeros → 1 ≤ r.rem.toNat ∧ r.rem.toNat ≤ 2048
  emitWord : r.st = .emitWord → r.rem.toNat % 8 = 0 ∧ r.rem.toNat ≤ 2040
  emitLiterals : r.st = .emitLiterals → 1 ≤ r.rem.toNat ∧ r.rem.toNat ≤ 2040
  done : r.st = .done → r.term = .eof
  error : r.st = .error → r.term = .trunc ∨ r.term = .io
  running : r.isTerminal = false → r.term = .unset
  errv : r.errv.isSome = true ↔ r.term = .io

/-- The invariant of the machine: every block's, as many SRD units as the parameters say, a canonical memory
inside the address space, and a buffer kept after F_ALIGN exactly while ENC is in `E_FAULT` (R201, R63). -/
structure State.Inv (s : State) : Prop where
  params : s.params.wf
  enc : EncInv s.params s.enc
  dec : DecInv s.params s.dec
  units : s.srd.length = s.params.nSrd
  srd : ∀ u ∈ s.srd, SrdInv s.params u.regs
  mem : Memory.wf s.mem = true
  fault : s.faultBuffer.isSome = true ↔ s.enc.st = .fault
  faultBuffer : ∀ b ∈ s.faultBuffer, b.base + b.len ≤ s.params.space
  addrs : ∀ c ∈ s.mem, c.1 < s.params.space

/-- Every byte of the running blocks' inputs is placed: the host's duty of R233. -/
def State.InputPlaced (s : State) : Prop := ∀ addr, inputOfBlock s addr = true → (s.mem.get addr).isSome = true

/-- The next move is a block's, not the host's. -/
def State.blockMoves (s : State) : Prop :=
  s.sched = [] ∨ (∃ a rest, s.sched = .tick a :: rest) ∨ ∃ a rest, s.sched = .record a :: rest

/-- The words `ws` stand in the source buffer from `base` upward (R52, R53). -/
def WordsAt (s : State) (base : Nat) (ws : List Word) : Prop :=
  ∀ i, ∀ h : i < ws.length, memReadWord s (base + 8 * i) = .ok ws[i]

/-- The bytes `bs` stand in the source buffer from `base` upward (R53). -/
def BytesAt (s : State) (base : Nat) (bs : List Byte) : Prop :=
  ∀ i, ∀ h : i < bs.length, memReadByte s (base + i) = .ok bs[i]

end Sys2Proof.Machine
end

