-- ==== Sys2Proof/Certificates/Slice0/Obligations.lean ====
section
/-! DEFINITION. The statements for the provers. Each formalises rules R<n> of spec/, named in its docstring;
a word "log <n>" names a row of the assumption log where the statement rests on a choice of the model. -/

open Sys2Proof Sys2Proof.Machine

/-! ### Reset and the state -/

/-- R36, R21, R23, R25: every register of the reset state has its stated value. -/
def Obligations.ResetRegistersAreZero : Prop :=
  State.reset.enc = { st := .idle, base := 0, nw := 0, cur := 0, scan := 0, W := 0, T := 0, k := 0, cnt := 0, fault := false } ∧
  State.reset.dec = { st := .idle, base := 0, len := 0, pos := 0, T := 0, W := 0, k := 0, rem := 0, last := .ok } ∧
  (∀ u ∈ State.reset.srd, u.regs = { st := .tag, T := 0, idx := 0, SCR := 0, rem := 0, term := .unset, errv := none, busy := false, K := 0, n := 0 }) ∧
  EncSt.code .idle = 0 ∧ DecSt.code .idle = 0 ∧ SrdSt.code .tag = 0 ∧ Status.code .ok = 0 ∧ Term.code .unset = 0

/-- The reset state, with the parameters of log 1 and the host's side of log 15, meets the invariant. -/
def Obligations.ResetMeetsInvariant : Prop := State.reset.Inv

/-- R28, with the ranges of R21, R23, R25 and R29: every step of the machine keeps the invariant. -/
def Obligations.StepKeepsInvariant : Prop :=
  ∀ s t : State, s.Inv → step s = .next t → t.Inv

/-- R230, R231, R237: reset sets every register to its reset value, sends no response, discards a PACK held
after a fault, leaves delivered items and responses as they are, and no command is in flight after it. That every
other held command is discarded too (a PACK behind a running ENC, and those of DEC and the SRDs), and that tokens,
memory, consumers and parameters stay, is the model's reading (log 16). -/
def Obligations.UnitResetSetsEveryRegister : Prop :=
  ∀ (s : State) (rest : List Move), s.sched = .reset :: rest →
    ∃ t, step s = .next t ∧ t.enc = Enc.reset ∧ t.dec = Dec.reset ∧ t.sched = rest ∧
      t.srd = s.srd.map (fun u => { regs := Srd.reset, src := u.src, port := { u.port with cmds := [] } }) ∧
      t.encPort = { s.encPort with cmds := [] } ∧ t.decPort = { s.decPort with cmds := [] } ∧
      t.mem = s.mem ∧ t.params = s.params ∧ t.faultBuffer = none

/-- R31: the fields of the status registers, for every value of the registers, and their reset values; with the
codes of the states and statuses that stand in them (R22, R24, R26, R86). -/
def Obligations.StatusRegisterFields : Prop :=
  (∀ e : Enc, (encStatus e).extractLsb' 0 4 = e.st.code ∧
    ((encStatus e).getLsbD 4 = true ↔ (e.st ≠ .idle ∧ e.st ≠ .fault)) ∧
    (encStatus e).getLsbD 5 = e.fault ∧ (encStatus e).extractLsb' 6 2 = 0) ∧
  (∀ d : Dec, (decStatus d).extractLsb' 0 4 = d.st.code ∧
    ((decStatus d).getLsbD 4 = true ↔ d.st ≠ .idle) ∧
    (decStatus d).extractLsb' 5 2 = d.last.code ∧ (decStatus d).getLsbD 7 = false) ∧
  (∀ r : Srd, (srdStatus r).extractLsb' 0 4 = r.st.code ∧ (srdStatus r).getLsbD 4 = r.busy ∧
    (srdStatus r).extractLsb' 5 2 = r.term.code ∧ (srdStatus r).getLsbD 7 = false ∧ srdErrv r = r.errv) ∧
  encStatus Enc.reset = 0 ∧ decStatus Dec.reset = 0 ∧ srdStatus Srd.reset = 0 ∧ srdErrv Srd.reset = none ∧
  [EncSt.idle, .fetch, .tagOut, .sparse, .zscan, .seed, .lscan, .lcopy, .fault].map EncSt.code =
    [0#4, 1#4, 2#4, 3#4, 4#4, 5#4, 6#4, 7#4, 8#4] ∧
  [DecSt.idle, .tag, .sparse, .zcount, .zemit, .seed, .lcount, .lraw].map DecSt.code =
    [0#4, 1#4, 2#4, 3#4, 4#4, 5#4, 6#4, 7#4] ∧
  [SrdSt.tag, .bytes, .zeroCount, .emitZeros, .litWord, .litCount, .emitWord, .emitLiterals, .done, .error].map SrdSt.code =
    [0#4, 1#4, 2#4, 3#4, 4#4, 5#4, 6#4, 7#4, 8#4, 9#4] ∧
  [Status.ok, .eof, .trunc, .io].map Status.code = [0#2, 1#2, 2#2, 3#2] ∧
  [Term.unset, .eof, .trunc, .io].map Term.code = [0#2, 1#2, 2#2, 3#2]

/-! ### Encodings -/

/-- R72-R75, R81: words written out from the record formats decode to their records; and the command words
of R85 in the layout of log 3 decode to their commands. -/
def Obligations.SampleWordsDecode : Prop :=
  decodeRecord [0x24#8, 0x0C#8, 0x22#8] = .ok (.sparse 0x24#8 [0x0C#8, 0x22#8], []) ∧
  decodeRecord [0x00#8, 0x02#8, 0xD4#8] = .ok (.zrun 0x02#8, [0xD4#8]) ∧
  decodeRecord [0xFF#8, 0x01#8, 0x03#8, 0x02#8, 0x04#8, 0x05#8, 0x07#8, 0x06#8, 0x08#8, 0x00#8] =
    .ok (.lrun 0x0806070504020301#64 [], []) ∧
  decodeRecord [0xFF#8, 0x01#8] = .error .truncated ∧
  decodeCommand Config.exampleParams 0xA00400 = .ok (.pack 0x0100 40) ∧
  decodeCommand Config.exampleParams 0x540801 = .ok (.unpack 0x0200 21) ∧
  decodeCommand Config.exampleParams 0x2 = .ok (.sinit 0) ∧
  decodeCommand Config.exampleParams 0x17 = .ok (.sread 0 5)

/-- Decode and encode agree on every well-formed instruction of both encodings (R73-R75, R85; the command
word is laid out as log 3 says). -/
def Obligations.DecodeOfEncode : Prop :=
  ∀ (p : Params) (i : Instr), i.wellFormed p = true → decode p (encode p i) = .ok i

/-- R70, R72-R75: a decoded record is well formed, and its encoding with the bytes left over is the text
it was read from: no byte is dropped and no second text has the same meaning. -/
def Obligations.RecordDecodingIsExact : Prop :=
  ∀ (p : Params) (bytes rest : List Byte) (i : Instr), decodeRecord bytes = .ok (i, rest) →
    i.wellFormed p = true ∧ encodeRecord i ++ rest = bytes

/-- R85: a decoded command word is the encoding of a well-formed command (log 3). -/
def Obligations.CommandDecodingIsExact : Prop :=
  ∀ (p : Params) (bits : Nat) (i : Instr), decodeCommand p bits = .ok i →
    i.wellFormed p = true ∧ encodeCommand p i = bits ∧ i.isRecord = false

/-! ### Datapath -/

/-- R71: bit `i` of a word's tag is set iff byte `i` is nonzero, with the rule's example. -/
def Obligations.TagMarksNonzeroBytes : Prop :=
  (∀ (w : Word) (i : Nat), i < 8 → ((tagGen w).getLsbD i = true ↔ lane w i ≠ 0)) ∧
  tagGen (wordOfBytes [0, 0, 0x0C#8, 0, 0, 0x22#8, 0, 0]) = 0x24#8

/-- R76: `PC` and `RANK` count set bits, `POS(t, m)` is the unique set bit of rank `m`, and `POS` ascends. -/
def Obligations.TagRomListsSetBits : Prop :=
  ∀ t : Byte,
    popCount t = ((List.range 8).filter fun i => t.getLsbD i).length ∧
    (∀ i, i ≤ 8 → rank t i = ((List.range i).filter fun j => t.getLsbD j).length) ∧
    (∀ m, m < popCount t → pos t m < 8 ∧ t.getLsbD (pos t m) = true ∧ rank t (pos t m) = m ∧
      ∀ i, i < 8 → t.getLsbD i = true → rank t i = m → i = pos t m) ∧
    (∀ m, m + 1 < popCount t → pos t m < pos t (m + 1))

/-- R79: `place` puts each literal byte at its set bit and zero elsewhere. It undoes `compact`: the spec marks
that sentence of R79, "`place(tag(w), compact(w)) = w` for every word `w`", as its own inference [derived]. -/
def Obligations.PlaceUndoesCompact : Prop :=
  (∀ (t : Byte) (bs : List Byte), bs.length = popCount t → ∀ i, i < 8 →
    lane (place t bs) i = if t.getLsbD i then bs.getD (rank t i) 0 else 0) ∧
  (∀ w : Word, place (tagGen w) (compact w) = w)

/-- R104: `ZERO` holds of the all-zero word alone, `LCONT` of the words with at most one zero byte. -/
def Obligations.RunDetectorsCountZeroBytes : Prop :=
  ∀ v : Word, (isZeroWord v = true ↔ v = 0) ∧
    (continuesLiteral v = true ↔ ((List.range 8).filter fun i => lane v i == 0).length ≤ 1)

/-! ### The codec's normative functions -/

/-- R115: `unpack` undoes `pack` on every unpacked stream of whole words. -/
def Obligations.UnpackUndoesPack : Prop :=
  ∀ u : List Byte, u.length % 8 = 0 → unpackBytes (packWords (wordsOfBytes u)) = (wordsOfBytes u, .ok)

/-- R116: the packed stream is at most 10/8 of the input, and it is canonical (R89). -/
def Obligations.PackedLengthBound : Prop :=
  ∀ u : List Byte, u.length % 8 = 0 →
    (packWords (wordsOfBytes u)).length ≤ 10 * u.length / 8 ∧ IsCanonical (packWords (wordsOfBytes u))

/-- R148, first sentence: a stream that decodes cleanly is reproduced by packing its words iff it is
canonical. -/
def Obligations.CanonicalIffRepacked : Prop :=
  ∀ (p : List Byte) (ws : List Word), unpackBytes p = (ws, .ok) → (packWords ws = p ↔ IsCanonical p)

/-- R84: each non-canonical form of the rule's table decodes with `ST_OK` to the words it says, and
repacking them gives a different stream. -/
def Obligations.NonCanonicalFormsDecode : Prop :=
  let a : List Byte := List.replicate 8 0x11#8
  let b : List Byte := List.replicate 8 0x22#8
  let z : List Byte := List.replicate 8 0x00#8
  ∀ c ∈ [([0x02#8, 0x00#8], [z]),
         ([0x00#8, 0x00#8, 0x00#8, 0x00#8], [z, z]),
         (0xFF#8 :: z ++ [0x00#8], [z]),
         (0xFF#8 :: a ++ 0x01#8 :: z, [a, z]),
         (0xFF#8 :: a ++ 0x00#8 :: 0xFF#8 :: b ++ [0x00#8], [a, b]),
         (0xFF#8 :: a ++ 0x00#8 :: 0x7F#8 :: [0x01#8, 0x02#8, 0x03#8, 0x04#8, 0x05#8, 0x06#8, 0x07#8],
           [a, [0x01#8, 0x02#8, 0x03#8, 0x04#8, 0x05#8, 0x06#8, 0x07#8, 0x00#8]])],
    unpackBytes c.1 = (c.2.map wordOfBytes, .ok) ∧ packWords (c.2.map wordOfBytes) ≠ c.1

/-! ### Memory -/

/-- R53: `MemRead` gives the `n` bytes at consecutive addresses, in address order, and it answers whenever all
these addresses lie in the space and are placed (log 10 for a byte that is not). -/
def Obligations.MemReadGivesBytesInOrder : Prop :=
  ∀ (s : State) (addr n : Nat),
    (∀ bs, memRead s addr n = .ok bs →
      bs.length = n ∧ ∀ i, i < n → addr + i < s.params.space ∧ s.mem.get (addr + i) = bs[i]?) ∧
    ((∀ i, i < n → addr + i < s.params.space ∧ (s.mem.get (addr + i)).isSome = true) →
      ∃ bs, memRead s addr n = .ok bs)

/-- R50: no move but a host write changes the source buffer, and no move at all the parameters (R8). -/
def Obligations.OnlyHostWritesChangeMemory : Prop :=
  ∀ s t : State, step s = .next t →
    t.params = s.params ∧ ((∀ addr b rest, s.sched ≠ .write addr b :: rest) → t.mem = s.mem)

/-- R63: a host write into a buffer in flight is refused; any other places its byte and changes nothing else.
Which bytes are in flight is read from registers while a block runs, and kept in `faultBuffer` after F_ALIGN: that
reading is the model's (log 11). -/
def Obligations.HostWritePlacesOneByte : Prop :=
  ∀ (s : State) (addr : Nat) (b : Byte) (rest : List Move), s.sched = .write addr b :: rest →
    addr < s.params.space → Memory.wf s.mem = true →
    (inFlight s addr = true → step s = .refused .hostWriteInFlight) ∧
    (inFlight s addr = false → ∃ t, step s = .next t ∧ t = { s with sched := rest, mem := t.mem } ∧
      Memory.wf t.mem = true ∧ t.mem.get addr = some b ∧ ∀ a, a ≠ addr → t.mem.get a = s.mem.get a)

/-- R53, last sentence: a block reads only inside the buffer of its command in flight, so a block's move
never faults while the host keeps those bytes placed (R233). -/
def Obligations.BlocksReadOnlyTheirBuffer : Prop :=
  ∀ s : State, s.Inv → s.InputPlaced → s.blockMoves → ∀ f, step s ≠ .fault f

/-! ### The step -/

/-- R237, R12: in its turn, an idle block whose channel holds a command takes it off the channel and executes it;
a block that is not idle, or whose channel is empty, takes one FSM step, and waits where it has none. That a tick of
the schedule is the block's turn, and that with no move scheduled some block that can do something takes its turn,
is the model's choice (log 6). -/
def Obligations.StepRunsHeldCommand : Prop :=
  (∀ (s : State) (a : Agent) (rest : List Move) (bits : Nat) (cmds : List Nat) (i : Instr),
    s.sched = .tick a :: rest → acceptsCommand a s = true → channel a s = bits :: cmds →
    decode s.params (.command bits) = .ok i → i.wellFormed s.params = true →
    step s = exec i (setChannel a { s with sched := rest, turn := a } cmds)) ∧
  (∀ (s : State) (a : Agent) (rest : List Move),
    s.sched = .tick a :: rest → (acceptsCommand a s = false ∨ channel a s = []) →
    step s = (blockStep a { s with sched := rest, turn := a }).outcome { s with sched := rest }) ∧
  (∀ s : State, s.sched = [] →
    (step s = .next s ∧ ∀ a ∈ agents s, blockTurn a s = none) ∨
    ∃ a ∈ agents s, (blockTurn a s).isSome = true ∧ step s = step { s with sched := [.tick a] })

/-- A record move executes the record that stands at the block's cursor, and is the block's turn where none stands
there (log 7). -/
def Obligations.StepRunsRecordAtCursor : Prop :=
  ∀ (s : State) (a : Agent) (rest : List Move), s.sched = .record a :: rest →
    (∀ i, fetchRecord a s = some i → i.wellFormed s.params = true →
      step s = exec i { s with sched := rest, turn := a }) ∧
    (fetchRecord a s = none → step s = step { s with sched := .tick a :: rest })

/-- R120-R122, R145-R147, R175-R177: executing the record at a block's cursor is exactly the run of that
block's FSM steps which the record's instruction rule counts (grouped as log 7 says). -/
def Obligations.RecordIsItsFsmSteps : Prop :=
  ∀ (s : State) (a : Agent) (i : Instr), s.Inv → s.turn = a → fetchRecord a s = some i →
    exec i s = (burst (blockStep a) (recordSteps a i) s).outcome s

/-- R62: a step of one block changes no other block's registers or channels, nor the memory, and steps of
different blocks commute. What a step does to its block depends on nothing but that block's registers and
channels, the parameters and the source buffer: in two states that agree on these it does the same. -/
def Obligations.BlocksAreIndependent : Prop :=
  (∀ s t, encStep s = .moves t → t = { s with enc := t.enc, encPort := t.encPort }) ∧
  (∀ s t, decStep s = .moves t → t = { s with dec := t.dec, decPort := t.decPort }) ∧
  (∀ j s t, srdStep j s = .moves t → t = { s with srd := t.srd } ∧ ∀ k, k ≠ j → t.srd[k]? = s.srd[k]?) ∧
  (∀ (a b : Agent) (s t u : State), a ≠ b → blockStep a s = .moves t → blockStep b s = .moves u →
    ∃ v, blockStep b t = .moves v ∧ blockStep a u = .moves v) ∧
  (∀ s s' : State, s'.enc = s.enc → s'.encPort = s.encPort → s'.params = s.params → s'.mem = s.mem →
    (encStep s = .waits ∧ encStep s' = .waits) ∨ (∃ f, encStep s = .faults f ∧ encStep s' = .faults f) ∨
    ∃ e p, encStep s = .moves { s with enc := e, encPort := p } ∧ encStep s' = .moves { s' with enc := e, encPort := p }) ∧
  (∀ s s' : State, s'.dec = s.dec → s'.decPort = s.decPort → s'.params = s.params → s'.mem = s.mem →
    (decStep s = .waits ∧ decStep s' = .waits) ∨ (∃ f, decStep s = .faults f ∧ decStep s' = .faults f) ∨
    ∃ d p, decStep s = .moves { s with dec := d, decPort := p } ∧ decStep s' = .moves { s' with dec := d, decPort := p }) ∧
  (∀ (s s' : State) (j : Nat) (u : SrdUnit), s.srd[j]? = some u → s'.srd[j]? = some u →
    (srdStep j s = .waits ∧ srdStep j s' = .waits) ∨
    ∃ v, srdStep j s = .moves { s with srd := s.srd.set j v } ∧ srdStep j s' = .moves { s' with srd := s'.srd.set j v })

/-- R12: one FSM step delivers at most one item and at most one response, and pulls at most one token. -/
def Obligations.OneItemPerStep : Prop :=
  (∀ s t, encStep s = .moves t → t.encPort.out.length ≤ s.encPort.out.length + 1 ∧
    t.encPort.resp.length ≤ s.encPort.resp.length + 1) ∧
  (∀ s t, decStep s = .moves t → t.decPort.out.length ≤ s.decPort.out.length + 1 ∧
    t.decPort.resp.length ≤ s.decPort.resp.length + 1) ∧
  (∀ u v, srdUnitStep u = some v → v.port.out.length ≤ u.port.out.length + 1 ∧
    v.port.resp.length ≤ u.port.resp.length + 1 ∧ (v.src = u.src ∨ v.src = u.src.drop 1))

/-- R12, R56, R235: a consumer that accepts nothing gets nothing: whatever the block does in a step, its output
is what it was; and in every state where the step emits, the block waits. In the states that read before they
emit, the byte or word is given to be readable and to be one that makes the step emit. -/
def Obligations.UnreadyConsumerBlocksOutput : Prop :=
  (∀ s t, s.encPort.sink.ready = false → encStep s = .moves t → t.encPort.out = s.encPort.out) ∧
  (∀ s t, s.decPort.sink.ready = false → decStep s = .moves t → t.decPort.out = s.decPort.out) ∧
  (∀ u v, u.port.sink.ready = false → srdUnitStep u = some v → v.port.out = u.port.out) ∧
  (∀ s, s.encPort.sink.ready = false →
    ((s.enc.st = .tagOut ∨ s.enc.st = .sparse ∨ s.enc.st = .seed) → encStep s = .waits) ∧
    (s.enc.st = .zscan → (s.enc.nw ≤ s.enc.cur ∨ s.enc.cnt = 255) → encStep s = .waits) ∧
    (∀ v, s.enc.st = .zscan → s.enc.cur < s.enc.nw → s.enc.cnt ≠ 255 →
      memReadWord s (s.enc.base + 8 * s.enc.cur) = .ok v → v ≠ 0 → encStep s = .waits) ∧
    (s.enc.st = .lscan → (s.enc.nw ≤ s.enc.scan ∨ s.enc.cnt = 255) → encStep s = .waits) ∧
    (∀ v, s.enc.st = .lscan → s.enc.scan < s.enc.nw → s.enc.cnt ≠ 255 →
      memReadWord s (s.enc.base + 8 * s.enc.scan) = .ok v → continuesLiteral v = false → encStep s = .waits) ∧
    (∀ b, s.enc.st = .lcopy → memReadByte s (s.enc.base + 8 * s.enc.cur + s.enc.k.toNat) = .ok b →
      encStep s = .waits)) ∧
  (∀ s, s.decPort.sink.ready = false →
    (s.dec.st = .zemit → decStep s = .waits) ∧
    (∀ b, s.dec.pos ≠ s.dec.len → memReadByte s (s.dec.base + s.dec.pos) = .ok b →
      (s.dec.st = .lcount ∨ (s.dec.st = .sparse ∧ s.dec.k.toNat + 1 = popCount s.dec.T) ∨
        (s.dec.st = .lraw ∧ s.dec.k = 7)) → decStep s = .waits)) ∧
  (∀ u : SrdUnit, u.port.sink.ready = false →
    (u.regs.st = .emitZeros ∨ u.regs.st = .emitWord ∨
      (u.regs.st = .emitLiterals ∧ ∃ b rest, u.src = .byte b :: rest)) → srdUnitStep u = none)

/-- R12, R164, R236: with no token available an SRD in a consuming state has no step, and its open transaction
stays open. -/
def Obligations.EmptySourceBlocksRead : Prop :=
  ∀ (s : State) (j : Nat) (u : SrdUnit), s.srd[j]? = some u → u.src = [] →
    (u.regs.st = .tag ∨ u.regs.st = .bytes ∨ u.regs.st = .zeroCount ∨ u.regs.st = .litWord ∨
      u.regs.st = .litCount ∨ u.regs.st = .emitLiterals) → srdStep j s = .waits

/-- R56: whatever move comes next, the items and responses delivered so far stay, in order. -/
def Obligations.DeliveredItemsStay : Prop :=
  ∀ s t : State, step s = .next t →
    s.encPort.out <+: t.encPort.out ∧ s.encPort.resp <+: t.encPort.resp ∧
    s.decPort.out <+: t.decPort.out ∧ s.decPort.resp <+: t.decPort.resp ∧
    ∀ (j : Nat) (u : SrdUnit), s.srd[j]? = some u → ∃ v, t.srd[j]? = some v ∧
      u.port.out <+: v.port.out ∧ u.port.resp <+: v.port.resp

/-! ### Commands -/

/-- R105: an idle ENC accepts a PACK of a buffer inside the address space with a length divisible by 8. -/
def Obligations.PackIsAccepted : Prop :=
  ∀ (s : State) (base len : Nat), s.enc.st = .idle → base + len ≤ 2 ^ s.params.aw → len % 8 = 0 →
    exec (.pack base len) s =
      .next { s with enc := { s.enc with base := base, nw := len / 8, cur := 0, st := .fetch } }

/-- R201: a misaligned PACK raises F_ALIGN, writing the fault flag and the state alone, and ENC_STATUS shows it;
ENC is then stuck and accepts no command, whatever moves come, until reset clears it. The field `faultBuffer` is the model's own, for the
host's duty of R63 (log 11). -/
def Obligations.MisalignedPackFaultsUntilReset : Prop :=
  (∀ (s : State) (base len : Nat), s.enc.st = .idle → base + len ≤ 2 ^ s.params.aw → len % 8 ≠ 0 →
    exec (.pack base len) s = .next { s with
      enc := { s.enc with fault := true, st := .fault }, faultBuffer := some { base := base, len := len } } ∧
    (encStatus { s.enc with fault := true, st := .fault }).getLsbD 5 = true) ∧
  (∀ s t : State, s.enc.st = .fault → (∀ rest, s.sched ≠ .reset :: rest) → step s = .next t →
    t.enc = s.enc ∧ t.faultBuffer = s.faultBuffer ∧ t.encPort.out = s.encPort.out ∧ t.encPort.resp = s.encPort.resp ∧
    s.encPort.cmds <+: t.encPort.cmds) ∧
  (∀ s t : State, (∃ rest, s.sched = .reset :: rest) → step s = .next t →
    t.enc.st = .idle ∧ t.enc.fault = false ∧ t.faultBuffer = none)

/-- R135: an idle DEC accepts an UNPACK of a buffer inside the address space, of any length. -/
def Obligations.UnpackIsAccepted : Prop :=
  ∀ (s : State) (base len : Nat), s.dec.st = .idle → base + len ≤ 2 ^ s.params.aw →
    exec (.unpack base len) s =
      .next { s with dec := { s.dec with base := base, len := len, pos := 0, st := .tag } }

/-- R60: an idle block refuses a PACK or UNPACK whose buffer does not fit the address space, aligned or not
(R207). -/
def Obligations.BufferOutsideSpaceIsRefused : Prop :=
  ∀ (s : State) (base len : Nat), base + len > 2 ^ s.params.aw →
    (s.enc.st = .idle → exec (.pack base len) s = .refused .range) ∧
    (s.dec.st = .idle → exec (.unpack base len) s = .refused .range)

/-- R161: SINIT on a unit that is not busy, in any FSM state, sets its registers as listed, responds
`ST_OK`, and changes nothing else. -/
def Obligations.SinitReinitialisesOneUnit : Prop :=
  ∀ (s : State) (j : Nat) (u : SrdUnit), s.srd[j]? = some u → u.regs.busy = false →
    exec (.sinit j) s = .next { s with
      srd := s.srd.set j
        { u with
          regs :=
            { st := .tag, T := 0, idx := 0, SCR := 0, rem := 0, term := .unset, errv := none, busy := false, K := 0, n := 0 }
          port := { u.port with resp := u.port.resp ++ [.sinit .ok] } } }

/-- R162: SREAD on a unit that is not busy answers the latched status in a terminal state, else `(0, ST_OK)`
for `K = 0`, else opens a transaction. -/
def Obligations.SreadAnswersOrOpens : Prop :=
  ∀ (s : State) (j k : Nat) (u : SrdUnit), s.srd[j]? = some u → u.regs.busy = false →
    ((u.regs.st = .done ∨ u.regs.st = .error) →
      exec (.sread j k) s = .next { s with
        srd := s.srd.set j
          { u with port := { u.port with resp := u.port.resp ++ [.sread 0 u.regs.term.status u.regs.errv] } } }) ∧
    (u.regs.st ≠ .done → u.regs.st ≠ .error → k = 0 →
      exec (.sread j k) s = .next { s with
        srd := s.srd.set j
          { u with port := { u.port with resp := u.port.resp ++ [.sread 0 .ok none] } } }) ∧
    (u.regs.st ≠ .done → u.regs.st ≠ .error → k ≠ 0 →
      exec (.sread j k) s = .next { s with
        srd := s.srd.set j
          { u with regs := { u.regs with K := k, n := 0, busy := true } } })

/-- R85, R207: a command for an SRD number at or above `N_SRD` is refused. -/
def Obligations.MissingSrdIsRefused : Prop :=
  ∀ (s : State) (j k : Nat), s.srd.length = s.params.nSrd → s.params.nSrd ≤ j →
    exec (.sinit j) s = .refused .inst ∧ exec (.sread j k) s = .refused .inst

/-- R85, R237: a command the host issues waits on the channel of the block it names, behind those there (its
word is laid out as log 3 says). -/
def Obligations.IssuedCommandWaitsOnItsChannel : Prop :=
  ∀ (s : State) (i : Instr) (a : Agent) (rest : List Move), i.wellFormed s.params = true →
    commandAgent i = some a → agentExists a s = true → s.sched = .issue (encodeCommand s.params i) :: rest →
    step s = .next (setChannel a { s with sched := rest } (channel a s ++ [encodeCommand s.params i]))

/-- R237: a command for a busy block (ENC in `E_FAULT` included) waits on its channel behind the others, and
nothing else changes (its word is laid out as log 3 says). -/
def Obligations.BusyBlocksHoldCommands : Prop :=
  ∀ s : State,
    (∀ base len, s.enc.st ≠ .idle → exec (.pack base len) s =
      .next { s with encPort := { s.encPort with cmds := s.encPort.cmds ++ [encodeCommand s.params (.pack base len)] } }) ∧
    (∀ base len, s.dec.st ≠ .idle → exec (.unpack base len) s =
      .next { s with decPort := { s.decPort with cmds := s.decPort.cmds ++ [encodeCommand s.params (.unpack base len)] } }) ∧
    (∀ j u, s.srd[j]? = some u → u.regs.busy = true → exec (.sinit j) s =
      .next { s with
        srd := s.srd.set j
          { u with port := { u.port with cmds := u.port.cmds ++ [encodeCommand s.params (.sinit j)] } } }) ∧
    (∀ j k u, s.srd[j]? = some u → u.regs.busy = true → exec (.sread j k) s =
      .next { s with
        srd := s.srd.set j
          { u with port := { u.port with cmds := u.port.cmds ++ [encodeCommand s.params (.sread j k)] } } })

/-! ### Records on ENC -/

/-- R120: ENC encodes a word with tag `01..FE` as its tag and its nonzero bytes. That `exec` takes the word from
the operands is the model's choice (log 8), here and in the other records on ENC and DEC. -/
def Obligations.EncSparseEmitsTagAndBytes : Prop :=
  ∀ (s : State) (w : Word), s.turn = .enc → s.enc.st = .fetch → s.enc.cur < s.enc.nw →
    tagGen w ≠ 0x00#8 → tagGen w ≠ 0xFF#8 → s.encPort.sink.readyFor (1 + popCount (tagGen w)) = true →
    exec (.sparse (tagGen w) (compact w)) s = .next { s with
      enc := { s.enc with W := w, T := tagGen w, k := BitVec.ofNat 3 (popCount (tagGen w) - 1),
                          cur := s.enc.cur + 1, st := .fetch }
      encPort := { s.encPort with out := s.encPort.out ++ tagGen w :: compact w,
                                  sink := s.encPort.sink.takeMany (1 + popCount (tagGen w)) } }

/-- R121: ENC encodes `n + 1` zero words as `00 n` where the run ends: at 256 words, at the end of the
input, or before a nonzero word (log 8). -/
def Obligations.EncZrunEmitsCount : Prop :=
  ∀ (s : State) (n : Byte), s.turn = .enc → s.enc.st = .fetch → s.enc.cur + (n.toNat + 1) ≤ s.enc.nw →
    (n = 0xFF#8 ∨ s.enc.cur + (n.toNat + 1) = s.enc.nw ∨
      ∃ v, memReadWord s (s.enc.base + 8 * (s.enc.cur + (n.toNat + 1))) = .ok v ∧ v ≠ 0) →
    s.encPort.sink.readyFor 2 = true →
    exec (.zrun n) s = .next { s with
      enc := { s.enc with W := 0, T := 0, cnt := n, cur := s.enc.cur + (n.toNat + 1), st := .fetch }
      encPort := { s.encPort with out := s.encPort.out ++ [0x00#8, n], sink := s.encPort.sink.takeMany 2 } }

/-- R122: ENC encodes a word with no zero byte and the `N` words after it, each with at most one zero byte,
as `FF`, the seed, `N` and the words verbatim, where the run ends: at 256 words, at the end of the input, or
before a word with more zero bytes (log 8). -/
def Obligations.EncLrunEmitsWordsVerbatim : Prop :=
  ∀ (s : State) (seed : Word) (raw : List Word), s.turn = .enc → s.enc.st = .fetch →
    tagGen seed = 0xFF#8 → (∀ v ∈ raw, continuesLiteral v = true) → raw.length ≤ 255 →
    s.enc.cur + (raw.length + 1) ≤ s.enc.nw →
    (raw.length = 255 ∨ s.enc.cur + (raw.length + 1) = s.enc.nw ∨
      ∃ v, memReadWord s (s.enc.base + 8 * (s.enc.cur + (raw.length + 1))) = .ok v ∧ continuesLiteral v = false) →
    s.encPort.sink.readyFor (10 + 8 * raw.length) = true →
    exec (.lrun seed raw) s = .next { s with
      enc := { s.enc with W := seed, T := 0xFF#8, k := 0, cnt := 0, scan := s.enc.cur + (raw.length + 1),
                          cur := s.enc.cur + (raw.length + 1), st := .fetch }
      encPort := { s.encPort with
        out := s.encPort.out ++ (0xFF#8 :: bytesOfWord seed ++ BitVec.ofNat 8 raw.length :: bytesOfWords raw)
        sink := s.encPort.sink.takeMany (10 + 8 * raw.length) } }

/-- R113: over the words of an accepted PACK, ENC's FSM emits exactly `pack(words)`, then responds `ST_OK`
and is idle again, for every consumer that accepts that many bytes. It does so within the `11·nw + 1` steps of
R117, and touches nothing else. -/
def Obligations.EncoderEmitsPack : Prop :=
  ∀ (s : State) (ws : List Word), s.enc.st = .fetch → s.enc.cur = 0 → s.enc.nw = ws.length →
    WordsAt s s.enc.base ws → s.encPort.sink.readyFor (packWords ws).length = true →
    ∃ t, burst encStep (11 * ws.length + 1) s = .moves t ∧ t = { s with enc := t.enc, encPort := t.encPort } ∧
      t.enc.st = .idle ∧ t.encPort = { s.encPort with out := s.encPort.out ++ packWords ws,
                                                      sink := s.encPort.sink.takeMany (packWords ws).length,
                                                      resp := s.encPort.resp ++ [.pack .ok] }

/-! ### Records on DEC -/

/-- R145: DEC decodes a SPARSE record to the word its literal bytes are placed in; if fewer than `PC(t)`
bytes remain the input is truncated, the bytes there are consumed, and nothing of the record is emitted (log 8). -/
def Obligations.DecSparseEmitsPlacedWord : Prop :=
  ∀ (s : State) (t : Byte) (lits : List Byte), s.turn = .dec → s.dec.st = .tag →
    t ≠ 0x00#8 → t ≠ 0xFF#8 → lits.length = popCount t → s.dec.pos < s.dec.len →
    (s.dec.pos + (1 + popCount t) ≤ s.dec.len → s.decPort.sink.readyFor 1 = true →
      exec (.sparse t lits) s = .next { s with
        dec := { s.dec with T := t, W := place t lits.dropLast, k := BitVec.ofNat 3 (popCount t - 1),
                            pos := s.dec.pos + (1 + popCount t), st := .tag }
        decPort := { s.decPort with out := s.decPort.out ++ [place t lits], sink := s.decPort.sink.takeMany 1 } }) ∧
    (s.dec.len < s.dec.pos + (1 + popCount t) →
      exec (.sparse t lits) s = .next { s with
        dec := { s.dec with T := t, W := place t (lits.take (s.dec.len - (s.dec.pos + 1))),
                            k := BitVec.ofNat 3 (s.dec.len - (s.dec.pos + 1)),
                            last := .trunc, pos := s.dec.len, st := .idle }
        decPort := { s.decPort with resp := s.decPort.resp ++ [.unpack .trunc] } })

/-- R146: DEC decodes a ZRUN record to `N + 1` zero words; if the count byte is missing the input is
truncated (log 8). -/
def Obligations.DecZrunEmitsZeroWords : Prop :=
  ∀ (s : State) (n : Byte), s.turn = .dec → s.dec.st = .tag → s.dec.pos < s.dec.len →
    (s.dec.pos + 2 ≤ s.dec.len → s.decPort.sink.readyFor (n.toNat + 1) = true →
      exec (.zrun n) s = .next { s with
        dec := { s.dec with T := 0, rem := 0, pos := s.dec.pos + 2, st := .tag }
        decPort := { s.decPort with out := s.decPort.out ++ List.replicate (n.toNat + 1) 0,
                                    sink := s.decPort.sink.takeMany (n.toNat + 1) } }) ∧
    (s.dec.len < s.dec.pos + 2 →
      exec (.zrun n) s = .next { s with
        dec := { s.dec with T := 0, last := .trunc, pos := s.dec.len, st := .idle }
        decPort := { s.decPort with resp := s.decPort.resp ++ [.unpack .trunc] } })

/-- R147: DEC decodes an LRUN record to its seed and its raw words; if the input ends in the seed or before
the count no word is emitted, and if it ends in the raw bytes the seed and the complete raw words are (log 8).
`W` keeps what `D_SEED` and `D_LRAW` left in it: the last byte of a raw word is emitted without being stored. -/
def Obligations.DecLrunEmitsSeedAndRawWords : Prop :=
  ∀ (s : State) (seed : Word) (raw : List Word), s.turn = .dec → s.dec.st = .tag → raw.length ≤ 255 →
    s.dec.pos < s.dec.len →
    (s.dec.pos + (10 + 8 * raw.length) ≤ s.dec.len → s.decPort.sink.readyFor (raw.length + 1) = true →
      exec (.lrun seed raw) s = .next { s with
        dec := { s.dec with T := 0xFF#8, W := setLane (raw.getLastD seed) 7 (lane seed 7), k := 0, rem := 0,
                            pos := s.dec.pos + (10 + 8 * raw.length), st := .tag }
        decPort := { s.decPort with out := s.decPort.out ++ seed :: raw,
                                    sink := s.decPort.sink.takeMany (raw.length + 1) } }) ∧
    (s.dec.len < s.dec.pos + 10 →
      exec (.lrun seed raw) s = .next { s with
        dec := { s.dec with T := 0xFF#8, W := wordOfBytes ((bytesOfWord seed).take (s.dec.len - (s.dec.pos + 1))),
                            k := BitVec.ofNat 3 (min (s.dec.len - (s.dec.pos + 1)) 7),
                            last := .trunc, pos := s.dec.len, st := .idle }
        decPort := { s.decPort with resp := s.decPort.resp ++ [.unpack .trunc] } }) ∧
    (∀ m r : Nat, s.dec.len = s.dec.pos + 10 + 8 * m + r → r < 8 → m < raw.length →
      s.decPort.sink.readyFor (m + 1) = true →
      exec (.lrun seed raw) s = .next { s with
        dec := { s.dec with
          T := 0xFF#8
          W := wordOfBytes ((bytesOfWord (raw.getD m seed)).take r ++
            (bytesOfWord (setLane ((raw.take m).getLastD seed) 7 (lane seed 7))).drop r)
          k := BitVec.ofNat 3 r, rem := BitVec.ofNat 9 (raw.length - m)
          last := .trunc, pos := s.dec.len, st := .idle }
        decPort := { s.decPort with out := s.decPort.out ++ seed :: raw.take m,
                                    sink := s.decPort.sink.takeMany (m + 1),
                                    resp := s.decPort.resp ++ [.unpack .trunc] } })

/-- R143: with the input exhausted in a state that still needs a byte, DEC responds `ST_TRUNC`, latches it
and returns to `D_IDLE`; nothing is emitted. -/
def Obligations.ExhaustedInputTruncates : Prop :=
  ∀ s : State, s.dec.pos = s.dec.len →
    (s.dec.st = .sparse ∨ s.dec.st = .zcount ∨ s.dec.st = .seed ∨ s.dec.st = .lcount ∨ s.dec.st = .lraw) →
    decStep s = .moves { s with
      dec := { s.dec with last := .trunc, st := .idle }
      decPort := { s.decPort with resp := s.decPort.resp ++ [.unpack .trunc] } }

/-- R144: with the input exhausted in `D_TAG`, DEC responds `ST_OK`, latches it and returns to `D_IDLE`. -/
def Obligations.ExhaustedInputAtTagCompletes : Prop :=
  ∀ s : State, s.dec.pos = s.dec.len → s.dec.st = .tag →
    decStep s = .moves { s with
      dec := { s.dec with last := .ok, st := .idle }
      decPort := { s.decPort with resp := s.decPort.resp ++ [.unpack .ok] } }

/-- R150: over the bytes of an accepted UNPACK, DEC's FSM emits exactly the words of `unpack(p)` and responds
with its status, complete or truncated, for every consumer that accepts that many words. It does so within the
`len + nw + 1` steps of R151, and touches nothing else. -/
def Obligations.DecoderEmitsUnpack : Prop :=
  ∀ (s : State) (p : List Byte), s.dec.st = .tag → s.dec.pos = 0 → s.dec.len = p.length →
    BytesAt s s.dec.base p → s.decPort.sink.readyFor (unpackBytes p).1.length = true →
    ∃ t, burst decStep (p.length + (unpackBytes p).1.length + 1) s = .moves t ∧
      t = { s with dec := t.dec, decPort := t.decPort } ∧ t.dec.st = .idle ∧ t.dec.last = (unpackBytes p).2 ∧
      t.decPort = { s.decPort with out := s.decPort.out ++ (unpackBytes p).1,
                                   sink := s.decPort.sink.takeMany (unpackBytes p).1.length,
                                   resp := s.decPort.resp ++ [.unpack (unpackBytes p).2] }

/-! ### Records on SRD -/

/-- R175: SRD decodes a SPARSE record to the 8 bytes of the word its literal bytes are placed in, where the
caller's buffer has room for them; a buffer they fill ends the transaction. -/
def Obligations.SrdSparseDeliversPlacedWord : Prop :=
  ∀ (s : State) (j : Nat) (u : SrdUnit) (t : Byte) (lits : List Byte) (rest : List Token),
    s.turn = .srd j → s.srd[j]? = some u → u.regs.st = .tag → u.regs.busy = true →
    t ≠ 0x00#8 → t ≠ 0xFF#8 → lits.length = popCount t →
    u.src = (t :: lits).map Token.byte ++ rest → u.regs.n + 8 ≤ u.regs.K → u.port.sink.readyFor 8 = true →
    exec (.sparse t lits) s = .next { s with
      srd := s.srd.set j
        { regs :=
            { u.regs with
              T := t, SCR := place t lits, idx := 0, rem := 0, st := .tag, n := u.regs.n + 8
              busy := decide (u.regs.n + 8 ≠ u.regs.K) }
          src := rest
          port := { u.port with
            out := u.port.out ++ bytesOfWord (place t lits), sink := u.port.sink.takeMany 8
            resp := u.port.resp ++ if u.regs.n + 8 = u.regs.K then [.sread u.regs.K .ok none] else [] } } }

/-- R176: SRD decodes a ZRUN record to `8·(N + 1)` zero bytes, where the caller's buffer has room for them;
a buffer they fill ends the transaction. -/
def Obligations.SrdZrunDeliversZeroBytes : Prop :=
  ∀ (s : State) (j : Nat) (u : SrdUnit) (n : Byte) (rest : List Token),
    s.turn = .srd j → s.srd[j]? = some u → u.regs.st = .tag → u.regs.busy = true →
    u.src = [.byte 0x00#8, .byte n] ++ rest → u.regs.n + 8 * (n.toNat + 1) ≤ u.regs.K →
    u.port.sink.readyFor (8 * (n.toNat + 1)) = true →
    exec (.zrun n) s = .next { s with
      srd := s.srd.set j
        { regs :=
            { u.regs with
              rem := 0, st := .tag, n := u.regs.n + 8 * (n.toNat + 1)
              busy := decide (u.regs.n + 8 * (n.toNat + 1) ≠ u.regs.K) }
          src := rest
          port := { u.port with
            out := u.port.out ++ List.replicate (8 * (n.toNat + 1)) 0
            sink := u.port.sink.takeMany (8 * (n.toNat + 1))
            resp := u.port.resp ++
            if u.regs.n + 8 * (n.toNat + 1) = u.regs.K then [.sread u.regs.K .ok none] else [] } } }

/-- R169, R176: a ZRUN longer than the room in the caller's buffer fills it, ends the transaction with
`ST_OK`, and keeps the rest pending in `S_EMIT_ZEROS`. -/
def Obligations.SrdZrunSuspendsInMidRun : Prop :=
  ∀ (s : State) (j : Nat) (u : SrdUnit) (n : Byte) (rest : List Token),
    s.turn = .srd j → s.srd[j]? = some u → u.regs.st = .tag → u.regs.busy = true →
    u.src = [.byte 0x00#8, .byte n] ++ rest → u.regs.n < u.regs.K →
    u.regs.K < u.regs.n + 8 * (n.toNat + 1) → u.port.sink.readyFor (u.regs.K - u.regs.n) = true →
    exec (.zrun n) s = .next { s with
      srd := s.srd.set j
        { regs :=
            { u.regs with
              rem := BitVec.ofNat 12 (u.regs.n + 8 * (n.toNat + 1) - u.regs.K)
              st := .emitZeros, n := u.regs.K, busy := false }
          src := rest
          port := { u.port with
            out := u.port.out ++ List.replicate (u.regs.K - u.regs.n) 0
            sink := u.port.sink.takeMany (u.regs.K - u.regs.n)
            resp := u.port.resp ++ [.sread u.regs.K .ok none] } } }

/-- R177: SRD decodes an LRUN record to the bytes of its seed and its raw words, where the caller's buffer
has room for them; a buffer they fill ends the transaction. -/
def Obligations.SrdLrunDeliversSeedAndRawBytes : Prop :=
  ∀ (s : State) (j : Nat) (u : SrdUnit) (seed : Word) (raw : List Word) (rest : List Token),
    s.turn = .srd j → s.srd[j]? = some u → u.regs.st = .tag → u.regs.busy = true → raw.length ≤ 255 →
    u.src = (0xFF#8 :: bytesOfWord seed ++ BitVec.ofNat 8 raw.length :: bytesOfWords raw).map Token.byte ++ rest →
    u.regs.n + 8 * (raw.length + 1) ≤ u.regs.K → u.port.sink.readyFor (8 * (raw.length + 1)) = true →
    exec (.lrun seed raw) s = .next { s with
      srd := s.srd.set j
        { regs :=
            { u.regs with
              SCR := seed, idx := 0, rem := 0, st := .tag, n := u.regs.n + 8 * (raw.length + 1)
              busy := decide (u.regs.n + 8 * (raw.length + 1) ≠ u.regs.K) }
          src := rest
          port := { u.port with
            out := u.port.out ++ bytesOfWords (seed :: raw), sink := u.port.sink.takeMany (8 * (raw.length + 1))
            resp := u.port.resp ++
            if u.regs.n + 8 * (raw.length + 1) = u.regs.K then [.sread u.regs.K .ok none] else [] } } }

/-- R203: `End` in a consuming state other than `S_TAG` latches `TRUNC`, the open transaction responds with
the bytes delivered, and every later SREAD answers `(0, ST_TRUNC)`. -/
def Obligations.EndInsideRecordTruncatesStream : Prop :=
  ∀ (u : SrdUnit) (rest : List Token), u.regs.busy = true → u.regs.errv = none → u.src = .eof :: rest →
    (u.regs.st = .bytes ∨ u.regs.st = .zeroCount ∨ u.regs.st = .litWord ∨ u.regs.st = .litCount ∨
      u.regs.st = .emitLiterals) →
    ∃ v, srdUnitStep u = some v ∧
      v = { regs := { u.regs with term := .trunc, st := .error, busy := false }, src := rest,
            port := { u.port with resp := u.port.resp ++ [.sread u.regs.n .trunc none] } } ∧
      ∀ ks : List Nat, v.reads ks =
        { v with port := { v.port with resp := v.port.resp ++ ks.map fun _ => .sread 0 .trunc none } }

/-- R204: `Err(e)` in any consuming state latches `IO` and `e`, the open transaction responds with the bytes
delivered and `e` unchanged, and every later SREAD answers `(0, ST_IO, e)`. -/
def Obligations.SourceErrorIsReportedVerbatim : Prop :=
  ∀ (u : SrdUnit) (e : Config.ErrT) (rest : List Token), u.regs.busy = true → u.src = .err e :: rest →
    (u.regs.st = .tag ∨ u.regs.st = .bytes ∨ u.regs.st = .zeroCount ∨ u.regs.st = .litWord ∨
      u.regs.st = .litCount ∨ u.regs.st = .emitLiterals) →
    ∃ v, srdUnitStep u = some v ∧
      v = { regs := { u.regs with term := .io, errv := some e, st := .error, busy := false }, src := rest,
            port := { u.port with resp := u.port.resp ++ [.sread u.regs.n .io (some e)] } } ∧
      ∀ ks : List Nat, v.reads ks =
        { v with port := { v.port with resp := v.port.resp ++ ks.map fun _ => .sread 0 .io (some e) } }

/-- R174, R182: a step leaves the registers of an SRD in a terminal state as they are, unless it is reset or
accepts a SINIT for that SRD, which takes the command off its channel, sets the reset values and responds; and no
step pulls a token. -/
def Obligations.TerminalStateIsLeftOnlyByInit : Prop :=
  ∀ (s t : State) (j : Nat) (u : SrdUnit), s.srd[j]? = some u → u.regs.isTerminal = true →
    u.regs.busy = false → step s = .next t →
    ∃ v, t.srd[j]? = some v ∧ u.src <+: v.src ∧
      (v.regs = u.regs ∨
       (v.regs = Srd.reset ∧ ∃ rest, s.sched = .reset :: rest) ∨
       (v.regs = Srd.reset ∧ v.port.resp = u.port.resp ++ [.sinit .ok] ∧
        ∃ a bits cmds, (s.sched = [] ∨ ∃ rest, s.sched = .tick a :: rest ∨ s.sched = .record a :: rest) ∧
          acceptsCommand a s = true ∧ channel a s = bits :: cmds ∧
          decode s.params (.command bits) = .ok (.sinit j) ∧ channel a t = cmds))

/-- R180: whatever the tokens, a transaction with request `K` has no step left after
`K + 10·(⌊K/8⌋ + 2) + 1` steps, and has pulled at most that many tokens. -/
def Obligations.SreadWorkIsBounded : Prop :=
  ∀ (p : Params) (u : SrdUnit), SrdInv p u.regs → u.regs.busy = true → u.regs.n = 0 →
    srdUnitStep (srdUnitBurst (u.regs.K + 10 * (u.regs.K / 8 + 2) + 1) u) = none ∧
    u.src.length ≤ (srdUnitBurst (u.regs.K + 10 * (u.regs.K / 8 + 2) + 1) u).src.length
      + (u.regs.K + 10 * (u.regs.K / 8 + 2) + 1)

/-- R178, R179: after SINIT, over a source that delivers `p` and then `End` or an error, any series of SREADs
of any sizes from 1 up delivers the bytes of `unpack(p)`'s words, with the raw bytes of an incomplete literal
word after them; each SREAD fills its buffer and answers `ST_OK`, or answers the terminal status. -/
def Obligations.StreamDeliversUnpack : Prop :=
  ∀ (u : SrdUnit) (p : List Byte) (err : Option Config.ErrT) (after : List Token) (ks : List Nat),
    u.regs = Srd.reset → u.src = p.map Token.byte ++ terminalToken err :: after → u.port.sink = .always →
    (∀ k ∈ ks, 1 ≤ k) →
    (u.reads ks).port = { u.port with
      out := u.port.out ++ (streamBytes p).take ks.sum
      resp := u.port.resp ++ expectedResponses (streamStatus p err) err (streamBytes p).length ks }

/-- R181: whatever the source delivers, a series of SREADs of any sizes from 1 up delivers the bytes, and pulls
the tokens, that one SREAD of the summed size does. -/
def Obligations.DeliveryIsPartitionIndependent : Prop :=
  ∀ (p : Params) (u : SrdUnit) (ks : List Nat), SrdInv p u.regs → u.regs.busy = false → u.port.sink = .always →
    (∀ k ∈ ks, 1 ≤ k) →
    (u.reads ks).port.out = (u.reads [ks.sum]).port.out ∧ (u.reads ks).src = (u.reads [ks.sum]).src

/-! ### What the host does to the channels -/

/-- R57: a token the source of an SRD makes available stands behind those already there, on that SRD's channel
alone, and nothing else changes. -/
def Obligations.HostTokenAppendsOneToken : Prop :=
  ∀ (s : State) (j : Nat) (tok : Token) (u : SrdUnit) (rest : List Move), s.sched = .token j tok :: rest →
    s.srd[j]? = some u →
    ∃ t, step s = .next t ∧ t = { s with sched := rest, srd := t.srd } ∧ t.srd.length = s.srd.length ∧
      t.srd[j]? = some { u with src := u.src ++ [tok] } ∧ ∀ k, k ≠ j → t.srd[k]? = s.srd[k]?

/-- R56, R235: the consumer of a block's output channel can change what it accepts; its channel's items, responses
and commands, every register, and every other block stay. The forms of a consumer are the model's choice (log 15). -/
def Obligations.HostSinkChangesConsumerAlone : Prop :=
  ∀ (s : State) (k : Sink) (rest : List Move),
    (s.sched = .sink .enc k :: rest →
      step s = .next { s with sched := rest, encPort := { s.encPort with sink := k } }) ∧
    (s.sched = .sink .dec k :: rest →
      step s = .next { s with sched := rest, decPort := { s.decPort with sink := k } }) ∧
    (∀ j u, s.sched = .sink (.srd j) k :: rest → s.srd[j]? = some u →
      ∃ t, step s = .next t ∧ t = { s with sched := rest, srd := t.srd } ∧ t.srd.length = s.srd.length ∧
        t.srd[j]? = some { u with port := { u.port with sink := k } } ∧ ∀ i, i ≠ j → t.srd[i]? = s.srd[i]?)
end

