-- ==== Sys2Proof/Laws/Lanes.lean ====
section
/-! SUPPORT. Byte lanes: lengths, and a word is its eight bytes. -/

namespace Sys2Proof.Machine

open Sys2Proof

@[simp] theorem length_bytesOfWord (w : Word) : (bytesOfWord w).length = 8 := by simp [bytesOfWord]

@[simp] theorem bytesOfWords_nil : bytesOfWords [] = [] := rfl

@[simp] theorem bytesOfWords_cons (w : Word) (ws : List Word) :
    bytesOfWords (w :: ws) = bytesOfWord w ++ bytesOfWords ws := by simp [bytesOfWords]

@[simp] theorem length_bytesOfWords (ws : List Word) : (bytesOfWords ws).length = 8 * ws.length := by
  induction ws with
  | nil => rfl
  | cons w ws ih => simp [ih]; omega

/-- The bits of a lane are the word's (R9). -/
theorem getLsbD_lane (w : Word) (i j : Nat) : (lane w i).getLsbD j = (decide (j < 8) && w.getLsbD (8 * i + j)) := by
  simp [lane]

/-- A word is determined by its eight lanes. -/
theorem word_ext_lanes (v w : Word) (h : ∀ i < 8, lane v i = lane w i) : v = w := by
  apply BitVec.eq_of_getLsbD_eq
  intro n hn
  have hl := congrArg (fun b => b.getLsbD (n % 8)) (h (n / 8) (by omega))
  simp only [getLsbD_lane] at hl
  have hm : n % 8 < 8 := Nat.mod_lt _ (by omega)
  simpa [hm, Nat.div_add_mod] using hl

/-- The bits of a byte put in front of a list of bytes. -/
theorem getLsbD_wordOfBytes_cons (b : Byte) (bs : List Byte) (n : Nat) (hn : n < 64) :
    (wordOfBytes (b :: bs)).getLsbD n = if n < 8 then b.getLsbD n else (wordOfBytes bs).getLsbD (n - 8) := by
  by_cases h : n < 8
  · simp [wordOfBytes, h, hn]
  · have hb : b.getLsbD n = false := BitVec.getLsbD_of_ge b n (by omega)
    simp only [wordOfBytes, BitVec.getLsbD_or, BitVec.getLsbD_shiftLeft, BitVec.getLsbD_setWidth, hb, h, hn]
    simp

/-- Lane `i` of a list of bytes is its byte `i`, and 0 beyond its end (R52). -/
theorem lane_wordOfBytes : ∀ (bs : List Byte) (i : Nat), i < 8 → lane (wordOfBytes bs) i = bs.getD i 0
  | [], i, _ => by simp [wordOfBytes, lane]
  | b :: bs, 0, _ => by
    apply BitVec.eq_of_getLsbD_eq
    intro n hn
    rw [getLsbD_lane, getLsbD_wordOfBytes_cons _ _ _ (by omega)]
    simp [hn]
  | b :: bs, i + 1, hi => by
    have ih := lane_wordOfBytes bs i (by omega)
    apply BitVec.eq_of_getLsbD_eq
    intro n hn
    have hb := congrArg (fun x => x.getLsbD n) ih
    simp only [getLsbD_lane] at hb
    rw [getLsbD_lane, getLsbD_wordOfBytes_cons _ _ _ (by omega)]
    have h8 : ¬ 8 * (i + 1) + n < 8 := by omega
    have hs : 8 * (i + 1) + n - 8 = 8 * i + n := by omega
    simp only [h8, if_false, hs]
    simpa using hb

/-- The bytes of a word make the word again. -/
@[simp] theorem wordOfBytes_bytesOfWord (w : Word) : wordOfBytes (bytesOfWord w) = w := by
  apply word_ext_lanes
  intro i hi
  rw [lane_wordOfBytes _ _ hi]
  simp [bytesOfWord, hi]

/-- Eight bytes are the bytes of their word. -/
theorem bytesOfWord_wordOfBytes (bs : List Byte) (h : bs.length = 8) : bytesOfWord (wordOfBytes bs) = bs := by
  apply List.ext_getElem
  · simp [h]
  · intro i h1 h2
    simp only [bytesOfWord, List.getElem_map, List.getElem_range]
    rw [lane_wordOfBytes _ _ (by omega)]
    simp [h2]

end Sys2Proof.Machine
end

