-- ==== Sys2Proof/Laws/Memory.lean ====
section
/-! SUPPORT. The source-buffer memory: read after write, and every write keeps the canonical form. -/

namespace Sys2Proof.Machine

open Sys2Proof

@[simp] theorem Memory.get_nil (a : Nat) : Memory.get [] a = none := rfl

theorem Memory.get_cons (k : Nat) (v : Byte) (m : Memory) (a : Nat) :
    Memory.get ((k, v) :: m) a = if k = a then some v else Memory.get m a := rfl

/-- Reading the address just written gives the byte written. -/
@[simp] theorem Memory.get_put_same (m : Memory) (a : Nat) (b : Byte) : (m.put a b).get a = some b := by
  induction m with
  | nil => simp [Memory.put, Memory.get_cons]
  | cons c m ih =>
    obtain ⟨k, v⟩ := c
    simp only [Memory.put]
    split
    · simp [Memory.get_cons]
    · split
      · simp [Memory.get_cons]
      · rename_i h
        simp [Memory.get_cons, Ne.symm h, ih]

/-- A write leaves every other address alone. -/
theorem Memory.get_put_other (m : Memory) (a a' : Nat) (b : Byte) (h : a' ≠ a) :
    (m.put a b).get a' = m.get a' := by
  induction m with
  | nil => simp [Memory.put, Memory.get_cons, Ne.symm h]
  | cons c m ih =>
    obtain ⟨k, v⟩ := c
    simp only [Memory.put]
    split
    · simp [Memory.get_cons, Ne.symm h]
    · split
      · rename_i hk
        subst hk
        simp [Memory.get_cons, Ne.symm h]
      · simp [Memory.get_cons, ih]

/-- Addresses of a canonical memory rise from its head. -/
theorem Memory.wf_cons_iff (a : Nat) (v : Byte) (m : Memory) :
    Memory.wf ((a, v) :: m) = true ↔ (∀ c ∈ m.head?, a < c.1) ∧ Memory.wf m = true := by
  cases m with
  | nil => simp [Memory.wf]
  | cons c m => obtain ⟨k, w⟩ := c; simp [Memory.wf]

theorem Memory.head_put (m : Memory) (a : Nat) (b : Byte) :
    ∀ c ∈ (m.put a b).head?, c.1 = a ∨ ∃ c' ∈ m.head?, c'.1 = c.1 ∧ ¬ a < c'.1 := by
  cases m with
  | nil => simp [Memory.put]
  | cons c m =>
    obtain ⟨k, v⟩ := c
    simp only [Memory.put]
    split
    · simp
    · split
      · simp
      · rename_i h _; simp; omega

/-- A write keeps the canonical form. -/
theorem Memory.put_wf (m : Memory) (a : Nat) (b : Byte) (h : Memory.wf m = true) :
    Memory.wf (m.put a b) = true := by
  induction m with
  | nil => rfl
  | cons c m ih =>
    obtain ⟨k, v⟩ := c
    rw [Memory.wf_cons_iff] at h
    simp only [Memory.put]
    split
    · rename_i hlt
      rw [Memory.wf_cons_iff]
      refine ⟨by simpa using hlt, ?_⟩
      rw [Memory.wf_cons_iff]
      exact h
    · split
      · rename_i hk
        subst hk
        rw [Memory.wf_cons_iff]
        exact h
      · rw [Memory.wf_cons_iff]
        refine ⟨?_, ih h.2⟩
        intro c hc
        rcases Memory.head_put m a b c hc with hca | ⟨c', hc', heq, _⟩
        · omega
        · rw [← heq]; exact h.1 c' hc'

/-- Writing consecutive bytes keeps the canonical form. -/
theorem Memory.putBytes_wf (bs : List Byte) : ∀ (m : Memory) (a : Nat), Memory.wf m = true →
    Memory.wf (m.putBytes a bs) = true := by
  induction bs with
  | nil => exact fun _ _ h => h
  | cons b bs ih => exact fun m a h => ih _ _ (Memory.put_wf m a b h)

/-- The memory after reset has the canonical form. -/
theorem State.reset_mem_wf : Memory.wf State.reset.mem = true := rfl

/-- Reads depend on the parameters and the memory alone. -/
theorem memRead_congr (s t : State) (hp : t.params = s.params) (hm : t.mem = s.mem) :
    ∀ n a, memRead t a n = memRead s a n := by
  intro n
  induction n with
  | zero => intro a; simp [memRead]
  | succ n ih => intro a; simp [memRead, hp, hm, ih]

end Sys2Proof.Machine
end

