-- ==== Sys2Proof/Laws/Ops.lean ====
section
/-! SUPPORT. What each shared operation can do, said once: delivering an item, committing a step's effect,
a block's step, a burst of steps, acceptance of a command. -/

namespace Sys2Proof.Machine

open Sys2Proof

/-! ### Channels -/

/-- An item is delivered exactly when the consumer accepts it, and it goes to the end of the channel. -/
theorem Port.emit_eq_some {α : Type} (p q : Port α) (a : α) :
    p.emit a = some q ↔ p.sink.ready = true ∧ q = { p with out := p.out ++ [a], sink := p.sink.take } := by
  unfold Port.emit
  split
  · rename_i h
    exact ⟨fun e => ⟨h, (Option.some.inj e).symm⟩, fun e => by rw [e.2]⟩
  · rename_i h
    constructor
    · intro e
      cases e
    · exact fun e => absurd e.1 h

/-- A commit delivers the item, if there is one, and then the response, if there is one. -/
theorem Port.commit_eq_some {α : Type} (p q : Port α) (item : Option α) (resp : Option Response)
    (h : p.commit item resp = some q) :
    q.cmds = p.cmds ∧ q.out = p.out ++ item.toList ∧ q.resp = p.resp ++ resp.toList ∧
    (item.isSome = true → p.sink.ready = true) ∧ q.sink = if item.isSome then p.sink.take else p.sink := by
  cases item with
  | none =>
    cases resp
    · cases Option.some.inj h
      simp
    · cases Option.some.inj h
      simp [Port.respond]
  | some a =>
    by_cases hr : p.sink.ready = true
    · simp only [Port.commit, Port.emit, if_pos hr] at h
      cases resp
      · cases Option.some.inj h
        simp [hr]
      · cases Option.some.inj h
        simp [hr, Port.respond]
    · simp only [Port.commit, Port.emit, if_neg hr] at h
      cases resp <;> cases h

/-- With nothing to deliver a commit never waits. -/
theorem Port.commit_none {α : Type} (p : Port α) (resp : Option Response) :
    p.commit none resp = some { p with resp := p.resp ++ resp.toList } := by
  cases resp <;> simp [Port.commit, Port.respond]

/-- With a consumer that accepts, a commit delivers the item. -/
theorem Port.commit_some {α : Type} (p : Port α) (a : α) (resp : Option Response) (h : p.sink.ready = true) :
    p.commit (some a) resp =
      some { p with out := p.out ++ [a], sink := p.sink.take, resp := p.resp ++ resp.toList } := by
  cases resp <;> simp [Port.commit, Port.emit, Port.respond, h]

@[simp] theorem Sink.always_ready : Sink.always.ready = true := rfl
@[simp] theorem Sink.always_take : Sink.always.take = .always := rfl
@[simp] theorem Sink.always_readyFor (k : Nat) : Sink.always.readyFor k = true := rfl
@[simp] theorem Sink.always_takeMany (k : Nat) : Sink.always.takeMany k = .always := rfl

/-- A consumer ready for one more than `k` items is ready, and then ready for `k`. -/
theorem Sink.readyFor_succ (x : Sink) (k : Nat) :
    x.readyFor (k + 1) = true ↔ x.ready = true ∧ x.take.readyFor k = true := by
  cases x <;> simp [Sink.readyFor, Sink.ready, Sink.take]
  omega

/-- Accepting `k + 1` items is accepting one and then `k`. -/
theorem Sink.takeMany_succ (x : Sink) (k : Nat) : x.takeMany (k + 1) = x.take.takeMany k := by
  cases x <;> simp [Sink.takeMany, Sink.take]
  omega

/-! ### Effects of a block's step -/

/-- ENC takes an effect exactly when its port commits it. -/
theorem State.commitEnc_moves (s t : State) (e : Effect Enc Byte) (h : s.commitEnc e = .moves t) :
    ∃ p, s.encPort.commit e.emit e.resp = some p ∧ t = { s with enc := e.regs, encPort := p } := by
  unfold State.commitEnc at h
  split at h
  · cases h
  · rename_i p hp
    exact ⟨p, hp, (BlockStep.moves.inj h).symm⟩

/-- DEC takes an effect exactly when its port commits it. -/
theorem State.commitDec_moves (s t : State) (e : Effect Dec Word) (h : s.commitDec e = .moves t) :
    ∃ p, s.decPort.commit e.emit e.resp = some p ∧ t = { s with dec := e.regs, decPort := p } := by
  unfold State.commitDec at h
  split at h
  · cases h
  · rename_i p hp
    exact ⟨p, hp, (BlockStep.moves.inj h).symm⟩

theorem State.commitEnc_ne_faults (s : State) (e : Effect Enc Byte) (f : Fault) :
    s.commitEnc e ≠ .faults f := by
  unfold State.commitEnc
  split <;> simp

theorem State.commitDec_ne_faults (s : State) (e : Effect Dec Word) (f : Fault) :
    s.commitDec e ≠ .faults f := by
  unfold State.commitDec
  split <;> simp

/-- A step that reads moves only when the read succeeded. -/
theorem BlockStep.ofRead_moves {α : Type} (r : Except Fault α) (k : α → BlockStep) (t : State)
    (h : BlockStep.ofRead r k = .moves t) : ∃ a, r = .ok a ∧ k a = .moves t := by
  cases r with
  | error f => cases h
  | ok a => exact ⟨a, rfl, h⟩

/-- Every step of ENC is the effect of one of its rules. -/
theorem encStepFrom_moves (supply : Nat → Option Word) (s t : State) (h : encStepFrom supply s = .moves t) :
    ∃ e, s.commitEnc e = .moves t ∧
      ((s.enc.st = .fetch ∧ s.enc.cur = s.enc.nw ∧ e = encComplete s.enc) ∨
       (s.enc.st = .fetch ∧ s.enc.cur ≠ s.enc.nw ∧ ∃ v, encWord supply s s.enc.cur = .ok v ∧ e = encFetch s.enc v) ∨
       (s.enc.st = .tagOut ∧ e = encTagOut s.enc) ∨
       (s.enc.st = .sparse ∧ e = encSparse s.enc) ∨
       (s.enc.st = .zscan ∧ s.enc.mayScan s.enc.cur = true ∧
          ∃ v, encWord supply s s.enc.cur = .ok v ∧ e = encZscan s.enc (some v)) ∨
       (s.enc.st = .zscan ∧ s.enc.mayScan s.enc.cur = false ∧ e = encZscan s.enc none) ∨
       (s.enc.st = .seed ∧ e = encSeed s.enc) ∨
       (s.enc.st = .lscan ∧ s.enc.mayScan s.enc.scan = true ∧
          ∃ v, encWord supply s s.enc.scan = .ok v ∧ e = encLscan s.enc (some v)) ∨
       (s.enc.st = .lscan ∧ s.enc.mayScan s.enc.scan = false ∧ e = encLscan s.enc none) ∨
       (s.enc.st = .lcopy ∧ ∃ b, encByte supply s s.enc.cur s.enc.k.toNat = .ok b ∧ e = encLcopy s.enc b)) := by
  unfold encStepFrom at h
  split at h <;> rename_i hst
  · cases h
  · cases h
  · split at h
    · exact ⟨_, h, by simp_all⟩
    · obtain ⟨v, hv, hk⟩ := BlockStep.ofRead_moves _ _ _ h
      exact ⟨_, hk, by simp_all⟩
  · exact ⟨_, h, by simp_all⟩
  · exact ⟨_, h, by simp_all⟩
  · split at h
    · obtain ⟨v, hv, hk⟩ := BlockStep.ofRead_moves _ _ _ h
      exact ⟨_, hk, by simp_all⟩
    · exact ⟨_, h, by simp_all⟩
  · exact ⟨_, h, by simp_all⟩
  · split at h
    · obtain ⟨v, hv, hk⟩ := BlockStep.ofRead_moves _ _ _ h
      exact ⟨_, hk, by simp_all⟩
    · exact ⟨_, h, by simp_all⟩
  · obtain ⟨b, hb, hk⟩ := BlockStep.ofRead_moves _ _ _ h
    exact ⟨_, hk, by simp_all⟩

/-- A consuming step of DEC is the effect at the end of the input, or its rule on the byte read. -/
theorem decConsume_moves (supply : Nat → Option Byte) (s t : State) (atEnd : Effect Dec Word)
    (rule : Dec → Byte → Effect Dec Word) (h : decConsume supply s atEnd rule = .moves t) :
    (s.dec.pos = s.dec.len ∧ s.commitDec atEnd = .moves t) ∨
    (s.dec.pos ≠ s.dec.len ∧ ∃ b, decByte supply s = .ok b ∧ s.commitDec (rule s.dec.advance b) = .moves t) := by
  unfold decConsume at h
  split at h
  · exact .inl ⟨by assumption, h⟩
  · obtain ⟨b, hb, hk⟩ := BlockStep.ofRead_moves _ _ _ h
    exact .inr ⟨by assumption, b, hb, hk⟩

/-- Every step of DEC is its zero-word rule, or a consuming step of its state. -/
theorem decStepFrom_moves (supply : Nat → Option Byte) (s t : State) (h : decStepFrom supply s = .moves t) :
    (s.dec.st = .zemit ∧ s.commitDec (decZemit s.dec) = .moves t) ∨
    ∃ atEnd rule, decConsume supply s atEnd rule = .moves t ∧
      ((s.dec.st = .tag ∧ atEnd = decComplete s.dec ∧ rule = decTag) ∨
       (atEnd = decTruncate s.dec ∧
         ((s.dec.st = .sparse ∧ rule = decSparse) ∨ (s.dec.st = .zcount ∧ rule = decZcount) ∨
          (s.dec.st = .seed ∧ rule = decSeed) ∨ (s.dec.st = .lcount ∧ rule = decLcount) ∨
          (s.dec.st = .lraw ∧ rule = decLraw)))) := by
  unfold decStepFrom at h
  split at h <;> rename_i hst
  · cases h
  · exact .inr ⟨_, _, h, by simp_all⟩
  · exact .inr ⟨_, _, h, by simp_all⟩
  · exact .inr ⟨_, _, h, by simp_all⟩
  · exact .inl ⟨hst, h⟩
  · exact .inr ⟨_, _, h, by simp_all⟩
  · exact .inr ⟨_, _, h, by simp_all⟩
  · exact .inr ⟨_, _, h, by simp_all⟩

/-- Every step of an SRD unit is in a transaction, follows the rule of its state, and commits its byte and
the response of the completion check. -/
theorem srdUnitStep_some (u v : SrdUnit) (h : srdUnitStep u = some v) :
    u.regs.busy = true ∧ ∃ r item src p, srdRule u.regs u.src = some (r, item, src) ∧
      u.port.commit item (srdCompletion (r.counting item)) = some p ∧
      v = { regs := (r.counting item).finish, src := src, port := p } := by
  unfold srdUnitStep at h
  split at h
  · rename_i hb
    refine ⟨hb, ?_⟩
    split at h
    · cases h
    · rename_i r item src hr
      simp only [Option.map_eq_some_iff] at h
      obtain ⟨p, hp, hv⟩ := h
      exact ⟨r, item, src, p, hr, hp, hv.symm⟩
  · cases h

/-- A step of SRD `j` replaces unit `j` by the unit's own step. -/
theorem srdStep_moves (j : Nat) (s t : State) (h : srdStep j s = .moves t) :
    ∃ u v, s.srd[j]? = some u ∧ srdUnitStep u = some v ∧ t = s.setSrd j v := by
  unfold srdStep at h
  split at h
  · cases h
  · rename_i u hu
    split at h
    · cases h
    · rename_i v hv
      exact ⟨u, v, hu, hv, (BlockStep.moves.inj h).symm⟩

/-! ### Bursts -/

@[simp] theorem burst_zero (f : State → BlockStep) (s : State) : burst f 0 s = .moves s := rfl

theorem burst_moves (f : State → BlockStep) (k : Nat) (s t : State) (h : f s = .moves t) :
    burst f (k + 1) s = burst f k t := by
  simp [burst, h]

theorem burst_waits (f : State → BlockStep) (k : Nat) (s : State) (h : f s = .waits) :
    burst f k s = .moves s := by
  cases k <;> simp [burst, h]

/-- A burst of `j + k` steps is one of `j` and then one of `k`. -/
theorem burst_add (f : State → BlockStep) (j k : Nat) : ∀ s t, burst f j s = .moves t →
    burst f (j + k) s = burst f k t := by
  induction j with
  | zero =>
    intro s t h
    cases h
    simp
  | succ j ih =>
    intro s t h
    rw [Nat.succ_add]
    simp only [burst] at h ⊢
    split at h
    · rename_i hw
      cases h
      rw [burst_waits f k s hw]
    · cases h
    · rename_i t' _
      exact ih t' t h

/-- An invariant that each step keeps, a burst keeps. -/
theorem burst_invariant (f : State → BlockStep) (P : State → Prop) (hf : ∀ s t, P s → f s = .moves t → P t)
    (k : Nat) : ∀ s t, P s → burst f k s = .moves t → P t := by
  induction k with
  | zero => intro s t hp h; cases h; exact hp
  | succ k ih =>
    intro s t hp h
    simp only [burst] at h
    split at h
    · cases h; exact hp
    · cases h
    · rename_i t' ht'
      exact ih t' t (hf s t' hp ht') h

@[simp] theorem BlockStep.outcome_moves (s t : State) : (BlockStep.moves t).outcome s = .next t := rfl
@[simp] theorem BlockStep.outcome_waits (s : State) : BlockStep.waits.outcome s = .next s := rfl
@[simp] theorem BlockStep.outcome_faults (s : State) (f : Fault) : (BlockStep.faults f).outcome s = .fault f := rfl

/-- A next state comes from a step, or from waiting. -/
theorem BlockStep.outcome_next (b : BlockStep) (s t : State) (h : b.outcome s = .next t) :
    b = .moves t ∨ (b = .waits ∧ t = s) := by
  cases b <;> simp_all [BlockStep.outcome]

/-! ### The step of the machine -/

/-- Everything a block's turn can answer: the outcome of executing the command it accepts, or of one FSM
step. -/
theorem blockTurn_some (a : Agent) (s : State) (o : Host.Outcome State Fault Refusal)
    (h : blockTurn a s = some o) :
    (acceptsCommand a s = true ∧ acceptHead a { s with turn := a } = some o) ∨
    (∃ t, blockStep a { s with turn := a } = .moves t ∧ o = .next t) ∨
    (∃ f, blockStep a { s with turn := a } = .faults f ∧ o = .fault f) := by
  unfold blockTurn at h
  split at h
  · rename_i o' ho'
    cases h
    split at ho'
    · rename_i ha
      exact .inl ⟨ha, ho'⟩
    · cases ho'
  · split at h
    · cases h
    · rename_i t ht
      cases h
      exact .inr (.inl ⟨t, ht, rfl⟩)
    · rename_i f hf
      cases h
      exact .inr (.inr ⟨f, hf, rfl⟩)

/-- The head of a channel, when it is accepted, is decoded and executed. -/
theorem acceptHead_some (a : Agent) (s : State) (o : Host.Outcome State Fault Refusal)
    (h : acceptHead a s = some o) :
    ∃ bits rest, channel a s = bits :: rest ∧
      ((∃ i, decode s.params (.command bits) = .ok i ∧ o = exec i (setChannel a s rest)) ∨
       ((∃ e, decode s.params (.command bits) = .error e) ∧ o = .refused .notACommand)) := by
  unfold acceptHead at h
  split at h
  · cases h
  · rename_i bits rest hc
    refine ⟨bits, rest, hc, ?_⟩
    split at h
    · rename_i e he
      exact .inr ⟨⟨e, he⟩, (Option.some.inj h).symm⟩
    · rename_i i hi
      exact .inl ⟨i, hi, (Option.some.inj h).symm⟩

/-- With no move scheduled, the machine stays, or some block of the unit takes its turn. -/
theorem firstTurn_cases (as : List Agent) (s : State) :
    firstTurn as s = .next s ∨ ∃ a ∈ as, ∃ o, blockTurn a s = some o ∧ firstTurn as s = o := by
  induction as with
  | nil => exact .inl rfl
  | cons a as ih =>
    unfold firstTurn
    split
    · rename_i o ho
      exact .inr ⟨a, by simp, o, ho, rfl⟩
    · rcases ih with h | ⟨a', ha', o, ho, h⟩
      · exact .inl h
      · exact .inr ⟨a', by simp [ha'], o, ho, h⟩

/-! ### Acceptance of a PACK, and host writes -/

/-- What a PACK that answers a next state has done: it was held, it raised F_ALIGN, or it was accepted (R105). -/
theorem execPack_next (base len : Nat) (s t : State) (h : execPack base len s = .next t) :
    (s.enc.st ≠ .idle ∧ t = { s with encPort := s.encPort.hold (encodeCommand s.params (.pack base len)) }) ∨
    (s.enc.st = .idle ∧ base + len ≤ s.params.space ∧ len % 8 ≠ 0 ∧ t = s.takeAlignFault base len) ∨
    (s.enc.st = .idle ∧ base + len ≤ s.params.space ∧ len % 8 = 0 ∧ t = { s with enc := encAccept s.enc base len }) := by
  unfold execPack at h
  split at h
  · rename_i hst
    cases h
    exact .inl ⟨hst, rfl⟩
  · rename_i hst
    have hst' : s.enc.st = .idle := by simpa using hst
    split at h
    · cases h
    · rename_i hfit
      have hfit' : base + len ≤ s.params.space := by simpa [Params.fits] using hfit
      split at h
      · rename_i hal
        cases h
        exact .inr (.inl ⟨hst', hfit', hal, rfl⟩)
      · rename_i hal
        cases h
        exact .inr (.inr ⟨hst', hfit', not_not.mp hal, rfl⟩)

/-- What a host write that answers a next state has done: it placed a byte outside the buffers in flight (R63). -/
theorem hostWrite_next (addr : Nat) (b : Byte) (s t : State) (h : hostWrite addr b s = .next t) :
    addr < s.params.space ∧ inputOfBlock s addr = false ∧ (∀ x ∈ s.faultBuffer, x.contains addr = false) ∧
      t = { s with mem := s.mem.put addr b } := by
  unfold hostWrite at h
  split at h
  · cases h
  · rename_i ha
    split at h
    · cases h
    · rename_i hf
      cases h
      simp only [inFlight, Bool.or_eq_true, not_or, Bool.not_eq_true] at hf
      refine ⟨by omega, hf.1, fun x hx => ?_, rfl⟩
      have hx' : s.faultBuffer = some x := hx
      simpa [hx'] using hf.2

end Sys2Proof.Machine
end

