-- ==== Sys2Proof/Laws/PerInstr.lean ====
section
/-! SUPPORT. A fact about every instruction, one lemma a constructor: a well-formed instruction's encoding
has the size the spec gives it (R81 for records, R85 for commands). -/

namespace Sys2Proof.Laws

open Sys2Proof Sys2Proof.Machine

/-- A record is as long as R81 computes from its tag and its byte 9; a command word fits its fields (R85). -/
def EncodingSize.Statement (i : Instr) : Prop :=
  ∀ p : Params, i.wellFormed p = true →
    (i.isRecord = true →
      (encodeRecord i).length = recordLength ((encodeRecord i).headD 0) ((encodeRecord i).getD 9 0)) ∧
    (i.isRecord = false → encodeCommand p i < 2 ^ commandBits p i)

theorem EncodingSize.zrun (n : Byte) : EncodingSize.Statement (.zrun n) := by
  intro p _
  simp [Instr.isRecord, encodeRecord, recordLength]

theorem EncodingSize.lrun (seed : Word) (raw : List Word) : EncodingSize.Statement (.lrun seed raw) := by
  intro p h
  have hlen : raw.length ≤ 255 := of_decide_eq_true h
  have hget : (encodeRecord (.lrun seed raw)).getD 9 0 = BitVec.ofNat 8 raw.length := by
    simp [encodeRecord, List.getD]
  refine ⟨fun _ => ?_, by simp [Instr.isRecord]⟩
  rw [hget]
  simp [encodeRecord, recordLength, BitVec.toNat_ofNat, Nat.mod_eq_of_lt (show raw.length < 256 by omega)]
  omega

theorem EncodingSize.sparse (t : Byte) (lits : List Byte) : EncodingSize.Statement (.sparse t lits) := by
  intro p h
  simp only [Instr.wellFormed, Bool.and_eq_true, bne_iff_ne, beq_iff_eq] at h
  obtain ⟨⟨h0, hF⟩, hl⟩ := h
  refine ⟨fun _ => ?_, by simp [Instr.isRecord]⟩
  simp [encodeRecord, recordLength, h0, hF, hl]
  omega

/-- A field below `2^a` under one below `2^b` fits `2 + a + b` bits with the two `op` bits. -/
theorem EncodingSize.two_fields (op x y a b : Nat) (ho : op < 4) (hx : x < 2 ^ a) (hy : y < 2 ^ b) :
    op + 4 * (x + 2 ^ a * y) < 2 ^ (2 + a + b) := by
  have hyb : y + 1 ≤ 2 ^ b := hy
  have hm : 2 ^ a * (y + 1) ≤ 2 ^ a * 2 ^ b := Nat.mul_le_mul_left _ hyb
  rw [Nat.mul_add] at hm
  rw [Nat.pow_add, Nat.pow_add, Nat.mul_assoc]
  omega

theorem EncodingSize.pack (base len : Nat) : EncodingSize.Statement (.pack base len) := by
  intro p h
  simp only [Instr.wellFormed, Bool.and_eq_true, decide_eq_true_eq] at h
  refine ⟨by simp [Instr.isRecord], fun _ => ?_⟩
  have := EncodingSize.two_fields 0 base len p.aw p.lw (by omega) h.1 h.2
  simpa [encodeCommand, commandBits] using this

theorem EncodingSize.unpack (base len : Nat) : EncodingSize.Statement (.unpack base len) := by
  intro p h
  simp only [Instr.wellFormed, Bool.and_eq_true, decide_eq_true_eq] at h
  exact ⟨by simp [Instr.isRecord], fun _ => EncodingSize.two_fields 1 base len p.aw p.lw (by omega) h.1 h.2⟩

theorem EncodingSize.sinit (inst : Nat) : EncodingSize.Statement (.sinit inst) := by
  intro p h
  simp only [Instr.wellFormed, decide_eq_true_eq] at h
  refine ⟨by simp [Instr.isRecord], fun _ => ?_⟩
  simp only [encodeCommand, commandBits, Nat.pow_add]
  omega

theorem EncodingSize.sread (inst k : Nat) : EncodingSize.Statement (.sread inst k) := by
  intro p h
  simp only [Instr.wellFormed, Bool.and_eq_true, decide_eq_true_eq] at h
  exact ⟨by simp [Instr.isRecord], fun _ => EncodingSize.two_fields 3 inst k (instBits p.nSrd) p.kw (by omega) h.1 h.2⟩

end Sys2Proof.Laws
end

