-- ==== Sys2Proof/Laws/State.lean ====
section
/-! SUPPORT. What each update of the state leaves in each field, true by definition. -/

namespace Sys2Proof.Machine

open Sys2Proof

/-! ### One SRD unit replaced -/

@[simp] theorem State.setSrd_srd (s : State) (j : Nat) (u : SrdUnit) : (s.setSrd j u).srd = s.srd.set j u := rfl
@[simp] theorem State.setSrd_params (s : State) (j : Nat) (u : SrdUnit) : (s.setSrd j u).params = s.params := rfl
@[simp] theorem State.setSrd_enc (s : State) (j : Nat) (u : SrdUnit) : (s.setSrd j u).enc = s.enc := rfl
@[simp] theorem State.setSrd_dec (s : State) (j : Nat) (u : SrdUnit) : (s.setSrd j u).dec = s.dec := rfl
@[simp] theorem State.setSrd_encPort (s : State) (j : Nat) (u : SrdUnit) : (s.setSrd j u).encPort = s.encPort := rfl
@[simp] theorem State.setSrd_decPort (s : State) (j : Nat) (u : SrdUnit) : (s.setSrd j u).decPort = s.decPort := rfl
@[simp] theorem State.setSrd_mem (s : State) (j : Nat) (u : SrdUnit) : (s.setSrd j u).mem = s.mem := rfl
@[simp] theorem State.setSrd_faultBuffer (s : State) (j : Nat) (u : SrdUnit) :
    (s.setSrd j u).faultBuffer = s.faultBuffer := rfl
@[simp] theorem State.setSrd_sched (s : State) (j : Nat) (u : SrdUnit) : (s.setSrd j u).sched = s.sched := rfl
@[simp] theorem State.setSrd_turn (s : State) (j : Nat) (u : SrdUnit) : (s.setSrd j u).turn = s.turn := rfl

/-! ### Reset of the unit -/

@[simp] theorem State.unitReset_enc (s : State) : s.unitReset.enc = Enc.reset := rfl
@[simp] theorem State.unitReset_dec (s : State) : s.unitReset.dec = Dec.reset := rfl
@[simp] theorem State.unitReset_encPort (s : State) : s.unitReset.encPort = s.encPort.afterReset := rfl
@[simp] theorem State.unitReset_decPort (s : State) : s.unitReset.decPort = s.decPort.afterReset := rfl
@[simp] theorem State.unitReset_srd (s : State) :
    s.unitReset.srd = s.srd.map fun u => { u with regs := Srd.reset, port := u.port.afterReset } := rfl
@[simp] theorem State.unitReset_params (s : State) : s.unitReset.params = s.params := rfl
@[simp] theorem State.unitReset_mem (s : State) : s.unitReset.mem = s.mem := rfl
@[simp] theorem State.unitReset_faultBuffer (s : State) : s.unitReset.faultBuffer = none := rfl
@[simp] theorem State.unitReset_sched (s : State) : s.unitReset.sched = s.sched := rfl
@[simp] theorem State.unitReset_turn (s : State) : s.unitReset.turn = s.turn := rfl

/-! ### F_ALIGN taken -/

@[simp] theorem State.takeAlignFault_enc (s : State) (base len : Nat) :
    (s.takeAlignFault base len).enc = raiseAlign s.enc := rfl
@[simp] theorem State.takeAlignFault_faultBuffer (s : State) (base len : Nat) :
    (s.takeAlignFault base len).faultBuffer = some { base := base, len := len } := rfl
@[simp] theorem State.takeAlignFault_params (s : State) (base len : Nat) :
    (s.takeAlignFault base len).params = s.params := rfl
@[simp] theorem State.takeAlignFault_dec (s : State) (base len : Nat) : (s.takeAlignFault base len).dec = s.dec := rfl
@[simp] theorem State.takeAlignFault_srd (s : State) (base len : Nat) : (s.takeAlignFault base len).srd = s.srd := rfl
@[simp] theorem State.takeAlignFault_encPort (s : State) (base len : Nat) :
    (s.takeAlignFault base len).encPort = s.encPort := rfl
@[simp] theorem State.takeAlignFault_decPort (s : State) (base len : Nat) :
    (s.takeAlignFault base len).decPort = s.decPort := rfl
@[simp] theorem State.takeAlignFault_mem (s : State) (base len : Nat) : (s.takeAlignFault base len).mem = s.mem := rfl
@[simp] theorem State.takeAlignFault_sched (s : State) (base len : Nat) :
    (s.takeAlignFault base len).sched = s.sched := rfl
@[simp] theorem State.takeAlignFault_turn (s : State) (base len : Nat) : (s.takeAlignFault base len).turn = s.turn := rfl

/-! ### A block's port -/

@[simp] theorem Port.respond_cmds {α : Type} (p : Port α) (r : Response) : (p.respond r).cmds = p.cmds := rfl
@[simp] theorem Port.respond_out {α : Type} (p : Port α) (r : Response) : (p.respond r).out = p.out := rfl
@[simp] theorem Port.respond_sink {α : Type} (p : Port α) (r : Response) : (p.respond r).sink = p.sink := rfl
@[simp] theorem Port.respond_resp {α : Type} (p : Port α) (r : Response) : (p.respond r).resp = p.resp ++ [r] := rfl
@[simp] theorem Port.hold_cmds {α : Type} (p : Port α) (w : Nat) : (p.hold w).cmds = p.cmds ++ [w] := rfl
@[simp] theorem Port.hold_out {α : Type} (p : Port α) (w : Nat) : (p.hold w).out = p.out := rfl
@[simp] theorem Port.hold_sink {α : Type} (p : Port α) (w : Nat) : (p.hold w).sink = p.sink := rfl
@[simp] theorem Port.hold_resp {α : Type} (p : Port α) (w : Nat) : (p.hold w).resp = p.resp := rfl
@[simp] theorem Port.afterReset_cmds {α : Type} (p : Port α) : (p.afterReset).cmds = [] := rfl
@[simp] theorem Port.afterReset_out {α : Type} (p : Port α) : (p.afterReset).out = p.out := rfl
@[simp] theorem Port.afterReset_sink {α : Type} (p : Port α) : (p.afterReset).sink = p.sink := rfl
@[simp] theorem Port.afterReset_resp {α : Type} (p : Port α) : (p.afterReset).resp = p.resp := rfl

/-! ### The registers of a block -/

@[simp] theorem encAccept_st (e : Enc) (base len : Nat) : (encAccept e base len).st = .fetch := rfl
@[simp] theorem encAccept_base (e : Enc) (base len : Nat) : (encAccept e base len).base = base := rfl
@[simp] theorem encAccept_nw (e : Enc) (base len : Nat) : (encAccept e base len).nw = len / 8 := rfl
@[simp] theorem encAccept_cur (e : Enc) (base len : Nat) : (encAccept e base len).cur = 0 := rfl
@[simp] theorem encAccept_scan (e : Enc) (base len : Nat) : (encAccept e base len).scan = e.scan := rfl
@[simp] theorem encAccept_W (e : Enc) (base len : Nat) : (encAccept e base len).W = e.W := rfl
@[simp] theorem encAccept_T (e : Enc) (base len : Nat) : (encAccept e base len).T = e.T := rfl
@[simp] theorem encAccept_k (e : Enc) (base len : Nat) : (encAccept e base len).k = e.k := rfl
@[simp] theorem encAccept_cnt (e : Enc) (base len : Nat) : (encAccept e base len).cnt = e.cnt := rfl
@[simp] theorem encAccept_fault (e : Enc) (base len : Nat) : (encAccept e base len).fault = e.fault := rfl
@[simp] theorem raiseAlign_st (e : Enc) : (raiseAlign e).st = .fault := rfl
@[simp] theorem raiseAlign_base (e : Enc) : (raiseAlign e).base = e.base := rfl
@[simp] theorem raiseAlign_nw (e : Enc) : (raiseAlign e).nw = e.nw := rfl
@[simp] theorem raiseAlign_cur (e : Enc) : (raiseAlign e).cur = e.cur := rfl
@[simp] theorem raiseAlign_scan (e : Enc) : (raiseAlign e).scan = e.scan := rfl
@[simp] theorem raiseAlign_W (e : Enc) : (raiseAlign e).W = e.W := rfl
@[simp] theorem raiseAlign_T (e : Enc) : (raiseAlign e).T = e.T := rfl
@[simp] theorem raiseAlign_k (e : Enc) : (raiseAlign e).k = e.k := rfl
@[simp] theorem raiseAlign_cnt (e : Enc) : (raiseAlign e).cnt = e.cnt := rfl
@[simp] theorem raiseAlign_fault (e : Enc) : (raiseAlign e).fault = true := rfl
@[simp] theorem decAccept_st (d : Dec) (base len : Nat) : (decAccept d base len).st = .tag := rfl
@[simp] theorem decAccept_base (d : Dec) (base len : Nat) : (decAccept d base len).base = base := rfl
@[simp] theorem decAccept_len (d : Dec) (base len : Nat) : (decAccept d base len).len = len := rfl
@[simp] theorem decAccept_pos (d : Dec) (base len : Nat) : (decAccept d base len).pos = 0 := rfl
@[simp] theorem decAccept_T (d : Dec) (base len : Nat) : (decAccept d base len).T = d.T := rfl
@[simp] theorem decAccept_W (d : Dec) (base len : Nat) : (decAccept d base len).W = d.W := rfl
@[simp] theorem decAccept_k (d : Dec) (base len : Nat) : (decAccept d base len).k = d.k := rfl
@[simp] theorem decAccept_rem (d : Dec) (base len : Nat) : (decAccept d base len).rem = d.rem := rfl
@[simp] theorem decAccept_last (d : Dec) (base len : Nat) : (decAccept d base len).last = d.last := rfl
@[simp] theorem Dec.advance_st (d : Dec) : d.advance.st = d.st := rfl
@[simp] theorem Dec.advance_base (d : Dec) : d.advance.base = d.base := rfl
@[simp] theorem Dec.advance_len (d : Dec) : d.advance.len = d.len := rfl
@[simp] theorem Dec.advance_pos (d : Dec) : d.advance.pos = d.pos + 1 := rfl
@[simp] theorem Dec.advance_T (d : Dec) : d.advance.T = d.T := rfl
@[simp] theorem Dec.advance_W (d : Dec) : d.advance.W = d.W := rfl
@[simp] theorem Dec.advance_k (d : Dec) : d.advance.k = d.k := rfl
@[simp] theorem Dec.advance_rem (d : Dec) : d.advance.rem = d.rem := rfl
@[simp] theorem Dec.advance_last (d : Dec) : d.advance.last = d.last := rfl
@[simp] theorem srdTruncate_st (r : Srd) : (srdTruncate r).st = .error := rfl
@[simp] theorem srdTruncate_T (r : Srd) : (srdTruncate r).T = r.T := rfl
@[simp] theorem srdTruncate_idx (r : Srd) : (srdTruncate r).idx = r.idx := rfl
@[simp] theorem srdTruncate_SCR (r : Srd) : (srdTruncate r).SCR = r.SCR := rfl
@[simp] theorem srdTruncate_rem (r : Srd) : (srdTruncate r).rem = r.rem := rfl
@[simp] theorem srdTruncate_term (r : Srd) : (srdTruncate r).term = .trunc := rfl
@[simp] theorem srdTruncate_errv (r : Srd) : (srdTruncate r).errv = r.errv := rfl
@[simp] theorem srdTruncate_busy (r : Srd) : (srdTruncate r).busy = r.busy := rfl
@[simp] theorem srdTruncate_K (r : Srd) : (srdTruncate r).K = r.K := rfl
@[simp] theorem srdTruncate_n (r : Srd) : (srdTruncate r).n = r.n := rfl
@[simp] theorem srdEnd_st (r : Srd) : (srdEnd r).st = .done := rfl
@[simp] theorem srdEnd_T (r : Srd) : (srdEnd r).T = r.T := rfl
@[simp] theorem srdEnd_idx (r : Srd) : (srdEnd r).idx = r.idx := rfl
@[simp] theorem srdEnd_SCR (r : Srd) : (srdEnd r).SCR = r.SCR := rfl
@[simp] theorem srdEnd_rem (r : Srd) : (srdEnd r).rem = r.rem := rfl
@[simp] theorem srdEnd_term (r : Srd) : (srdEnd r).term = .eof := rfl
@[simp] theorem srdEnd_errv (r : Srd) : (srdEnd r).errv = r.errv := rfl
@[simp] theorem srdEnd_busy (r : Srd) : (srdEnd r).busy = r.busy := rfl
@[simp] theorem srdEnd_K (r : Srd) : (srdEnd r).K = r.K := rfl
@[simp] theorem srdEnd_n (r : Srd) : (srdEnd r).n = r.n := rfl
@[simp] theorem srdIoError_st (r : Srd) (e : Config.ErrT) : (srdIoError r e).st = .error := rfl
@[simp] theorem srdIoError_T (r : Srd) (e : Config.ErrT) : (srdIoError r e).T = r.T := rfl
@[simp] theorem srdIoError_idx (r : Srd) (e : Config.ErrT) : (srdIoError r e).idx = r.idx := rfl
@[simp] theorem srdIoError_SCR (r : Srd) (e : Config.ErrT) : (srdIoError r e).SCR = r.SCR := rfl
@[simp] theorem srdIoError_rem (r : Srd) (e : Config.ErrT) : (srdIoError r e).rem = r.rem := rfl
@[simp] theorem srdIoError_term (r : Srd) (e : Config.ErrT) : (srdIoError r e).term = .io := rfl
@[simp] theorem srdIoError_errv (r : Srd) (e : Config.ErrT) : (srdIoError r e).errv = some e := rfl
@[simp] theorem srdIoError_busy (r : Srd) (e : Config.ErrT) : (srdIoError r e).busy = r.busy := rfl
@[simp] theorem srdIoError_K (r : Srd) (e : Config.ErrT) : (srdIoError r e).K = r.K := rfl
@[simp] theorem srdIoError_n (r : Srd) (e : Config.ErrT) : (srdIoError r e).n = r.n := rfl
@[simp] theorem srdInit_st (r : Srd) : (srdInit r).st = Srd.reset.st := rfl
@[simp] theorem srdInit_T (r : Srd) : (srdInit r).T = Srd.reset.T := rfl
@[simp] theorem srdInit_idx (r : Srd) : (srdInit r).idx = Srd.reset.idx := rfl
@[simp] theorem srdInit_SCR (r : Srd) : (srdInit r).SCR = Srd.reset.SCR := rfl
@[simp] theorem srdInit_rem (r : Srd) : (srdInit r).rem = Srd.reset.rem := rfl
@[simp] theorem srdInit_term (r : Srd) : (srdInit r).term = Srd.reset.term := rfl
@[simp] theorem srdInit_errv (r : Srd) : (srdInit r).errv = Srd.reset.errv := rfl
@[simp] theorem srdInit_busy (r : Srd) : (srdInit r).busy = r.busy := rfl
@[simp] theorem srdInit_K (r : Srd) : (srdInit r).K = Srd.reset.K := rfl
@[simp] theorem srdInit_n (r : Srd) : (srdInit r).n = Srd.reset.n := rfl

end Sys2Proof.Machine
end

