-- ==== Sys2Proof/Tests/Slice0.lean ====
section
/-! SUPPORT. Tests: ill-formed terms are refused, words written out from spec/30_encoding.md decode, one
move of each instruction on small states, and a concrete case of the hypotheses of each obligation. -/

namespace Sys2Proof.Tests

open Sys2Proof Sys2Proof.Machine

/-! ### WellFormed refuses an ill-formed term for each of its checks -/

/-- The parameters with three SRDs, so that `inst` has two bits (R85). -/
def threeSrds : Params := { aw := 16, lw := 8, kw := 4, nSrd := 3 }

theorem test_wf_lrun_count : (Instr.lrun 1 (List.replicate 256 1)).wellFormed threeSrds = false := by
  rw [Instr.wellFormed, List.length_replicate]; rfl
theorem test_wf_lrun_count_max : (Instr.lrun 1 (List.replicate 255 1)).wellFormed threeSrds = true := by
  rw [Instr.wellFormed, List.length_replicate]; rfl
theorem test_wf_sparse_tag_zero : (Instr.sparse 0x00#8 []).wellFormed threeSrds = false := by decide
theorem test_wf_sparse_tag_ones : (Instr.sparse 0xFF#8 (List.replicate 8 1)).wellFormed threeSrds = false := by decide
theorem test_wf_sparse_literals : (Instr.sparse 0x24#8 [0x0C#8]).wellFormed threeSrds = false := by decide
theorem test_wf_pack_base : (Instr.pack 65536 0).wellFormed threeSrds = false := by decide
theorem test_wf_pack_len : (Instr.pack 0 256).wellFormed threeSrds = false := by decide
theorem test_wf_unpack_base : (Instr.unpack 65536 0).wellFormed threeSrds = false := by decide
theorem test_wf_unpack_len : (Instr.unpack 0 256).wellFormed threeSrds = false := by decide
theorem test_wf_sinit_number : (Instr.sinit 4).wellFormed threeSrds = false := by decide
theorem test_wf_sread_number : (Instr.sread 4 1).wellFormed threeSrds = false := by decide
theorem test_wf_sread_request : (Instr.sread 0 16).wellFormed threeSrds = false := by decide

/-! ### Decoding of words written out from the formats: R73-R75 and R85 -/

/-- Scenario 2 of 95_test_vectors.md: tag `0010_0100`, bytes 2 and 5. -/
theorem test_decode_sparse : decodeRecord [0x24#8, 0x0C#8, 0x22#8] = .ok (.sparse 0x24#8 [0x0C#8, 0x22#8], []) := by rfl
/-- The ZRUN of scenario 6, with the next record after it. -/
theorem test_decode_zrun : decodeRecord [0x00#8, 0x02#8, 0xD4#8] = .ok (.zrun 0x02#8, [0xD4#8]) := by rfl
/-- An LRUN with one raw word (R75): the seed in stream order, byte 0 in the lowest lane. -/
theorem test_decode_lrun :
    decodeRecord [0xFF#8, 0x01#8, 0x03#8, 0x02#8, 0x04#8, 0x05#8, 0x07#8, 0x06#8, 0x08#8, 0x01#8,
      0x8A#8, 0x8B#8, 0x8C#8, 0x8D#8, 0x8E#8, 0x8F#8, 0x90#8, 0x00#8] =
    .ok (.lrun 0x0806070504020301#64 [0x00908F8E8D8C8B8A#64], []) := by rfl
/-- A text that ends before its record does (R82). -/
theorem test_decode_truncated : decodeRecord [0x24#8, 0x0C#8] = .error .truncated := by rfl
/-- Program 1 of 95_test_vectors.md: `len` 0x0028, `base` 0x0100, `op` 00. -/
theorem test_decode_pack :
    decodeCommand Config.exampleParams 0b00000000001010000000000100000000_00 = .ok (.pack 0x0100 40) := by rfl
/-- Program 2: `len` 0x0015, `base` 0x0200, `op` 01. -/
theorem test_decode_unpack :
    decodeCommand Config.exampleParams 0b00000000000101010000001000000000_01 = .ok (.unpack 0x0200 21) := by rfl
/-- SINIT 2 of three SRDs: `inst` 10, `op` 10. -/
theorem test_decode_sinit : decodeCommand threeSrds 0b10_10 = .ok (.sinit 2) := by rfl
/-- SREAD 1, 5: `K` 0101, `inst` 01, `op` 11. -/
theorem test_decode_sread : decodeCommand threeSrds 0b0101_01_11 = .ok (.sread 1 5) := by rfl
/-- Bits above the operands are no command. -/
theorem test_decode_excess : decodeCommand threeSrds 0b1_0101_01_11 = .error .excessBits := by rfl

/-- The row words of spec/opcode_table.json. -/
theorem test_table_words :
    decodeTableWord 8 0x00 = some (.pack 0 0) ∧ decodeTableWord 8 0x01 = some (.unpack 0 0) ∧
    decodeTableWord 8 0x02 = some (.sinit 0) ∧ decodeTableWord 8 0x03 = some (.sread 0 0) ∧
    decodeTableWord 16 0x0500 = some (.zrun 0x05#8) ∧ decodeTableWord 8 0xFF = some (.lrun 0 []) ∧
    decodeTableWord 8 0x24 = some (.sparse 0x24#8 [0, 0]) := by decide

/-! ### Small states -/

/-- The next state of an outcome. -/
def nextState : Host.Outcome State Fault Refusal → Option State
  | .next s => some s
  | .fault _ => none
  | .refused _ => none

/-- ENC has accepted a PACK of some words placed at address 8. -/
def packing (ws : List Word) : State :=
  { State.reset with enc := encAccept Enc.reset 8 (8 * ws.length), mem := Memory.putBytes [] 8 (bytesOfWords ws) }

/-- DEC has accepted an UNPACK of some bytes placed at address 8. -/
def unpacking (bs : List Byte) : State :=
  { State.reset with dec := decAccept Dec.reset 8 bs.length, mem := Memory.putBytes [] 8 bs, turn := .dec }

/-- An SRD unit right after SINIT over some tokens. -/
def reader (ts : List Token) : SrdUnit := { SrdUnit.fresh with src := ts }

/-- SRD 0 has accepted an SREAD of `k` bytes over some tokens. -/
def reading (k : Nat) (ts : List Token) : State :=
  { State.reset with srd := [(reader ts).read k], turn := .srd 0 }

/-- Scenario 2's word. -/
def sparseWord : Word := 0x00002200000C0000#64

/-- Every byte 0x8A. -/
def fullWord : Word := 0x8A8A8A8A8A8A8A8A#64

/-- A payload of a source error. -/
def payload : Config.ErrT := ⟨0, .inl rfl⟩

/-- The tokens of scenario 2. -/
def sparseTokens : List Token := [.byte 0x24#8, .byte 0x0C#8, .byte 0x22#8, .eof]

/-! ### One move of each instruction; expected values from 95_test_vectors.md -/

theorem test_enc_sparse :
    (nextState (exec (.sparse 0x24#8 [0x0C#8, 0x22#8]) (packing [sparseWord]))).map
      (fun t => (t.encPort.out, t.enc.cur)) = some ([0x24#8, 0x0C#8, 0x22#8], 1) := by decide
theorem test_dec_sparse :
    (nextState (exec (.sparse 0x24#8 [0x0C#8, 0x22#8]) (unpacking [0x24#8, 0x0C#8, 0x22#8]))).map
      (fun t => (t.decPort.out, t.dec.pos)) = some ([sparseWord], 3) := by decide
/-- The count of a run of three zero words is 2 (scenario 6). -/
theorem test_enc_zrun :
    (nextState (exec (.zrun 0x02#8) (packing [0, 0, 0, 1]))).map (fun t => (t.encPort.out, t.enc.cur)) =
      some ([0x00#8, 0x02#8], 3) := by decide
/-- SREAD of 5 bytes over `00 00`: 5 zero bytes now, 3 pending (R169). -/
theorem test_srd_zrun :
    (nextState (exec (.zrun 0x00#8) (reading 5 [.byte 0x00#8, .byte 0x00#8, .eof]))).map
      (fun t => t.srd.map fun u => (u.port.out, u.port.resp, u.regs.rem)) =
      some [([0, 0, 0, 0, 0], [.sread 5 .ok none], 3#12)] := by decide
/-- A word with one zero byte continues a literal run and is copied with it (R122). -/
theorem test_enc_lrun :
    (nextState (exec (.lrun fullWord [0x8A8A8A8A8A8A8A00#64]) (packing [fullWord, 0x8A8A8A8A8A8A8A00#64]))).map
      (fun t => (t.encPort.out, t.enc.cur)) =
      some ([0xFF#8] ++ List.replicate 8 0x8A#8 ++ [0x01#8, 0x00#8] ++ List.replicate 7 0x8A#8, 2) := by decide
/-- The input ends in the seed: no word (R147). -/
theorem test_dec_lrun_truncated :
    (nextState (exec (.lrun 0 []) (unpacking [0xFF#8, 0x01#8]))).map
      (fun t => (t.decPort.out, t.decPort.resp, t.dec.last)) = some ([], [.unpack .trunc], .trunc) := by decide
/-- Program 4 of 95_test_vectors.md: ENC_STATUS reads 0x28. -/
theorem test_pack_misaligned :
    (nextState (exec (.pack 0x0100 7) State.reset)).map (fun t => encStatus t.enc) = some 0x28#8 := by decide
theorem test_pack_empty :
    (nextState (exec (.pack 0x0100 0) State.reset)).map (fun t => (t.enc.st, t.enc.nw)) = some (.fetch, 0) := by decide
theorem test_unpack_at_top :
    (nextState (exec (.unpack 0xFFFF 1) State.reset)).map (fun t => (t.dec.st, t.dec.base)) = some (.tag, 0xFFFF) := by
  decide
theorem test_unpack_range : exec (.unpack 0xFFFF 2) State.reset = .refused .range := by rfl
/-- SINIT leaves a terminal state and responds (program 5). -/
theorem test_sinit_clears_error :
    (nextState (exec (.sinit 0) { State.reset with srd := [{ reader [] with regs := srdIoError Srd.reset payload }] })).map
      (fun t => t.srd.map fun u => (u.regs, u.port.resp)) = some [(Srd.reset, [.sinit .ok])] := by decide
/-- Program 5: a later SREAD answers `(0, ST_IO, e)`, its `e` the payload latched. -/
theorem test_sread_latched :
    (nextState (exec (.sread 0 16) { State.reset with srd := [{ reader [] with regs := srdIoError Srd.reset payload }] })).map
      (fun t => t.srd.map fun u => u.port.resp) = some [[.sread 0 .io (some payload)]] := by decide
/-- Program 3: one whole SREAD of 8 bytes over scenario 2, then the end of the stream. -/
theorem test_sread_stream :
    ((reader sparseTokens).reads [8, 8]).port.resp = [.sread 8 .ok none, .sread 0 .eof none] := by decide

/-! ### The words of withFetchWord run as the first instruction after reset -/

theorem test_fetch_pack : (nextState (step (State.reset.withFetchWord 8 0x00))).map (fun t => t.enc.st) = some .fetch := by
  decide
theorem test_fetch_sread :
    (nextState (step (State.reset.withFetchWord 8 0x03))).map (fun t => t.srd.map fun u => u.port.resp) =
      some [[.sread 0 .ok none]] := by decide
theorem test_fetch_zrun :
    (nextState (step (State.reset.withFetchWord 16 0x0100))).map (fun t => t.decPort.out) = some [0, 0] := by decide
theorem test_fetch_lrun :
    (nextState (step (State.reset.withFetchWord 8 0xFF))).map (fun t => t.decPort.out) = some [0] := by decide

/-! ### A concrete case of the hypotheses of each obligation that has some -/

/-- A state of the invariant that is not the reset state. -/
theorem packing_inv : (packing [sparseWord, 0]).Inv where
  params := by decide
  enc := ⟨by decide, by decide, by decide, by decide, by decide, by decide, by decide, by decide, by decide, by decide⟩
  dec := ⟨by decide, by decide, by decide, by decide, by decide, by decide, by decide, by decide⟩
  units := by decide
  srd := by
    intro u hu
    obtain rfl : u = SrdUnit.fresh := by simpa [packing, State.reset, State.resetWith, Config.exampleParams] using hu
    exact ⟨by decide, by decide, by decide, by decide, by decide, by decide, by decide, by decide, by decide, by decide,
      by decide⟩
  mem := by decide
  fault := by decide
  faultBuffer := by decide
  addrs := by decide

/-- An outcome with a next state is that next state. -/
theorem next_of_isSome {o : Host.Outcome State Fault Refusal} (h : (nextState o).isSome = true) : ∃ t, o = .next t := by
  cases o with
  | next t => exact ⟨t, rfl⟩
  | fault f => simp [nextState] at h
  | refused r => simp [nextState] at h

/-- The state a block's step moves to. -/
def movedState : BlockStep → Option State
  | .waits => none
  | .moves s => some s
  | .faults _ => none

/-- A block step that moves, moves somewhere. -/
theorem moves_of_isSome {b : BlockStep} (h : (movedState b).isSome = true) : ∃ t, b = .moves t := by
  cases b with
  | waits => simp [movedState] at h
  | moves t => exact ⟨t, rfl⟩
  | faults f => simp [movedState] at h

theorem witness_StepKeepsInvariant : ∃ s t : State, s.Inv ∧ step s = .next t :=
  have ⟨t, h⟩ := next_of_isSome (o := step (packing [sparseWord, 0])) (by decide)
  ⟨_, t, packing_inv, h⟩

theorem witness_UnitResetSetsEveryRegister : ∃ (s : State) (rest : List Move), s.sched = .reset :: rest :=
  ⟨{ packing [sparseWord] with sched := [.reset] }, [], rfl⟩

/-- Each constructor, with operands at the ends of their fields. -/
theorem witness_DecodeOfEncode :
    ∀ i ∈ [Instr.zrun 0xFF#8, .lrun fullWord [0], .sparse 0xFE#8 [1, 2, 3, 4, 5, 6, 7], .pack 65535 255, .unpack 65535 255,
      .sinit 3, .sread 3 15], i.wellFormed threeSrds = true := by decide

theorem witness_RecordDecodingIsExact :
    ∃ (bytes rest : List Byte) (i : Instr), decodeRecord bytes = .ok (i, rest) := ⟨_, _, _, test_decode_lrun⟩

theorem witness_CommandDecodingIsExact : ∃ (p : Params) (bits : Nat) (i : Instr), decodeCommand p bits = .ok i :=
  ⟨_, _, _, test_decode_sread⟩

theorem witness_UnpackUndoesPack : ∃ u : List Byte, u ≠ [] ∧ u.length % 8 = 0 := ⟨bytesOfWord sparseWord, by decide⟩

theorem witness_PackedLengthBound : ∃ u : List Byte, u ≠ [] ∧ u.length % 8 = 0 := ⟨bytesOfWord fullWord, by decide⟩

/-- A stream of each kind: scenario 1, which is canonical, and the first form of R84, which is not. -/
theorem witness_CanonicalIffRepacked :
    unpackBytes [0x00#8, 0x00#8] = ([0], .ok) ∧ unpackBytes [0x02#8, 0x00#8] = ([0], .ok) := ⟨rfl, rfl⟩

/-- The last two addresses of the space. -/
theorem witness_MemReadGivesBytesInOrder :
    ∃ (s : State) (addr n : Nat) (bs : List Byte), addr + n = s.params.space ∧ memRead s addr n = .ok bs :=
  ⟨{ State.reset with mem := [(0xFFFE, 1), (0xFFFF, 2)] }, 0xFFFE, 2, [1, 2], rfl, rfl⟩

/-- Both addresses lie in the space and are placed. -/
theorem witness_MemReadGivesBytesInOrder_placed :
    ∃ s : State, ∀ i, i < 2 → 0xFFFE + i < s.params.space ∧ (s.mem.get (0xFFFE + i)).isSome = true :=
  ⟨{ State.reset with mem := [(0xFFFE, 1), (0xFFFF, 2)] }, by decide⟩

theorem witness_OnlyHostWritesChangeMemory :
    ∃ s t : State, step s = .next t ∧ ∀ addr b rest, s.sched ≠ .write addr b :: rest :=
  have ⟨t, h⟩ := next_of_isSome (o := step (packing [sparseWord, 0])) (by decide)
  ⟨_, t, h, fun _ _ _ e => by simp [packing, State.reset, State.resetWith] at e⟩

/-- ENC after a PACK of the 7 bytes at 8, which raised F_ALIGN. -/
def misaligned : State := State.reset.takeAlignFault 8 7

/-- The last byte of a buffer in flight, and the byte after it: of a running PACK, and of one that faulted. -/
theorem witness_HostWritePlacesOneByte :
    ∀ s ∈ [packing [sparseWord], { misaligned with sched := [] }], s.params.space = 65536 ∧ Memory.wf s.mem = true ∧
      inFlight s 14 = true ∧ inFlight s 16 = false := by decide

theorem witness_BlocksReadOnlyTheirBuffer : ∃ s : State, s.Inv ∧ s.InputPlaced ∧ s.blockMoves := by
  refine ⟨packing [sparseWord, 0], packing_inv, ?_, .inl rfl⟩
  intro addr h
  have h1 : 8 ≤ addr ∧ addr < 24 := by
    simpa [inputOfBlock, packing, State.reset, State.resetWith, encAccept, Enc.isBusy, Dec.isBusy, Dec.reset] using h
  obtain ⟨h1, h2⟩ := h1
  interval_cases addr <;> decide

theorem witness_StepRunsHeldCommand :
    ∃ (s : State) (a : Agent) (rest : List Move) (bits : Nat) (cmds : List Nat) (i : Instr),
      s.sched = .tick a :: rest ∧ acceptsCommand a s = true ∧ channel a s = bits :: cmds ∧
      decode s.params (.command bits) = .ok i ∧ i.wellFormed s.params = true :=
  ⟨{ State.reset with sched := [.tick .enc], encPort := { Port.fresh Byte with cmds := [0xA00400] } },
    .enc, [], 0xA00400, [], .pack 0x0100 40, rfl, rfl, rfl, rfl, rfl⟩

/-- A running block, an idle block with an empty channel, and no move scheduled: some block can act, or none. -/
theorem witness_StepRunsHeldCommand_fsmStep :
    (∃ s : State, s.sched = [.tick .enc] ∧ acceptsCommand .enc s = false) ∧
    (∃ s : State, s.sched = [.tick .dec] ∧ acceptsCommand .dec s = true ∧ channel .dec s = []) ∧
    (∃ s : State, s.sched = [] ∧ fetchRecord .enc s = some (.zrun 0)) ∧
    (∃ s : State, s.sched = [] ∧ acceptsCommand .enc s = true ∧ channel .enc s = []) :=
  ⟨⟨{ packing [sparseWord] with sched := [.tick .enc] }, rfl, rfl⟩,
    ⟨{ packing [sparseWord] with sched := [.tick .dec] }, rfl, rfl, rfl⟩, ⟨packing [0], rfl, by decide⟩,
    ⟨State.reset, rfl, rfl, rfl⟩⟩

/-- One FSM step of each block by a tick, and the responses of an empty PACK and of a truncated UNPACK (R106, R143). -/
theorem test_tick_runs_fsm_step :
    (nextState (step { packing [sparseWord] with sched := [.tick .enc] })).map (fun t => t.enc.st) = some .tagOut ∧
    (nextState (step { reading 8 sparseTokens with sched := [.tick (.srd 0)] })).map
      (fun t => t.srd.map fun u => u.regs.st) = some [.bytes] ∧
    (nextState (step { packing [] with sched := [.tick .enc] })).map (fun t => t.encPort.resp) = some [.pack .ok] ∧
    (nextState (step { unpacking [] with dec := { Dec.reset with st := .zcount }, sched := [.tick .dec] })).map
      (fun t => t.decPort.resp) = some [.unpack .trunc] := by decide

/-- A record move where no whole record stands at the cursor. -/
theorem witness_StepRunsRecordAtCursor_none :
    ∃ s : State, s.sched = [.record .dec] ∧ fetchRecord .dec s = none :=
  ⟨{ unpacking [0x24#8] with sched := [.record .dec] }, rfl, by decide⟩

/-- A record move on each block. -/
theorem witness_StepRunsRecordAtCursor :
    (fetchRecord .enc { packing [0, 0, 1] with sched := [.record .enc] } = some (.zrun 1)) ∧
    (fetchRecord .dec { unpacking [0x24#8, 0x0C#8, 0x22#8] with sched := [.record .dec] } =
      some (.sparse 0x24#8 [0x0C#8, 0x22#8])) ∧
    (fetchRecord (.srd 0) { reading 8 sparseTokens with sched := [.record (.srd 0)] } =
      some (.sparse 0x24#8 [0x0C#8, 0x22#8])) ∧
    (Instr.sparse 0x24#8 [0x0C#8, 0x22#8]).wellFormed Config.exampleParams = true := by decide

theorem witness_RecordIsItsFsmSteps :
    ∃ (s : State) (a : Agent) (i : Instr), s.Inv ∧ s.turn = a ∧ fetchRecord a s = some i :=
  ⟨packing [sparseWord, 0], .enc, .sparse 0x24#8 [0x0C#8, 0x22#8], packing_inv, rfl, by decide⟩

/-- ENC, DEC and SRD 0 all have a step. -/
def allBusy : State :=
  { packing [sparseWord] with
    dec := decAccept Dec.reset 8 8
    srd := (reading 8 sparseTokens).srd }

theorem witness_BlocksAreIndependent :
    ∃ s t u v : State, blockStep .enc s = .moves t ∧ blockStep .dec s = .moves u ∧ blockStep (.srd 0) s = .moves v ∧
      encStep s = .moves t ∧ decStep s = .moves u ∧ srdStep 0 s = .moves v :=
  have ⟨t, ht⟩ := moves_of_isSome (b := encStep allBusy) (by decide)
  have ⟨u, hu⟩ := moves_of_isSome (b := decStep allBusy) (by decide)
  have ⟨v, hv⟩ := moves_of_isSome (b := srdStep 0 allBusy) (by decide)
  ⟨allBusy, t, u, v, ht, hu, hv, ht, hu, hv⟩

/-- Two states that differ in another block's registers and agree on what a block's step depends on. -/
theorem witness_BlocksAreIndependent_agreeing :
    (∃ s s' : State, s ≠ s' ∧ s'.enc = s.enc ∧ s'.encPort = s.encPort ∧ s'.params = s.params ∧ s'.mem = s.mem) ∧
    (∃ s s' : State, s ≠ s' ∧ s'.dec = s.dec ∧ s'.decPort = s.decPort ∧ s'.params = s.params ∧ s'.mem = s.mem) ∧
    (∃ (s s' : State) (u : SrdUnit), s ≠ s' ∧ s.srd[0]? = some u ∧ s'.srd[0]? = some u) :=
  ⟨⟨allBusy, { allBusy with dec := Dec.reset }, by decide⟩, ⟨allBusy, { allBusy with enc := Enc.reset }, by decide⟩,
    ⟨allBusy, { allBusy with enc := Enc.reset }, _, by decide, rfl, rfl⟩⟩

theorem witness_OneItemPerStep :
    (∃ s t, encStep s = .moves t) ∧ (∃ s t, decStep s = .moves t) ∧ ∃ u v, srdUnitStep u = some v :=
  have ⟨t, ht⟩ := moves_of_isSome (b := encStep allBusy) (by decide)
  have ⟨u, hu⟩ := moves_of_isSome (b := decStep allBusy) (by decide)
  ⟨⟨_, t, ht⟩, ⟨_, u, hu⟩, (reader sparseTokens).read 8, _, rfl⟩

theorem witness_DeliveredItemsStay :
    ∃ (s t : State) (u : SrdUnit), step s = .next t ∧ s.srd[0]? = some u :=
  have ⟨t, h⟩ := next_of_isSome (o := step allBusy) (by decide)
  ⟨allBusy, t, _, h, rfl⟩

/-- A buffer that ends at the top of the address space. -/
theorem witness_PackIsAccepted :
    ∃ (s : State) (base len : Nat), s.enc.st = .idle ∧ base + len = 2 ^ s.params.aw ∧ len % 8 = 0 :=
  ⟨State.reset, 0xFFF8, 8, by decide⟩

theorem witness_MisalignedPackFaultsUntilReset :
    (∃ (s : State) (base len : Nat), s.enc.st = .idle ∧ base + len = 2 ^ s.params.aw ∧ len % 8 ≠ 0) ∧
    (∃ s t : State, s.enc.st = .fault ∧ (∀ rest, s.sched ≠ .reset :: rest) ∧ step s = .next t) ∧
    (∃ s t : State, (∃ rest, s.sched = .reset :: rest) ∧ step s = .next t) :=
  have ⟨t, h⟩ := next_of_isSome (o := step misaligned) (by decide)
  ⟨⟨State.reset, 0xFFF9, 7, by decide⟩,
    ⟨_, t, rfl, fun _ e => by simp [misaligned, State.takeAlignFault, State.reset, State.resetWith] at e, h⟩,
    ⟨{ misaligned with sched := [.reset] }, _, ⟨[], rfl⟩, rfl⟩⟩

theorem witness_UnpackIsAccepted :
    ∃ (s : State) (base len : Nat), s.dec.st = .idle ∧ base + len = 2 ^ s.params.aw :=
  ⟨State.reset, 0xFFFF, 1, by decide⟩

/-- One byte too many, for both commands. -/
theorem witness_BufferOutsideSpaceIsRefused :
    ∃ (s : State) (base len : Nat), base + len = 2 ^ s.params.aw + 1 ∧ s.enc.st = .idle ∧ s.dec.st = .idle :=
  ⟨State.reset, 0xFFFF, 2, by decide⟩

/-- A unit in the error state. -/
def failed : State := { State.reset with srd := [{ reader [] with regs := srdIoError Srd.reset payload }] }

theorem witness_SinitReinitialisesOneUnit :
    ∃ (s : State) (j : Nat) (u : SrdUnit), s.srd[j]? = some u ∧ u.regs.busy = false ∧ u.regs ≠ Srd.reset :=
  ⟨failed, 0, _, rfl, by decide⟩

/-- The three cases: a terminal state, an empty request, and a request of one byte. -/
theorem witness_SreadAnswersOrOpens :
    (∃ (s : State) (j : Nat) (u : SrdUnit), s.srd[j]? = some u ∧ u.regs.busy = false ∧
      (u.regs.st = .done ∨ u.regs.st = .error)) ∧
    (∀ k ∈ [0, 1], ∃ (s : State) (j : Nat) (u : SrdUnit), s.srd[j]? = some u ∧ u.regs.busy = false ∧
      u.regs.st ≠ .done ∧ u.regs.st ≠ .error ∧ (k = 0 ∨ k ≠ 0)) :=
  ⟨⟨failed, 0, _, rfl, by decide⟩, fun k _ => ⟨State.reset, 0, _, rfl, rfl, by decide, by decide, Nat.eq_zero_or_pos k |>.imp id Nat.ne_of_gt⟩⟩

theorem witness_MissingSrdIsRefused :
    ∃ (s : State) (j : Nat), s.srd.length = s.params.nSrd ∧ s.params.nSrd = j := ⟨State.reset, 1, rfl, rfl⟩

theorem witness_BusyBlocksHoldCommands :
    ∃ (s : State) (u : SrdUnit), s.enc.st ≠ .idle ∧ s.dec.st ≠ .idle ∧ s.srd[0]? = some u ∧ u.regs.busy = true :=
  ⟨allBusy, _, by decide, by decide, rfl, rfl⟩

/-- A tag with one bit and a tag with seven. -/
theorem witness_EncSparseEmitsTagAndBytes :
    (∀ w, (packing [w]).turn = .enc ∧ (packing [w]).enc.st = .fetch ∧ (packing [w]).enc.cur < (packing [w]).enc.nw ∧
      (packing [w]).encPort.sink.readyFor (1 + popCount (tagGen w)) = true) ∧
    tagGen 0x00000000000000AA#64 = 0x01#8 ∧ tagGen 0x8A8A8A8A8A8A8A00#64 = 0xFE#8 :=
  ⟨fun _ => ⟨rfl, rfl, by simp [packing, encAccept], rfl⟩, by decide, by decide⟩

/-- The three ways a run ends: at 256 words, at the end of the input, and before a nonzero word. -/
theorem witness_EncZrunEmitsCount :
    (∃ s : State, s.turn = .enc ∧ s.enc.st = .fetch ∧ s.enc.cur + ((0xFF#8).toNat + 1) ≤ s.enc.nw ∧
      s.encPort.sink.readyFor 2 = true) ∧
    (∃ (s : State) (n : Byte), s.turn = .enc ∧ s.enc.st = .fetch ∧ s.enc.cur + (n.toNat + 1) = s.enc.nw ∧
      s.encPort.sink.readyFor 2 = true) ∧
    (∃ (s : State) (n : Byte) (v : Word), s.turn = .enc ∧ s.enc.st = .fetch ∧ s.enc.cur + (n.toNat + 1) ≤ s.enc.nw ∧
      memReadWord s (s.enc.base + 8 * (s.enc.cur + (n.toNat + 1))) = .ok v ∧ v ≠ 0 ∧
      s.encPort.sink.readyFor 2 = true) :=
  ⟨⟨{ State.reset with enc := encAccept Enc.reset 8 2056 }, by decide⟩, ⟨packing [0], 0, by decide⟩,
    ⟨packing [0, 1], 0, 1, rfl, rfl, by decide, rfl, by decide, rfl⟩⟩

/-- A literal run of two words, ended by the end of the input and by a word with two zero bytes. -/
theorem witness_EncLrunEmitsWordsVerbatim :
    (∀ ws ∈ [[fullWord, fullWord], [fullWord, fullWord, 0x8A8A8A8A8A8A0000#64]],
      (packing ws).turn = .enc ∧ (packing ws).enc.st = .fetch ∧ (packing ws).enc.cur + 2 ≤ (packing ws).enc.nw ∧
      (packing ws).encPort.sink.readyFor 18 = true) ∧
    tagGen fullWord = 0xFF#8 ∧ continuesLiteral fullWord = true ∧
    (packing [fullWord, fullWord]).enc.cur + 2 = (packing [fullWord, fullWord]).enc.nw ∧
    memReadWord (packing [fullWord, fullWord, 0x8A8A8A8A8A8A0000#64]) 24 = .ok 0x8A8A8A8A8A8A0000#64 ∧
    continuesLiteral 0x8A8A8A8A8A8A0000#64 = false :=
  ⟨by decide, by decide, by decide, by decide, rfl, by decide⟩

/-- A literal run of 256 words, the longest. -/
theorem witness_EncLrunEmitsWordsVerbatim_longest :
    ∃ (s : State) (raw : List Word), s.turn = .enc ∧ s.enc.st = .fetch ∧ (∀ v ∈ raw, continuesLiteral v = true) ∧
      raw.length = 255 ∧ s.enc.cur + (raw.length + 1) ≤ s.enc.nw ∧
      s.encPort.sink.readyFor (10 + 8 * raw.length) = true := by
  refine ⟨{ State.reset with enc := encAccept Enc.reset 8 2056 }, List.replicate 255 fullWord, rfl, rfl, ?_, ?_, ?_, rfl⟩
  · intro v hv
    rw [List.eq_of_mem_replicate hv]
    decide
  · rw [List.length_replicate]
  · rw [List.length_replicate]
    decide

theorem witness_EncoderEmitsPack :
    ∃ (s : State) (ws : List Word), ws ≠ [] ∧ s.enc.st = .fetch ∧ s.enc.cur = 0 ∧ s.enc.nw = ws.length ∧
      WordsAt s s.enc.base ws ∧ s.encPort.sink.readyFor (packWords ws).length = true := by
  refine ⟨packing [fullWord, 0], [fullWord, 0], by decide, rfl, rfl, rfl, ?_, rfl⟩
  intro i h
  match i, h with
  | 0, _ => rfl
  | 1, _ => rfl

/-- A record that is all there, and one with a byte missing. -/
theorem witness_DecSparseEmitsPlacedWord :
    ∀ bs ∈ [[0x24#8, 0x0C#8, 0x22#8], [0x24#8, 0x0C#8]], (unpacking bs).turn = .dec ∧ (unpacking bs).dec.st = .tag ∧
      (unpacking bs).dec.pos < (unpacking bs).dec.len ∧ (unpacking bs).decPort.sink.readyFor 1 = true ∧
      ((unpacking bs).dec.pos + (1 + popCount 0x24#8) = (unpacking bs).dec.len ∨
        (unpacking bs).dec.len < (unpacking bs).dec.pos + (1 + popCount 0x24#8)) := by decide

theorem witness_DecZrunEmitsZeroWords :
    ∀ bs ∈ [[0x00#8, 0xFF#8], [0x00#8]], (unpacking bs).turn = .dec ∧ (unpacking bs).dec.st = .tag ∧
      (unpacking bs).dec.pos < (unpacking bs).dec.len ∧
      (unpacking bs).decPort.sink.readyFor ((0xFF#8).toNat + 1) = true ∧
      ((unpacking bs).dec.pos + 2 = (unpacking bs).dec.len ∨ (unpacking bs).dec.len < (unpacking bs).dec.pos + 2) := by
  decide

/-- The LRUN of one raw word: complete, ending before its count, and ending in its raw bytes (`m = 0`, `r = 7`). -/
theorem witness_DecLrunEmitsSeedAndRawWords :
    ∀ n ∈ [18, 9, 17], (unpacking (List.replicate n 0xFF#8)).turn = .dec ∧
      (unpacking (List.replicate n 0xFF#8)).dec.st = .tag ∧
      (unpacking (List.replicate n 0xFF#8)).dec.pos < (unpacking (List.replicate n 0xFF#8)).dec.len ∧
      (unpacking (List.replicate n 0xFF#8)).decPort.sink.readyFor ([fullWord].length + 1) = true ∧
      (unpacking (List.replicate n 0xFF#8)).dec.len = n := by decide

theorem witness_ExhaustedInputTruncates :
    ∀ x ∈ [DecSt.sparse, .zcount, .seed, .lcount, .lraw],
      ∃ s : State, s.dec.pos = s.dec.len ∧ s.dec.st = x :=
  fun x _ => ⟨{ State.reset with dec := { Dec.reset with st := x, pos := 3, len := 3 } }, rfl, rfl⟩

theorem witness_ExhaustedInputAtTagCompletes : ∃ s : State, s.dec.pos = s.dec.len ∧ s.dec.st = .tag :=
  ⟨unpacking [], rfl, rfl⟩

theorem witness_DecoderEmitsUnpack :
    ∃ (s : State) (p : List Byte), p ≠ [] ∧ s.dec.st = .tag ∧ s.dec.pos = 0 ∧ s.dec.len = p.length ∧
      BytesAt s s.dec.base p ∧ s.decPort.sink.readyFor (unpackBytes p).1.length = true := by
  refine ⟨unpacking [0x24#8, 0x0C#8], [0x24#8, 0x0C#8], by decide, rfl, rfl, rfl, ?_, rfl⟩
  intro i h
  match i, h with
  | 0, _ => rfl
  | 1, _ => rfl

/-- An open transaction whose buffer the record just fills. -/
theorem witness_SrdSparseDeliversPlacedWord :
    ∃ (s : State) (u : SrdUnit) (t : Byte) (lits : List Byte) (rest : List Token), s.turn = .srd 0 ∧
      s.srd[0]? = some u ∧ u.regs.st = .tag ∧ u.regs.busy = true ∧ t ≠ 0x00#8 ∧ t ≠ 0xFF#8 ∧ lits.length = popCount t ∧
      u.src = (t :: lits).map Token.byte ++ rest ∧ u.regs.n + 8 = u.regs.K ∧ u.port.sink.readyFor 8 = true :=
  ⟨reading 8 sparseTokens, _, 0x24#8, [0x0C#8, 0x22#8], [.eof], rfl, rfl, by decide⟩

theorem witness_SrdZrunDeliversZeroBytes :
    ∃ (s : State) (u : SrdUnit) (n : Byte) (rest : List Token), s.turn = .srd 0 ∧ s.srd[0]? = some u ∧
      u.regs.st = .tag ∧ u.regs.busy = true ∧ u.src = [.byte 0x00#8, .byte n] ++ rest ∧
      u.regs.n + 8 * (n.toNat + 1) = u.regs.K ∧ u.port.sink.readyFor (8 * (n.toNat + 1)) = true :=
  ⟨reading 2048 [.byte 0x00#8, .byte 0xFF#8], _, 0xFF#8, [], rfl, rfl, rfl, rfl, rfl, rfl, rfl⟩

theorem witness_SrdZrunSuspendsInMidRun :
    ∃ (s : State) (u : SrdUnit) (n : Byte) (rest : List Token), s.turn = .srd 0 ∧ s.srd[0]? = some u ∧
      u.regs.st = .tag ∧ u.regs.busy = true ∧ u.src = [.byte 0x00#8, .byte n] ++ rest ∧ u.regs.n < u.regs.K ∧
      u.regs.K < u.regs.n + 8 * (n.toNat + 1) ∧ u.port.sink.readyFor (u.regs.K - u.regs.n) = true :=
  ⟨reading 2047 [.byte 0x00#8, .byte 0xFF#8], _, 0xFF#8, [], rfl, rfl, by decide⟩

theorem witness_SrdLrunDeliversSeedAndRawBytes :
    ∃ (s : State) (u : SrdUnit) (seed : Word) (raw : List Word) (rest : List Token), s.turn = .srd 0 ∧
      s.srd[0]? = some u ∧ u.regs.st = .tag ∧ u.regs.busy = true ∧ raw ≠ [] ∧ raw.length ≤ 255 ∧
      u.src = (0xFF#8 :: bytesOfWord seed ++ BitVec.ofNat 8 raw.length :: bytesOfWords raw).map Token.byte ++ rest ∧
      u.regs.n + 8 * (raw.length + 1) = u.regs.K ∧ u.port.sink.readyFor (8 * (raw.length + 1)) = true :=
  ⟨reading 16 (((0xFF#8 :: List.replicate 8 0x8A#8) ++ 0x01#8 :: List.replicate 8 0x8A#8).map Token.byte), _, fullWord,
    [fullWord], [], rfl, rfl, by decide⟩

theorem witness_EndInsideRecordTruncatesStream :
    ∀ x ∈ [SrdSt.bytes, .zeroCount, .litWord, .litCount, .emitLiterals],
      ∃ (u : SrdUnit) (rest : List Token), u.regs.busy = true ∧ u.regs.errv = none ∧ u.src = .eof :: rest ∧ u.regs.st = x :=
  fun x _ => ⟨{ reader [.eof] with regs := { Srd.reset with busy := true, K := 8, st := x } }, [], rfl, rfl, rfl, rfl⟩

theorem witness_SourceErrorIsReportedVerbatim :
    ∀ x ∈ [SrdSt.tag, .bytes, .zeroCount, .litWord, .litCount, .emitLiterals],
      ∃ (u : SrdUnit) (e : Config.ErrT) (rest : List Token), u.regs.busy = true ∧ u.src = .err e :: rest ∧ u.regs.st = x :=
  fun x _ => ⟨{ reader [.err payload] with regs := { Srd.reset with busy := true, K := 8, st := x } }, payload, [], rfl, rfl, rfl⟩

theorem witness_TerminalStateIsLeftOnlyByInit :
    ∃ (s t : State) (u : SrdUnit), s.srd[0]? = some u ∧ u.regs.isTerminal = true ∧ u.regs.busy = false ∧
      step s = .next t :=
  have ⟨t, h⟩ := next_of_isSome (o := step failed) (by decide)
  ⟨failed, t, _, rfl, by decide, by decide, h⟩

theorem witness_SreadWorkIsBounded :
    ∃ (p : Params) (u : SrdUnit), SrdInv p u.regs ∧ u.regs.busy = true ∧ u.regs.n = 0 :=
  ⟨Config.exampleParams, (reader sparseTokens).read 8,
    ⟨by decide, by decide, by decide, by decide, by decide, by decide, by decide, by decide, by decide, by decide,
      by decide⟩, by decide, by decide⟩

theorem witness_StreamDeliversUnpack :
    ∃ (u : SrdUnit) (p : List Byte) (after : List Token) (ks : List Nat), u.regs = Srd.reset ∧
      u.src = p.map Token.byte ++ terminalToken none :: after ∧ u.port.sink = .always ∧ ks ≠ [] ∧ ∀ k ∈ ks, 1 ≤ k :=
  ⟨reader sparseTokens, [0x24#8, 0x0C#8, 0x22#8], [], [5, 5], rfl, rfl, rfl, by decide⟩

/-- `allBusy` with consumers that accept nothing, and ENC, DEC and SRD 0 in given states. -/
def blocked (e : EncSt) (d : DecSt) (r : SrdSt) : State :=
  { allBusy with
    enc := { allBusy.enc with st := e }
    dec := { allBusy.dec with st := d, T := 1 }
    srd := [{ (reader sparseTokens) with
              regs := { Srd.reset with st := r, busy := true, K := 8 }
              port := { Port.fresh Byte with sink := .slots 0 } }]
    encPort := { Port.fresh Byte with sink := .slots 0 }
    decPort := { Port.fresh Word with sink := .slots 0 } }

/-- Blocks that step without emitting, and blocks in each of the emitting states, the byte or word they read there. -/
theorem witness_UnreadyConsumerBlocksOutput :
    (∃ s t, s.encPort.sink.ready = false ∧ encStep s = .moves t) ∧
    (∃ s t, s.decPort.sink.ready = false ∧ decStep s = .moves t) ∧
    (∃ u v, u.port.sink.ready = false ∧ srdUnitStep u = some v) ∧
    (∀ e d r, (blocked e d r).encPort.sink.ready = false ∧ (blocked e d r).enc.st = e ∧
      (blocked e d r).decPort.sink.ready = false ∧ (blocked e d r).dec.st = d ∧
      ∃ u, (blocked e d r).srd = [u] ∧ u.port.sink.ready = false ∧ u.regs.st = r ∧ u.src = sparseTokens) ∧
    (∀ e d r, (blocked e d r).enc.cur < (blocked e d r).enc.nw ∧ (blocked e d r).enc.scan < (blocked e d r).enc.nw ∧
      (blocked e d r).enc.cnt ≠ 255 ∧ (blocked e d r).dec.pos ≠ (blocked e d r).dec.len ∧
      (blocked e d r).dec.k.toNat + 1 = popCount (blocked e d r).dec.T ∧
      memReadWord (blocked e d r) 8 = .ok sparseWord ∧ memReadByte (blocked e d r) 8 = .ok 0) ∧
    sparseWord ≠ 0 ∧ continuesLiteral sparseWord = false :=
  have ⟨t, ht⟩ := moves_of_isSome (b := encStep (blocked .fetch .tag .tag)) (by decide)
  have ⟨u, hu⟩ := moves_of_isSome (b := decStep (blocked .fetch .tag .tag)) (by decide)
  ⟨⟨_, t, rfl, ht⟩, ⟨_, u, rfl, hu⟩,
    ⟨{ (reader sparseTokens).read 8 with port := { Port.fresh Byte with sink := .slots 0 } }, _, rfl, rfl⟩,
    fun _ _ _ => ⟨rfl, rfl, rfl, rfl, _, rfl, rfl, rfl, rfl⟩,
    fun _ _ _ => ⟨Nat.zero_lt_one, Nat.zero_lt_one, by simp [blocked, allBusy, packing, encAccept, Enc.reset],
      Nat.ne_of_lt (by decide : 0 < 8), (by decide : 0 + 1 = popCount 1), rfl, rfl⟩, by decide, by decide⟩

/-- The ends of the scans, and the last byte of a raw word. -/
theorem witness_UnreadyConsumerBlocksOutput_ends :
    (∀ st ∈ [EncSt.zscan, .lscan], ∃ s : State, s.encPort.sink.ready = false ∧ s.enc.st = st ∧
      s.enc.nw = s.enc.cur ∧ s.enc.nw = s.enc.scan) ∧
    (∃ s : State, s.decPort.sink.ready = false ∧ s.dec.st = .lraw ∧ s.dec.k = 7 ∧ s.dec.pos ≠ s.dec.len ∧
      memReadByte s (s.dec.base + s.dec.pos) = .ok 0) :=
  ⟨fun st _ => ⟨{ blocked st .tag .tag with enc := { allBusy.enc with st := st, cur := 1, scan := 1 } }, rfl, rfl, rfl, rfl⟩,
    ⟨{ blocked .idle .lraw .tag with dec := { allBusy.dec with st := .lraw, k := 7 } }, rfl, rfl, rfl,
      Nat.ne_of_lt (by decide : 0 < 8), rfl⟩⟩

theorem witness_EmptySourceBlocksRead :
    ∃ (s : State) (u : SrdUnit), s.srd[0]? = some u ∧ u.src = [] ∧ u.regs.st = .tag ∧ u.regs.busy = true :=
  ⟨reading 8 [], _, rfl, rfl, rfl, rfl⟩

theorem witness_IssuedCommandWaitsOnItsChannel :
    ∃ (s : State) (i : Instr) (a : Agent) (rest : List Move), i.wellFormed s.params = true ∧ commandAgent i = some a ∧
      agentExists a s = true ∧ s.sched = .issue (encodeCommand s.params i) :: rest :=
  ⟨{ State.reset with sched := [.issue 0x17] }, .sread 0 5, .srd 0, [], rfl, rfl, rfl, rfl⟩

theorem witness_DeliveryIsPartitionIndependent :
    ∃ (p : Params) (u : SrdUnit) (ks : List Nat), SrdInv p u.regs ∧ u.regs.busy = false ∧ u.port.sink = .always ∧
      ks.length = 2 ∧ ∀ k ∈ ks, 1 ≤ k :=
  ⟨Config.exampleParams, reader sparseTokens, [3, 5],
    ⟨by decide, by decide, by decide, by decide, by decide, by decide, by decide, by decide, by decide, by decide,
      by decide⟩, by decide, by decide, by decide, by decide⟩

/-- A lane at each end of the word. -/
theorem witness_TagMarksNonzeroBytes : ∀ i ∈ [0, 7], i < 8 := by decide

/-- The lowest and the highest rank of a tag with two bits, and two neighbouring ranks. -/
theorem witness_TagRomListsSetBits :
    0 < popCount 0x24#8 ∧ 1 < popCount 0x24#8 ∧ 0 + 1 < popCount 0x24#8 ∧ (0x24#8).getLsbD 5 = true ∧ rank 0x24#8 5 = 1 := by
  decide

theorem witness_PlaceUndoesCompact : [0x0C#8, 0x22#8].length = popCount 0x24#8 ∧ 7 < 8 := by decide

theorem witness_HostTokenAppendsOneToken :
    ∃ (s : State) (tok : Token) (u : SrdUnit), s.sched = [.token 0 tok] ∧ s.srd[0]? = some u :=
  ⟨{ allBusy with sched := [.token 0 (.err payload)] }, _, _, rfl, rfl⟩

/-- The consumer of each block. -/
theorem witness_HostSinkChangesConsumerAlone :
    ∀ a ∈ [Agent.enc, .dec, .srd 0], ∃ (s : State) (u : SrdUnit), s.sched = [.sink a (.slots 3)] ∧ s.srd[0]? = some u :=
  fun a _ => ⟨{ allBusy with sched := [.sink a (.slots 3)] }, _, rfl, rfl⟩

end Sys2Proof.Tests
end

section
/-! The status registers of R31. Each of the three is one byte of the same layout, two upper fields over BUSY
and the state code; the fields are read once from that layout, and then named for each register. -/

namespace Sys2Proof.Proofs

open Sys2Proof Sys2Proof.Machine

@[simp] theorem bit_getLsbD_zero (b : Bool) : (bit b).getLsbD 0 = b := by
  simp [bit]

section StatusLayout

variable {p q : Nat} (hi : BitVec p) (mid : BitVec q) (busy : Bool) (code : BitVec 4)

theorem statusLayout_code : ((hi ++ mid) ++ (bit busy ++ code)).extractLsb' 0 4 = code := by
  rw [BitVec.extractLsb'_append_eq_of_add_le (by decide), BitVec.extractLsb'_append_eq_right]

theorem statusLayout_busy : ((hi ++ mid) ++ (bit busy ++ code)).getLsbD 4 = busy := by
  rw [BitVec.getLsbD_append, if_pos (by decide), BitVec.getLsbD_append, if_neg (by decide)]
  exact bit_getLsbD_zero busy

theorem statusLayout_mid : ((hi ++ mid) ++ (bit busy ++ code)).extractLsb' 5 q = mid := by
  rw [BitVec.extractLsb'_append_eq_of_le (by decide), BitVec.extractLsb'_append_eq_right]

theorem statusLayout_hi : ((hi ++ mid) ++ (bit busy ++ code)).extractLsb' (5 + q) p = hi := by
  rw [BitVec.extractLsb'_append_eq_of_le (by omega), Nat.add_sub_cancel_left,
    BitVec.extractLsb'_append_eq_left]

/-- Above BUSY and the state code stand the bits of the two upper fields. -/
theorem statusLayout_upper_bit (i : Nat) :
    ((hi ++ mid) ++ (bit busy ++ code)).getLsbD (5 + i) = (hi ++ mid).getLsbD i := by
  rw [BitVec.getLsbD_append, if_neg (by omega), Nat.add_sub_cancel_left]

theorem statusLayout_reserved_bit (mid : BitVec 2) :
    ((0#1 ++ mid) ++ (bit busy ++ code)).getLsbD 7 = false :=
  calc ((0#1 ++ mid) ++ (bit busy ++ code)).getLsbD 7
    _ = (0#1 ++ mid).getLsbD 2 := statusLayout_upper_bit 0#1 mid busy code 2
    _ = (0#1).getLsbD 0 := by rw [BitVec.getLsbD_append, if_neg (by decide)]
    _ = false := rfl

end StatusLayout

section EncStatus

variable (e : Enc)

theorem enc_isBusy_iff : e.isBusy = true ↔ e.st ≠ .idle ∧ e.st ≠ .fault := by
  simp [Enc.isBusy]

theorem encStatus_code : (encStatus e).extractLsb' 0 4 = e.st.code :=
  statusLayout_code 0#2 (bit e.fault) e.isBusy e.st.code

theorem encStatus_busy : (encStatus e).getLsbD 4 = e.isBusy :=
  statusLayout_busy 0#2 (bit e.fault) e.isBusy e.st.code

theorem encStatus_fault : (encStatus e).getLsbD 5 = e.fault :=
  calc (encStatus e).getLsbD 5
    _ = (0#2 ++ bit e.fault).getLsbD 0 := statusLayout_upper_bit 0#2 (bit e.fault) e.isBusy e.st.code 0
    _ = (bit e.fault).getLsbD 0 := by rw [BitVec.getLsbD_append, if_pos (by decide)]
    _ = e.fault := bit_getLsbD_zero e.fault

theorem encStatus_reserved : (encStatus e).extractLsb' 6 2 = 0 :=
  statusLayout_hi 0#2 (bit e.fault) e.isBusy e.st.code

end EncStatus

section DecStatus

variable (d : Dec)

theorem dec_isBusy_iff : d.isBusy = true ↔ d.st ≠ .idle := by
  simp [Dec.isBusy]

theorem decStatus_code : (decStatus d).extractLsb' 0 4 = d.st.code :=
  statusLayout_code 0#1 d.last.code d.isBusy d.st.code

theorem decStatus_busy : (decStatus d).getLsbD 4 = d.isBusy :=
  statusLayout_busy 0#1 d.last.code d.isBusy d.st.code

theorem decStatus_last : (decStatus d).extractLsb' 5 2 = d.last.code :=
  statusLayout_mid 0#1 d.last.code d.isBusy d.st.code

theorem decStatus_reserved : (decStatus d).getLsbD 7 = false :=
  statusLayout_reserved_bit d.isBusy d.st.code d.last.code

end DecStatus

section SrdStatus

variable (r : Srd)

theorem srdStatus_code : (srdStatus r).extractLsb' 0 4 = r.st.code :=
  statusLayout_code 0#1 r.term.code r.busy r.st.code

theorem srdStatus_busy : (srdStatus r).getLsbD 4 = r.busy :=
  statusLayout_busy 0#1 r.term.code r.busy r.st.code

theorem srdStatus_term : (srdStatus r).extractLsb' 5 2 = r.term.code :=
  statusLayout_mid 0#1 r.term.code r.busy r.st.code

theorem srdStatus_reserved : (srdStatus r).getLsbD 7 = false :=
  statusLayout_reserved_bit r.busy r.st.code r.term.code

@[simp] theorem srdErrv_eq : srdErrv r = r.errv := rfl

end SrdStatus

/-- Settles O5: the fields are those of the layout for every register value; the reset values and the code
tables are the fixed values of R31, R22, R24, R26 and R86. -/
theorem statusRegisterFields : Obligations.StatusRegisterFields := by
  unfold Obligations.StatusRegisterFields
  refine ⟨fun e => ?enc, fun d => ?dec, fun r => ?srd, ?constants⟩
  case enc =>
    have hbusy : (encStatus e).getLsbD 4 = true ↔ e.st ≠ .idle ∧ e.st ≠ .fault := by
      rw [encStatus_busy, enc_isBusy_iff]
    exact ⟨encStatus_code e, hbusy, encStatus_fault e, encStatus_reserved e⟩
  case dec =>
    have hbusy : (decStatus d).getLsbD 4 = true ↔ d.st ≠ .idle := by
      rw [decStatus_busy, dec_isBusy_iff]
    exact ⟨decStatus_code d, hbusy, decStatus_last d, decStatus_reserved d⟩
  case srd =>
    exact ⟨srdStatus_code r, srdStatus_busy r, srdStatus_term r, srdStatus_reserved r, srdErrv_eq r⟩
  case constants =>
    exact ⟨rfl, rfl, rfl, rfl, rfl, rfl, rfl, rfl, rfl⟩

end Sys2Proof.Proofs
end

section
/-! The independence of the blocks (R62). Each block's step is a function of its own registers and channels, the
parameters and the source buffer: where two states agree on these, the step in one is the step in the other, with
the block's part of the result put into its own state. The frame of a step and the commutation of two steps are
consequences of that one fact. -/

namespace Sys2Proof.Proofs

open Sys2Proof Sys2Proof.Machine

/-! ### A block's part of the state -/

/-- The SRD units `us` with unit `j` replaced by the one of `vs`, if `vs` has one. -/
def takeUnit (j : Nat) (us vs : List SrdUnit) : List SrdUnit :=
  match vs[j]? with
  | none => us
  | some v => us.set j v

/-- The state `s` with the registers and channels of block `a` as they are in `t`. -/
def takeBlock (a : Agent) (s t : State) : State :=
  match a with
  | .enc => { s with enc := t.enc, encPort := t.encPort }
  | .dec => { s with dec := t.dec, decPort := t.decPort }
  | .srd j => { s with srd := takeUnit j s.srd t.srd }

/-- Two states agree on what a step of block `a` depends on (R62): its registers and channels, and for the blocks
that read the source buffer also the parameters and the memory. -/
def AgreeOn (a : Agent) (s s' : State) : Prop :=
  match a with
  | .enc => s'.enc = s.enc ∧ s'.encPort = s.encPort ∧ s'.params = s.params ∧ s'.mem = s.mem
  | .dec => s'.dec = s.dec ∧ s'.decPort = s.decPort ∧ s'.params = s.params ∧ s'.mem = s.mem
  | .srd j => s'.srd[j]? = s.srd[j]?

/-- Every block agrees with itself. -/
theorem agreeOn_refl (a : Agent) (s : State) : AgreeOn a s s := by
  cases a with
  | enc => exact ⟨rfl, rfl, rfl, rfl⟩
  | dec => exact ⟨rfl, rfl, rfl, rfl⟩
  | srd j => exact rfl

theorem takeUnit_of_some {j : Nat} {vs : List SrdUnit} {v : SrdUnit} (us : List SrdUnit) (h : vs[j]? = some v) :
    takeUnit j us vs = us.set j v := by
  simp [takeUnit, h]

theorem takeUnit_getElem?_ne {j k : Nat} (h : j ≠ k) (us vs : List SrdUnit) : (takeUnit j us vs)[k]? = us[k]? := by
  cases hv : vs[j]? with
  | none => simp [takeUnit, hv]
  | some v => rw [takeUnit_of_some us hv, List.getElem?_set_ne h]

theorem takeUnit_comm {j k : Nat} (h : j ≠ k) (us vs ws : List SrdUnit) :
    takeUnit k (takeUnit j us vs) ws = takeUnit j (takeUnit k us ws) vs := by
  unfold takeUnit
  split
  · rfl
  · split
    · rfl
    · exact List.set_comm _ _ h

/-- What another block's step depends on stays when block `a`'s part of the state is replaced. -/
theorem agreeOn_takeBlock (s t : State) : ∀ {a b : Agent}, a ≠ b → AgreeOn b s (takeBlock a s t)
  | .enc, .enc, h => absurd rfl h
  | .dec, .dec, h => absurd rfl h
  | .srd _, .srd _, h => takeUnit_getElem?_ne (fun e => h (congrArg Agent.srd e)) s.srd t.srd
  | .enc, .dec, _ | .srd _, .dec, _ | .dec, .enc, _ | .srd _, .enc, _ => ⟨rfl, rfl, rfl, rfl⟩
  | .enc, .srd _, _ | .dec, .srd _, _ => rfl

/-- The parts of different blocks are replaced in either order. -/
theorem takeBlock_comm (s t u : State) : ∀ {a b : Agent}, a ≠ b →
    takeBlock b (takeBlock a s t) u = takeBlock a (takeBlock b s u) t
  | .enc, .enc, h => absurd rfl h
  | .dec, .dec, h => absurd rfl h
  | .srd _, .srd _, h =>
    congrArg (fun us => { s with srd := us }) (takeUnit_comm (fun e => h (congrArg Agent.srd e)) s.srd t.srd u.srd)
  | .enc, .dec, _ | .enc, .srd _, _ | .dec, .enc, _ | .dec, .srd _, _ | .srd _, .enc, _ | .srd _, .dec, _ => rfl

/-! ### A step carried into another state -/

/-- A block's step with the state it moves to changed by `g`. -/
def mapMoves (g : State → State) : BlockStep → BlockStep
  | .waits => .waits
  | .moves t => .moves (g t)
  | .faults f => .faults f

@[simp] theorem mapMoves_waits (g : State → State) : mapMoves g .waits = .waits := rfl
@[simp] theorem mapMoves_moves (g : State → State) (t : State) : mapMoves g (.moves t) = .moves (g t) := rfl
@[simp] theorem mapMoves_faults (g : State → State) (f : Fault) : mapMoves g (.faults f) = .faults f := rfl

theorem mapMoves_ofRead {α : Type} (g : State → State) (r : Except Fault α) (k : α → BlockStep) :
    mapMoves g (.ofRead r k) = .ofRead r fun a => mapMoves g (k a) := by
  cases r <;> rfl

/-- ENC commits an effect to its own port alone. -/
theorem commitEnc_of_agree {s s' : State} (hport : s'.encPort = s.encPort) (e : Effect Enc Byte) :
    s'.commitEnc e = mapMoves (takeBlock .enc s') (s.commitEnc e) := by
  unfold State.commitEnc
  rw [hport]
  cases s.encPort.commit e.emit e.resp <;> rfl

/-- DEC commits an effect to its own port alone. -/
theorem commitDec_of_agree {s s' : State} (hport : s'.decPort = s.decPort) (e : Effect Dec Word) :
    s'.commitDec e = mapMoves (takeBlock .dec s') (s.commitDec e) := by
  unfold State.commitDec
  rw [hport]
  cases s.decPort.commit e.emit e.resp <;> rfl

theorem encWord_of_agree {s s' : State} (h : AgreeOn .enc s s') (supply : Nat → Option Word) (i : Nat) :
    encWord supply s' i = encWord supply s i := by
  obtain ⟨hregs, -, hparams, hmem⟩ := h
  simp only [encWord, memReadWord, hregs, memRead_congr s s' hparams hmem]

theorem encByte_of_agree {s s' : State} (h : AgreeOn .enc s s') (supply : Nat → Option Word) (i k : Nat) :
    encByte supply s' i k = encByte supply s i k := by
  obtain ⟨hregs, -, hparams, hmem⟩ := h
  simp only [encByte, memReadByte, hregs, memRead_congr s s' hparams hmem]

theorem decByte_of_agree {s s' : State} (h : AgreeOn .dec s s') (supply : Nat → Option Byte) :
    decByte supply s' = decByte supply s := by
  obtain ⟨hregs, -, hparams, hmem⟩ := h
  simp only [decByte, memReadByte, hregs, memRead_congr s s' hparams hmem]

/-- A step of ENC in a state that agrees on ENC: the same reads, and the same effects committed. -/
theorem encStepFrom_of_agree {s s' : State} (h : AgreeOn .enc s s') (supply : Nat → Option Word) :
    encStepFrom supply s' = mapMoves (takeBlock .enc s') (encStepFrom supply s) := by
  have ⟨hregs, hport, _, _⟩ := h
  have hcommit := fun e => commitEnc_of_agree hport e
  unfold encStepFrom
  simp only [hregs, hcommit, encWord_of_agree h, encByte_of_agree h]
  cases s.enc.st with
  | idle | fault => rfl
  | tagOut | sparse | seed => rfl
  | fetch | zscan | lscan =>
    dsimp only
    split <;> simp only [mapMoves_ofRead]
  | lcopy => simp only [mapMoves_ofRead]

/-- A consuming step of DEC in a state that agrees on DEC. -/
theorem decConsume_of_agree {s s' : State} (h : AgreeOn .dec s s') (supply : Nat → Option Byte)
    (atEnd : Effect Dec Word) (rule : Dec → Byte → Effect Dec Word) :
    decConsume supply s' atEnd rule = mapMoves (takeBlock .dec s') (decConsume supply s atEnd rule) := by
  have ⟨hregs, hport, _, _⟩ := h
  have hcommit := fun e => commitDec_of_agree hport e
  unfold decConsume
  simp only [hregs, hcommit, decByte_of_agree h]
  split <;> simp only [mapMoves_ofRead]

/-- A step of DEC in a state that agrees on DEC. -/
theorem decStepFrom_of_agree {s s' : State} (h : AgreeOn .dec s s') (supply : Nat → Option Byte) :
    decStepFrom supply s' = mapMoves (takeBlock .dec s') (decStepFrom supply s) := by
  have ⟨hregs, hport, _, _⟩ := h
  unfold decStepFrom
  simp only [hregs]
  cases s.dec.st with
  | idle => rfl
  | zemit => exact commitDec_of_agree hport _
  | tag | sparse | zcount | seed | lcount | lraw => exact decConsume_of_agree h supply _ _

/-- An SRD number with no unit has no step. -/
theorem srdStep_of_no_unit {j : Nat} {s : State} (h : s.srd[j]? = none) : srdStep j s = .waits := by
  simp [srdStep, h]

/-- SRD `j` waits where its unit has no step. -/
theorem srdStep_of_unit_waits {j : Nat} {s : State} {u : SrdUnit} (hu : s.srd[j]? = some u)
    (hstep : srdUnitStep u = none) : srdStep j s = .waits := by
  simp [srdStep, hu, hstep]

/-- SRD `j` moves as its unit does. -/
theorem srdStep_of_unit_moves {j : Nat} {s : State} {u v : SrdUnit} (hu : s.srd[j]? = some u)
    (hstep : srdUnitStep u = some v) : srdStep j s = .moves (s.setSrd j v) := by
  simp [srdStep, hu, hstep]

/-- Where unit `j` exists, taking block `.srd j`'s part of a state whose unit `j` was set is setting the unit. -/
theorem takeBlock_setSrd {j : Nat} {s : State} {u : SrdUnit} (hu : s.srd[j]? = some u) (s' : State) (v : SrdUnit) :
    takeBlock (.srd j) s' (s.setSrd j v) = s'.setSrd j v := by
  obtain ⟨hj, -⟩ := List.getElem?_eq_some_iff.mp hu
  have hv : (s.srd.set j v)[j]? = some v := List.getElem?_set_self hj
  exact congrArg (fun us => { s' with srd := us }) (takeUnit_of_some s'.srd hv)

/-- A step of SRD `j` in a state that agrees on its unit. -/
theorem srdStep_of_agree {j : Nat} {s s' : State} (h : AgreeOn (.srd j) s s') :
    srdStep j s' = mapMoves (takeBlock (.srd j) s') (srdStep j s) := by
  have hunit : s'.srd[j]? = s.srd[j]? := h
  cases hu : s.srd[j]? with
  | none => rw [srdStep_of_no_unit hu, srdStep_of_no_unit (hunit.trans hu), mapMoves_waits]
  | some u =>
    have hu' : s'.srd[j]? = some u := hunit.trans hu
    cases hstep : srdUnitStep u with
    | none => rw [srdStep_of_unit_waits hu hstep, srdStep_of_unit_waits hu' hstep, mapMoves_waits]
    | some v =>
      rw [srdStep_of_unit_moves hu hstep, srdStep_of_unit_moves hu' hstep, mapMoves_moves, takeBlock_setSrd hu]

/-! ### Dependence, frame and commutation -/

/-- R62, the one fact behind it: in a state that agrees on what the block's step depends on, the step is the same
one, and its result is put into that state. -/
theorem blockStep_of_agree {a : Agent} {s s' : State} (h : AgreeOn a s s') :
    blockStep a s' = mapMoves (takeBlock a s') (blockStep a s) := by
  cases a with
  | enc => exact encStepFrom_of_agree h _
  | dec => exact decStepFrom_of_agree h _
  | srd j => exact srdStep_of_agree h

/-- The frame of a step: it changes its own block's part of the state alone. -/
theorem blockStep_frame {a : Agent} {s t : State} (h : blockStep a s = .moves t) : t = takeBlock a s t := by
  have hself := blockStep_of_agree (agreeOn_refl a s)
  rw [h, mapMoves_moves] at hself
  exact BlockStep.moves.inj hself

/-- The step of another block after one of `a`: it does what it would have done before. -/
theorem blockStep_after {a b : Agent} {s t u : State} (hab : a ≠ b) (ha : blockStep a s = .moves t)
    (hb : blockStep b s = .moves u) : blockStep b t = .moves (takeBlock b (takeBlock a s t) u) := by
  have hagree : AgreeOn b s t := blockStep_frame ha ▸ agreeOn_takeBlock s t hab
  rw [blockStep_of_agree hagree, hb, mapMoves_moves, ← blockStep_frame ha]

/-- Steps of different blocks commute. -/
theorem blockStep_comm {a b : Agent} {s t u : State} (hab : a ≠ b) (ha : blockStep a s = .moves t)
    (hb : blockStep b s = .moves u) : ∃ v, blockStep b t = .moves v ∧ blockStep a u = .moves v :=
  ⟨_, blockStep_after hab ha hb, takeBlock_comm s t u hab ▸ blockStep_after hab.symm hb ha⟩

/-- In two states that agree on what a block's step depends on, it waits in both, faults alike in both, or moves
in both and leaves the same part behind. -/
theorem blockStep_agree_cases {a : Agent} {s s' : State} (h : AgreeOn a s s') :
    (blockStep a s = .waits ∧ blockStep a s' = .waits) ∨
    (∃ f, blockStep a s = .faults f ∧ blockStep a s' = .faults f) ∨
    ∃ t, blockStep a s = .moves (takeBlock a s t) ∧ blockStep a s' = .moves (takeBlock a s' t) := by
  have hcarry := blockStep_of_agree h
  cases hstep : blockStep a s with
  | waits => exact .inl ⟨rfl, by rw [hcarry, hstep, mapMoves_waits]⟩
  | faults f => exact .inr (.inl ⟨f, rfl, by rw [hcarry, hstep, mapMoves_faults]⟩)
  | moves t =>
    exact .inr (.inr ⟨t, congrArg _ (blockStep_frame hstep), by rw [hcarry, hstep, mapMoves_moves]⟩)

/-- An SRD's step changes no other unit. -/
theorem srdStep_frame {j : Nat} {s t : State} (h : srdStep j s = .moves t) :
    t = { s with srd := t.srd } ∧ ∀ k, k ≠ j → t.srd[k]? = s.srd[k]? := by
  obtain ⟨u, v, -, -, rfl⟩ := srdStep_moves j s t h
  exact ⟨rfl, fun k hk => List.getElem?_set_ne hk.symm⟩

/-- Two states that hold the same unit `j`: an SRD reads nothing else, and never faults. -/
theorem srdStep_agree_cases {j : Nat} {s s' : State} {u : SrdUnit} (hu : s.srd[j]? = some u)
    (hu' : s'.srd[j]? = some u) :
    (srdStep j s = .waits ∧ srdStep j s' = .waits) ∨
    ∃ v, srdStep j s = .moves (s.setSrd j v) ∧ srdStep j s' = .moves (s'.setSrd j v) := by
  cases hstep : srdUnitStep u with
  | none => exact .inl ⟨srdStep_of_unit_waits hu hstep, srdStep_of_unit_waits hu' hstep⟩
  | some v => exact .inr ⟨v, srdStep_of_unit_moves hu hstep, srdStep_of_unit_moves hu' hstep⟩

/-- Settles O25: frame, commutation and dependence of a block's step, all from `blockStep_of_agree`. -/
theorem blocksAreIndependent : Obligations.BlocksAreIndependent := by
  unfold Obligations.BlocksAreIndependent
  refine ⟨fun s t h => ?encFrame, fun s t h => ?decFrame, fun j s t h => ?srdFrame,
    fun a b s t u hab ha hb => ?commute, fun s s' hregs hport hparams hmem => ?encDepends,
    fun s s' hregs hport hparams hmem => ?decDepends, fun s s' j u hu hu' => ?srdDepends⟩
  case encFrame => exact blockStep_frame (a := .enc) h
  case decFrame => exact blockStep_frame (a := .dec) h
  case srdFrame => exact srdStep_frame h
  case commute => exact blockStep_comm hab ha hb
  case encDepends =>
    have hagree : AgreeOn .enc s s' := ⟨hregs, hport, hparams, hmem⟩
    exact (blockStep_agree_cases hagree).imp_right (.imp_right fun ⟨t, h, h'⟩ => ⟨t.enc, t.encPort, h, h'⟩)
  case decDepends =>
    have hagree : AgreeOn .dec s s' := ⟨hregs, hport, hparams, hmem⟩
    exact (blockStep_agree_cases hagree).imp_right (.imp_right fun ⟨t, h, h'⟩ => ⟨t.dec, t.decPort, h, h'⟩)
  case srdDepends => exact srdStep_agree_cases hu hu'

end Sys2Proof.Proofs
end

section
/-! The range check of PACK and UNPACK (R60): on an idle block it comes before everything else (R207). -/

namespace Sys2Proof.Proofs

open Sys2Proof Sys2Proof.Machine

theorem fits_eq_false_iff (p : Params) (base len : Nat) : Params.fits p base len = false ↔ 2 ^ p.aw < base + len :=
  decide_eq_false_iff_not.trans Nat.not_le

theorem execPack_of_not_fits {s : State} {base len : Nat} (hidle : s.enc.st = .idle)
    (hfit : Params.fits s.params base len = false) : execPack base len s = .refused .range := by
  simp [execPack, hidle, hfit]

theorem execUnpack_of_not_fits {s : State} {base len : Nat} (hidle : s.dec.st = .idle)
    (hfit : Params.fits s.params base len = false) : execUnpack base len s = .refused .range := by
  simp [execUnpack, hidle, hfit]

/-- Settles O33: the buffer does not fit, and the range check of either command sees it first. -/
theorem bufferOutsideSpaceIsRefused : Obligations.BufferOutsideSpaceIsRefused := by
  unfold Obligations.BufferOutsideSpaceIsRefused
  intro s base len hout
  have hfit : Params.fits s.params base len = false := (fits_eq_false_iff s.params base len).mpr hout
  exact ⟨fun hidle => execPack_of_not_fits hidle hfit, fun hidle => execUnpack_of_not_fits hidle hfit⟩

end Sys2Proof.Proofs
end

section
/-! The tag bitmap and the tag ROM (R71, R76). The tag's bits are read once from its fold over the lanes. `RANK`
grows with the bit index, and strictly across a set bit: from that come the existence and the uniqueness of the bit
of a given rank, and the order of `POS`. -/

namespace Sys2Proof.Proofs

open Sys2Proof Sys2Proof.Machine

/-! ### The tag bitmap -/

/-- The fold of `tagGen` over the lanes below `n` alone. -/
def tagBelow (w : Word) (n : Nat) : Byte :=
  (List.range n).foldl (fun t i => if lane w i = 0 then t else t ||| (1#8 <<< i)) 0

theorem tagGen_eq_tagBelow (w : Word) : tagGen w = tagBelow w 8 := rfl

@[simp] theorem tagBelow_zero (w : Word) : tagBelow w 0 = 0 := rfl

theorem tagBelow_succ (w : Word) (n : Nat) :
    tagBelow w (n + 1) = if lane w n = 0 then tagBelow w n else tagBelow w n ||| (1#8 <<< n) := by
  simp [tagBelow, List.range_succ]

theorem getLsbD_one_shiftLeft {n i : Nat} (hi : i < 8) : (1#8 <<< n).getLsbD i = decide (i = n) := by
  rw [← BitVec.twoPow_eq, BitVec.getLsbD_twoPow]
  by_cases h : n = i
  · simp [h, hi]
  · simp [h, Ne.symm h]

theorem getLsbD_tagBelow (w : Word) {i : Nat} (hi : i < 8) (n : Nat) :
    (tagBelow w n).getLsbD i = true ↔ i < n ∧ lane w i ≠ 0 := by
  induction n with
  | zero => simp
  | succ n ih =>
    rw [tagBelow_succ, Nat.lt_succ_iff_lt_or_eq]
    by_cases hn : lane w n = 0
    · have hother : lane w i ≠ 0 → i ≠ n := fun hne hin => hne (hin ▸ hn)
      rw [if_pos hn, ih]
      tauto
    · have hset : i = n → lane w i ≠ 0 := fun hin => hin ▸ hn
      rw [if_neg hn, BitVec.getLsbD_or, Bool.or_eq_true, ih, getLsbD_one_shiftLeft hi, decide_eq_true_iff]
      tauto

/-- R71: a bit of the tag is set exactly where the word's byte is nonzero. -/
theorem getLsbD_tagGen (w : Word) {i : Nat} (hi : i < 8) : (tagGen w).getLsbD i = true ↔ lane w i ≠ 0 := by
  rw [tagGen_eq_tagBelow, getLsbD_tagBelow w hi, and_iff_right hi]

/-- Settles O10: the bits are `getLsbD_tagGen`; the rule's example is one word. -/
theorem tagMarksNonzeroBytes : Obligations.TagMarksNonzeroBytes := by
  unfold Obligations.TagMarksNonzeroBytes
  exact ⟨fun w _ hi => getLsbD_tagGen w hi, by decide⟩

/-! ### The tag ROM -/

section TagRom

variable (t : Byte)

@[simp] theorem rank_zero : rank t 0 = 0 := rfl

theorem rank_succ (i : Nat) : rank t (i + 1) = rank t i + (t.getLsbD i).toNat := rfl

theorem popCount_eq_rank : popCount t = rank t 8 := rfl

theorem rank_eq_length_filter (n : Nat) : rank t n = ((List.range n).filter fun i => t.getLsbD i).length := by
  induction n with
  | zero => rfl
  | succ n ih =>
    rw [rank_succ, ih, List.range_succ, List.filter_append, List.length_append]
    cases h : t.getLsbD n <;> simp [h]

theorem rank_mono : Monotone (rank t) :=
  monotone_nat_of_le_succ fun i => Nat.le_add_right (rank t i) _

variable {t}

theorem rank_succ_of_bit {i : Nat} (hbit : t.getLsbD i = true) : rank t (i + 1) = rank t i + 1 := by
  rw [rank_succ, hbit, Bool.toNat_true]

/-- `RANK` grows strictly across a set bit. -/
theorem rank_lt_rank {i j : Nat} (hij : i < j) (hbit : t.getLsbD i = true) : rank t i < rank t j :=
  calc rank t i
    _ < rank t (i + 1) := rank_succ_of_bit hbit ▸ Nat.lt_succ_self _
    _ ≤ rank t j := rank_mono t hij

/-- Set bits of the same rank are the same bit. -/
theorem bit_eq_of_rank_eq {i j : Nat} (hi : t.getLsbD i = true) (hj : t.getLsbD j = true)
    (hrank : rank t i = rank t j) : i = j := by
  rcases Nat.lt_trichotomy i j with hlt | heq | hgt
  · exact absurd hrank (rank_lt_rank hlt hi).ne
  · exact heq
  · exact absurd hrank (rank_lt_rank hgt hj).ne'

/-- Every rank below the number of set bits under `n` is that of a set bit under `n`. -/
theorem exists_bit_of_rank {m n : Nat} (hm : m < rank t n) : ∃ i < n, t.getLsbD i = true ∧ rank t i = m := by
  induction n with
  | zero => exact absurd hm (Nat.not_lt_zero m)
  | succ n ih =>
    by_cases hlt : m < rank t n
    · obtain ⟨i, hi, hbit⟩ := ih hlt
      exact ⟨i, Nat.lt_succ_of_lt hi, hbit⟩
    · have hbit : t.getLsbD n = true := by
        by_contra hclear
        rw [rank_succ, Bool.eq_false_of_not_eq_true hclear] at hm
        exact hlt hm
      rw [rank_succ_of_bit hbit] at hm
      exact ⟨n, Nat.lt_succ_self n, hbit, by omega⟩

/-- `POS(t, m)` is a set bit of rank `m`, where there is one. -/
theorem pos_spec {m : Nat} (hm : m < popCount t) :
    pos t m < 8 ∧ t.getLsbD (pos t m) = true ∧ rank t (pos t m) = m := by
  unfold pos
  cases hfind : (List.range 8).find? fun i => t.getLsbD i && rank t i == m with
  | none =>
    obtain ⟨i, hi, hbit, hrank⟩ := exists_bit_of_rank hm
    have hnone := List.find?_eq_none.mp hfind i (List.mem_range.mpr hi)
    simp [hbit, hrank] at hnone
  | some i =>
    have hfound := List.find?_some hfind
    rw [Bool.and_eq_true, beq_iff_eq] at hfound
    exact ⟨List.mem_range.mp (List.mem_of_find?_eq_some hfind), hfound⟩

theorem pos_lt_eight {m : Nat} (hm : m < popCount t) : pos t m < 8 := (pos_spec hm).1

theorem getLsbD_pos {m : Nat} (hm : m < popCount t) : t.getLsbD (pos t m) = true := (pos_spec hm).2.1

theorem rank_pos {m : Nat} (hm : m < popCount t) : rank t (pos t m) = m := (pos_spec hm).2.2

/-- `POS(t, m)` is the only set bit of rank `m`. -/
theorem eq_pos_of_rank {m i : Nat} (hm : m < popCount t) (hbit : t.getLsbD i = true) (hrank : rank t i = m) :
    i = pos t m :=
  bit_eq_of_rank_eq hbit (getLsbD_pos hm) (hrank.trans (rank_pos hm).symm)

theorem pos_lt_pos {m n : Nat} (hmn : m < n) (hn : n < popCount t) : pos t m < pos t n := by
  by_contra hle
  have hrank : rank t (pos t n) ≤ rank t (pos t m) := rank_mono t (Nat.le_of_not_lt hle)
  rw [rank_pos hn, rank_pos (hmn.trans hn)] at hrank
  omega

end TagRom

/-- Settles O11: `RANK` counts by induction on the bit index, and `POS` inverts it on the set bits. -/
theorem tagRomListsSetBits : Obligations.TagRomListsSetBits := by
  unfold Obligations.TagRomListsSetBits
  refine fun t => ⟨?popCount, fun i _ => rank_eq_length_filter t i, fun m hm => ?pos, fun m hm => ?ascent⟩
  case popCount => exact (popCount_eq_rank t).trans (rank_eq_length_filter t 8)
  case pos =>
    exact ⟨pos_lt_eight hm, getLsbD_pos hm, rank_pos hm, fun i _ hbit hrank => eq_pos_of_rank hm hbit hrank⟩
  case ascent => exact pos_lt_pos (Nat.lt_succ_self m) hm

end Sys2Proof.Proofs
end

section
/-! The inverse of `pack` (R115). Both normative functions go record by record: `unpack` takes the record `decodeRecord`
finds and appends its words, `pack` puts the bytes of one record in front of what it makes of the words after it.
`decodeRecord` gives back each record `pack` writes, and the words of those records are the words packed. -/

namespace Sys2Proof.Proofs

open Sys2Proof Sys2Proof.Machine

/-! ### Placing the literal bytes of a word (R78, R79) -/

theorem lane_place (t : Byte) (bs : List Byte) {i : Nat} (hi : i < 8) :
    lane (place t bs) i = if t.getLsbD i then bs.getD (rank t i) 0 else 0 := by
  rw [place, lane_wordOfBytes _ _ hi]
  simp [hi]

@[simp] theorem length_compact (w : Word) : (compact w).length = popCount (tagGen w) := by simp [compact]

/-- A set bit's byte stands in the compacted bytes at the bit's rank. -/
theorem getD_compact_rank {w : Word} {i : Nat} (hi : i < 8) (hbit : (tagGen w).getLsbD i = true) :
    (compact w).getD (rank (tagGen w) i) 0 = lane w i := by
  have hrank : rank (tagGen w) i < popCount (tagGen w) := rank_lt_rank hi hbit
  have hpos : i = pos (tagGen w) (rank (tagGen w) i) := eq_pos_of_rank hrank hbit rfl
  simp [compact, hrank, ← hpos]

theorem lane_eq_zero_of_bit_clear {w : Word} {i : Nat} (hi : i < 8) (hclear : ¬ (tagGen w).getLsbD i = true) :
    lane w i = 0 :=
  not_not.mp (mt (getLsbD_tagGen w hi).mpr hclear)

theorem place_compact (w : Word) : place (tagGen w) (compact w) = w := by
  refine word_ext_lanes _ _ fun i hi => ?_
  rw [lane_place _ _ hi]
  split
  case isTrue hbit => exact getD_compact_rank hi hbit
  case isFalse hclear => exact (lane_eq_zero_of_bit_clear hi hclear).symm

theorem eq_zero_of_tagGen_eq_zero {w : Word} (h : tagGen w = 0x00#8) : w = 0 := by
  refine word_ext_lanes _ _ fun i hi => ?_
  rw [lane_eq_zero_of_bit_clear hi (by simp [h])]
  simp [lane]

/-! ### Runs of words (R100) -/

section Runs

variable (p : Word → Bool)

/-- A run ends at the first word that fails the test, and at the cap. -/
theorem runLength_eq_length_takeWhile (cap : Nat) (ws : List Word) :
    runLength p cap ws = ((ws.take cap).takeWhile p).length := by
  induction cap, ws using runLength.induct p with
  | case1 ws => simp [runLength]
  | case2 cap => simp [runLength]
  | case3 cap w ws hw ih => simp [runLength, hw, ih]
  | case4 cap w ws hw => simp [runLength, hw]

theorem takeWhile_take_prefix (cap : Nat) (ws : List Word) : (ws.take cap).takeWhile p <+: ws :=
  (List.takeWhile_prefix p).trans (List.take_prefix cap ws)

theorem runLength_le_cap (cap : Nat) (ws : List Word) : runLength p cap ws ≤ cap :=
  calc runLength p cap ws
    _ = ((ws.take cap).takeWhile p).length := runLength_eq_length_takeWhile p cap ws
    _ ≤ (ws.take cap).length := (List.takeWhile_prefix p).length_le
    _ ≤ cap := List.length_take_le cap ws

theorem runLength_le_length (cap : Nat) (ws : List Word) : runLength p cap ws ≤ ws.length :=
  (runLength_eq_length_takeWhile p cap ws).trans_le (takeWhile_take_prefix p cap ws).length_le

theorem forall_mem_take_runLength (cap : Nat) (ws : List Word) :
    ∀ v ∈ ws.take (runLength p cap ws), p v = true := by
  rw [runLength_eq_length_takeWhile, ← List.prefix_iff_eq_take.mp (takeWhile_take_prefix p cap ws)]
  exact fun v => List.mem_takeWhile_imp

end Runs

/-- The words a zero run adds are zero words. -/
theorem take_zrunLength (ws : List Word) : ws.take (zrunLength ws) = List.replicate (zrunLength ws) 0 := by
  refine List.eq_replicate_iff.mpr ⟨List.length_take_of_le (runLength_le_length _ _ ws), fun v hv => ?_⟩
  have hzero : isZeroWord v = true := forall_mem_take_runLength isZeroWord Config.runMax ws v hv
  exact eq_zero_of_tagGen_eq_zero (beq_iff_eq.mp hzero)

theorem length_take_lrunLength (ws : List Word) : (ws.take (lrunLength ws)).length = lrunLength ws :=
  List.length_take_of_le (runLength_le_length _ _ ws)

/-! ### Records and their bytes (R70-R75) -/

@[simp] theorem wordsOfBytes_nil : wordsOfBytes [] = [] := rfl

/-- The bytes of a word are the first word of the byte list they head. -/
@[simp] theorem wordsOfBytes_bytesOfWord_append (w : Word) (bs : List Byte) :
    wordsOfBytes (bytesOfWord w ++ bs) = w :: wordsOfBytes bs :=
  congrArg (· :: wordsOfBytes bs) (wordOfBytes_bytesOfWord w)

@[simp] theorem wordsOfBytes_bytesOfWords (ws : List Word) : wordsOfBytes (bytesOfWords ws) = ws := by
  induction ws with
  | nil => rfl
  | cons w ws ih => rw [bytesOfWords_cons, wordsOfBytes_bytesOfWord_append, ih]

/-- A well-formed record is decoded from its bytes, whatever follows them. -/
theorem decodeRecord_encodeRecord_append {p : Params} {i : Instr} (hrec : i.isRecord = true)
    (hwf : i.wellFormed p = true) (rest : List Byte) : decodeRecord (encodeRecord i ++ rest) = .ok (i, rest) := by
  cases i with
  | zrun n => rfl
  | lrun seed raw =>
    have hlen : raw.length ≤ 255 := of_decide_eq_true hwf
    have hcount : (BitVec.ofNat 8 raw.length).toNat = raw.length := Nat.mod_eq_of_lt (by omega)
    simp [encodeRecord, decodeRecord, hcount]
  | sparse t lits =>
    simp only [Instr.wellFormed, Bool.and_eq_true, bne_iff_ne, beq_iff_eq] at hwf
    obtain ⟨⟨h0, hF⟩, hlits⟩ := hwf
    simp [encodeRecord, decodeRecord, h0, hF, ← hlits]
  | _ => cases hrec

/-- `unpack` takes the record at the head of its bytes and emits its words (R130). -/
theorem unpackFuel_of_decodeRecord {bytes rest : List Byte} {i : Instr} (h : decodeRecord bytes = .ok (i, rest))
    (fuel : Nat) (acc : List Word) : unpackFuel (fuel + 1) bytes acc = unpackFuel fuel rest (acc ++ recordWords i) := by
  revert h
  fun_cases decodeRecord bytes <;> rintro ⟨⟩
  case case3 => simp [unpackFuel, recordWords, zrunWords]
  case case6 r n raw hr hcomplete hne =>
    have hcount : min n.toNat (raw.length / 8) = n.toNat := by omega
    simp [unpackFuel, recordWords, hr, hcount]
  case case8 t r h0 hF hcomplete => simp [unpackFuel, recordWords, h0, hF, hcomplete]

/-! ### `pack` and `unpack` record by record -/

/-- `pack` writes the record `i` for the first of the words `ws`, and goes on with the words `rest`. -/
structure PacksRecord (ws : List Word) (i : Instr) (rest : List Word) : Prop where
  isRecord : i.isRecord = true
  wellFormed : ∀ p : Params, i.wellFormed p = true
  words : ws = recordWords i ++ rest
  bytes : ∀ fuel, packFuel (fuel + 1) ws = encodeRecord i ++ packFuel fuel rest

theorem packsRecord_zrun {w : Word} (ws : List Word) (h0 : tagGen w = 0x00#8) :
    PacksRecord (w :: ws) (.zrun (BitVec.ofNat 8 (zrunLength ws))) (ws.drop (zrunLength ws)) where
  isRecord := rfl
  wellFormed _ := rfl
  words := by
    have hcap : zrunLength ws ≤ 255 := runLength_le_cap isZeroWord Config.runMax ws
    have hcount : (BitVec.ofNat 8 (zrunLength ws)).toNat = zrunLength ws := Nat.mod_eq_of_lt (by omega)
    rw [recordWords, zrunWords, hcount, List.replicate_succ, ← take_zrunLength, eq_zero_of_tagGen_eq_zero h0,
      List.cons_append, List.take_append_drop]
  bytes fuel := by simp [packFuel, encodeRecord, h0]

theorem packsRecord_lrun {w : Word} (ws : List Word) (hF : tagGen w = 0xFF#8) :
    PacksRecord (w :: ws) (.lrun w (ws.take (lrunLength ws))) (ws.drop (lrunLength ws)) where
  isRecord := rfl
  wellFormed _ := by
    rw [Instr.wellFormed, length_take_lrunLength]
    exact decide_eq_true (runLength_le_cap continuesLiteral Config.runMax ws)
  words := by rw [recordWords, List.cons_append, List.take_append_drop]
  bytes fuel := by rw [encodeRecord, length_take_lrunLength]; simp [packFuel, hF]

theorem packsRecord_sparse {w : Word} (ws : List Word) (h0 : tagGen w ≠ 0x00#8) (hF : tagGen w ≠ 0xFF#8) :
    PacksRecord (w :: ws) (.sparse (tagGen w) (compact w)) ws where
  isRecord := rfl
  wellFormed _ := by simp [Instr.wellFormed, h0, hF]
  words := by rw [recordWords, place_compact, List.singleton_append]
  bytes fuel := by simp [packFuel, encodeRecord, h0, hF]

/-- On a nonempty input `pack` writes one of the three records (R100). -/
theorem exists_packsRecord (w : Word) (ws : List Word) : ∃ i rest, PacksRecord (w :: ws) i rest := by
  by_cases h0 : tagGen w = 0x00#8
  · exact ⟨_, _, packsRecord_zrun ws h0⟩
  · by_cases hF : tagGen w = 0xFF#8
    · exact ⟨_, _, packsRecord_lrun ws hF⟩
    · exact ⟨_, _, packsRecord_sparse ws h0 hF⟩

theorem length_recordWords_pos {i : Instr} (hrec : i.isRecord = true) : 0 < (recordWords i).length := by
  cases i with
  | zrun n => simp [recordWords, zrunWords]
  | lrun seed raw => simp [recordWords]
  | sparse t lits => simp [recordWords]
  | _ => cases hrec

theorem length_encodeRecord_pos {i : Instr} (hrec : i.isRecord = true) : 0 < (encodeRecord i).length := by
  cases i with
  | zrun n => simp [encodeRecord]
  | lrun seed raw => simp [encodeRecord]
  | sparse t lits => simp [encodeRecord]
  | _ => cases hrec

@[simp] theorem unpackFuel_nil (fuel : Nat) (acc : List Word) : unpackFuel fuel [] acc = (acc, .ok) := by
  cases fuel <;> rfl

/-- With fuel enough on both sides, unpacking a packed list of words appends those words: each record `pack` writes
is decoded to the words it was written for. -/
theorem unpackFuel_packFuel (n : Nat) : ∀ (ws : List Word) (fuel : Nat) (acc : List Word), ws.length ≤ n →
    (packFuel n ws).length ≤ fuel → unpackFuel fuel (packFuel n ws) acc = (acc ++ ws, .ok) := by
  induction n with
  | zero =>
    intro ws fuel acc hws _
    simp [packFuel, List.length_eq_zero_iff.mp (Nat.le_zero.mp hws)]
  | succ n ih =>
    intro ws fuel acc hws hfuel
    cases ws with
    | nil => simp [packFuel]
    | cons w ws =>
      obtain ⟨i, rest, hi⟩ := exists_packsRecord w ws
      rw [hi.bytes, List.length_append] at hfuel
      rw [hi.words, List.length_append] at hws
      have hbytes := length_encodeRecord_pos hi.isRecord
      have hwords := length_recordWords_pos hi.isRecord
      obtain ⟨fuel, rfl⟩ : ∃ f, fuel = f + 1 := ⟨fuel - 1, by omega⟩
      have hdec := decodeRecord_encodeRecord_append hi.isRecord (hi.wellFormed Config.exampleParams) (packFuel n rest)
      calc unpackFuel (fuel + 1) (packFuel (n + 1) (w :: ws)) acc
        _ = unpackFuel (fuel + 1) (encodeRecord i ++ packFuel n rest) acc := by rw [hi.bytes]
        _ = unpackFuel fuel (packFuel n rest) (acc ++ recordWords i) := unpackFuel_of_decodeRecord hdec fuel acc
        _ = (acc ++ recordWords i ++ rest, .ok) := ih rest fuel _ (by omega) (by omega)
        _ = (acc ++ (w :: ws), .ok) := by rw [hi.words, List.append_assoc]

/-- R115 without its condition on the bytes: `unpack` undoes `pack` on every list of words. -/
theorem unpackBytes_packWords (ws : List Word) : unpackBytes (packWords ws) = (ws, .ok) :=
  unpackFuel_packFuel ws.length ws _ [] le_rfl le_rfl

/-- Settles O14, by induction over the records of `pack` (`unpackFuel_packFuel`). -/
theorem unpackUndoesPack : Obligations.UnpackUndoesPack := by
  unfold Obligations.UnpackUndoesPack
  exact fun u _ => unpackBytes_packWords (wordsOfBytes u)

end Sys2Proof.Proofs
end

section
/-! The end of DEC's input (R143, R144): in every consuming state the step is the effect at the end of the input,
which emits no word, so no consumer can make it wait. -/

namespace Sys2Proof.Proofs

open Sys2Proof Sys2Proof.Machine

/-- DEC takes an effect without a word for every consumer. -/
theorem commitDec_of_emit_none (s : State) {e : Effect Dec Word} (hemit : e.emit = none) :
    s.commitDec e = .moves { s with
      dec := e.regs
      decPort := { s.decPort with resp := s.decPort.resp ++ e.resp.toList } } := by
  simp only [State.commitDec, hemit, Port.commit_none]

theorem decConsume_of_exhausted {s : State} (hend : s.dec.pos = s.dec.len) (supply : Nat → Option Byte)
    (atEnd : Effect Dec Word) (rule : Dec → Byte → Effect Dec Word) :
    decConsume supply s atEnd rule = s.commitDec atEnd :=
  if_pos hend

/-- R143: inside a record. -/
theorem decStepFrom_inRecord_of_exhausted {s : State} (hend : s.dec.pos = s.dec.len)
    (hst : s.dec.st = .sparse ∨ s.dec.st = .zcount ∨ s.dec.st = .seed ∨ s.dec.st = .lcount ∨ s.dec.st = .lraw)
    (supply : Nat → Option Byte) : decStepFrom supply s = s.commitDec (decTruncate s.dec) := by
  rcases hst with hst | hst | hst | hst | hst <;>
    simp only [decStepFrom, hst, decConsume_of_exhausted hend]

/-- R144: at a tag boundary. -/
theorem decStepFrom_tag_of_exhausted {s : State} (hend : s.dec.pos = s.dec.len) (hst : s.dec.st = .tag)
    (supply : Nat → Option Byte) : decStepFrom supply s = s.commitDec (decComplete s.dec) := by
  simp only [decStepFrom, hst, decConsume_of_exhausted hend]

/-- Settles O46: the step is `decTruncate`, and it emits nothing. -/
theorem exhaustedInputTruncates : Obligations.ExhaustedInputTruncates := by
  unfold Obligations.ExhaustedInputTruncates
  intro s hend hst
  exact (decStepFrom_inRecord_of_exhausted hend hst _).trans (commitDec_of_emit_none s rfl)

/-- Settles O47: the step is `decComplete`, and it emits nothing. -/
theorem exhaustedInputAtTagCompletes : Obligations.ExhaustedInputAtTagCompletes := by
  unfold Obligations.ExhaustedInputAtTagCompletes
  intro s hend hst
  exact (decStepFrom_tag_of_exhausted hend hst _).trans (commitDec_of_emit_none s rfl)

end Sys2Proof.Proofs
end

section
/-! The error states of SRD (R203, R204). A step into a terminal state ends the transaction with the latched status
and waits for no consumer; a closed unit in a terminal state answers every SREAD from its latched registers and
takes no step, so a whole series of SREADs adds one response each. -/

namespace Sys2Proof.Proofs

open Sys2Proof Sys2Proof.Machine

/-! ### Pulling a terminal token -/

/-- R165: `End` inside a record. -/
theorem srdRule_eof_inRecord {r : Srd}
    (hst : r.st = .bytes ∨ r.st = .zeroCount ∨ r.st = .litWord ∨ r.st = .litCount ∨ r.st = .emitLiterals)
    (rest : List Token) : srdRule r (.eof :: rest) = some (srdTruncate r, none, rest) := by
  rcases hst with hst | hst | hst | hst | hst <;> simp [srdRule, srdOnEnd, hst]

/-- R165: `Err(e)` in a consuming state, `S_TAG` included. -/
theorem srdRule_err_of_consuming {r : Srd}
    (hst : r.st = .tag ∨ r.st = .bytes ∨ r.st = .zeroCount ∨ r.st = .litWord ∨ r.st = .litCount ∨
      r.st = .emitLiterals)
    (e : Config.ErrT) (rest : List Token) : srdRule r (.err e :: rest) = some (srdIoError r e, none, rest) := by
  rcases hst with hst | hst | hst | hst | hst | hst <;> simp only [srdRule, hst]

/-! ### A step into a terminal state -/

@[simp] theorem counting_none (r : Srd) : r.counting none = r := rfl

theorem srdCompletion_of_terminal {r : Srd} (hterm : r.isTerminal = true) :
    srdCompletion r = some (.sread r.n r.term.status r.errv) := if_pos hterm

theorem finish_of_terminal {r : Srd} (hterm : r.isTerminal = true) : r.finish = { r with busy := false } := by
  simp only [Srd.finish, srdCompletion_of_terminal hterm, Option.isSome_some, if_true]

/-- R163: a step that emits no byte and enters a terminal state ends the transaction, whatever the consumer. -/
theorem srdUnitStep_into_terminal {u : SrdUnit} {r : Srd} {rest : List Token} (hbusy : u.regs.busy = true)
    (hrule : srdRule u.regs u.src = some (r, none, rest)) (hterm : r.isTerminal = true) :
    srdUnitStep u = some
      { regs := { r with busy := false }, src := rest,
        port := { u.port with resp := u.port.resp ++ [.sread r.n r.term.status r.errv] } } := by
  simp only [srdUnitStep, hbusy, if_true, hrule, counting_none, Port.commit_none, srdCompletion_of_terminal hterm,
    finish_of_terminal hterm, Option.map_some, Option.toList_some]

/-! ### SREADs of a closed unit -/

theorem srdUnitStep_of_not_busy {u : SrdUnit} (hbusy : u.regs.busy = false) : srdUnitStep u = none := by
  simp [srdUnitStep, hbusy]

theorem srdUnitBurst_of_no_step {u : SrdUnit} (hstep : srdUnitStep u = none) (k : Nat) : srdUnitBurst k u = u := by
  cases k with
  | zero => rfl
  | succ k => simp only [srdUnitBurst, hstep]

/-- With no transaction open there is nothing to complete. -/
theorem complete_of_not_busy {u : SrdUnit} (hbusy : u.regs.busy = false) : u.complete = u :=
  srdUnitBurst_of_no_step (srdUnitStep_of_not_busy hbusy) _

/-- R162: in a terminal state SREAD answers the latched status, whatever its size. -/
theorem read_of_terminal {u : SrdUnit} (hterm : u.regs.isTerminal = true) (k : Nat) :
    u.read k = { u with port := u.port.respond (.sread 0 u.regs.term.status u.regs.errv) } := if_pos hterm

/-- R174: a series of SREADs of a closed unit in a terminal state changes nothing but the responses. -/
theorem reads_of_terminal (ks : List Nat) : ∀ {u : SrdUnit}, u.regs.isTerminal = true → u.regs.busy = false →
    u.reads ks =
      { u with port := { u.port with
          resp := u.port.resp ++ ks.map fun _ => .sread 0 u.regs.term.status u.regs.errv } } := by
  induction ks with
  | nil => intro u _ _; simp [SrdUnit.reads]
  | cons k ks ih =>
    intro u hterm hbusy
    have hfirst : (u.read k).complete =
        { u with port := u.port.respond (.sread 0 u.regs.term.status u.regs.errv) } := by
      rw [read_of_terminal hterm]
      exact complete_of_not_busy hbusy
    have hrest := ih (u := (u.read k).complete) (by rw [hfirst]; exact hterm) (by rw [hfirst]; exact hbusy)
    calc u.reads (k :: ks) = (u.read k).complete.reads ks := rfl
      _ = _ := by rw [hrest, hfirst]; simp [Port.respond]

/-- Settles O53: the pull is `srdTruncate`, and the unit it leaves is closed in `S_ERROR` with `TRUNC`. The absent
error of its responses is the latched `errv`, which a truncation keeps. -/
theorem endInsideRecordTruncatesStream : Obligations.EndInsideRecordTruncatesStream := by
  unfold Obligations.EndInsideRecordTruncatesStream
  intro u rest hbusy herrv hsrc hst
  have hrule : srdRule u.regs u.src = some (srdTruncate u.regs, none, rest) := by
    rw [hsrc, srdRule_eof_inRecord hst]
  rw [← herrv]
  exact ⟨_, srdUnitStep_into_terminal hbusy hrule rfl, rfl, fun ks => reads_of_terminal ks rfl rfl⟩

/-- Settles O54: the pull is `srdIoError`, and the unit it leaves is closed in `S_ERROR` with `IO` and `e`. -/
theorem sourceErrorIsReportedVerbatim : Obligations.SourceErrorIsReportedVerbatim := by
  unfold Obligations.SourceErrorIsReportedVerbatim
  intro u e rest hbusy hsrc hst
  have hrule : srdRule u.regs u.src = some (srdIoError u.regs e, none, rest) := by
    rw [hsrc, srdRule_err_of_consuming hst]
  exact ⟨_, srdUnitStep_into_terminal hbusy hrule rfl, rfl, fun ks => reads_of_terminal ks rfl rfl⟩

end Sys2Proof.Proofs
end

section
/-! The two encodings (R72-R75, R85). A record is decoded from its bytes and encoded to them again; a command word is
a number in mixed radix, `op` below 4 and then the operands from the least significant upward (log 3). -/

namespace Sys2Proof.Proofs

open Sys2Proof Sys2Proof.Machine

/-! ### Byte lists cut into words -/

/-- The words of a byte list hold its bytes, when the list is a whole number of words. -/
theorem bytesOfWords_wordsOfBytes : ∀ (n : Nat) (bs : List Byte), bs.length = 8 * n →
    bytesOfWords (wordsOfBytes bs) = bs
  | 0, bs, h => by
    rw [List.length_eq_zero_iff.mp h]
    rfl
  | n + 1, bs, h => by
    have hhead : (bs.take 8).length = 8 := by simp; omega
    have htail : (bs.drop 8).length = 8 * n := by simp; omega
    have hsplit : bs = bytesOfWord (wordOfBytes (bs.take 8)) ++ bs.drop 8 := by
      rw [bytesOfWord_wordOfBytes _ hhead, List.take_append_drop]
    rw [hsplit, wordsOfBytes_bytesOfWord_append, bytesOfWords_cons, bytesOfWords_wordsOfBytes n _ htail]

theorem length_wordsOfBytes {n : Nat} {bs : List Byte} (h : bs.length = 8 * n) : (wordsOfBytes bs).length = n := by
  have hbytes := congrArg List.length (bytesOfWords_wordsOfBytes n bs h)
  rw [length_bytesOfWords, h] at hbytes
  exact Nat.eq_of_mul_eq_mul_left (by decide) hbytes

/-! ### Records -/

/-- Settles O8: in each of the three cases in which `decodeRecord` answers, the bytes taken are put back. -/
theorem recordDecodingIsExact : Obligations.RecordDecodingIsExact := by
  unfold Obligations.RecordDecodingIsExact
  intro p bytes rest i h
  revert h
  fun_cases decodeRecord bytes <;> rintro ⟨⟩
  case case3 => exact ⟨rfl, rfl⟩
  case case6 r n raw hr hcomplete _ =>
    have hcount : n.toNat < 256 := n.isLt
    have hraw : (raw.take (8 * n.toNat)).length = 8 * n.toNat := by simp; omega
    have hwords := length_wordsOfBytes hraw
    have hseed : (r.take 8).length = 8 := by
      have := congrArg List.length hr
      simp at this ⊢
      omega
    refine ⟨by simp only [Instr.wellFormed, hwords, Config.runMax, decide_eq_true_eq]; omega, ?_⟩
    have hr8 : r.take 8 ++ n :: raw = r := by rw [← hr, List.take_append_drop]
    simp only [encodeRecord, hwords, BitVec.ofNat_toNat, BitVec.setWidth_eq, bytesOfWord_wordOfBytes _ hseed,
      bytesOfWords_wordsOfBytes _ _ hraw]
    simpa using hr8
  case case8 tag r h0 hF hcomplete =>
    have hlits : (r.take (popCount tag)).length = popCount tag := by simp; omega
    exact ⟨by simp [Instr.wellFormed, h0, hF]; omega, by simp [encodeRecord]⟩

/-! ### Commands -/

/-- Two fields of a command word: the lower one below `m`, the upper one above it. -/
theorem fields_div_mod {x m : Nat} (y : Nat) (hx : x < m) : (x + m * y) % m = x ∧ (x + m * y) / m = y := by
  rw [Nat.add_mul_mod_self_left, Nat.add_mul_div_left _ _ (Nat.zero_lt_of_lt hx), Nat.mod_eq_of_lt hx,
    Nat.div_eq_of_lt hx, Nat.zero_add]
  exact ⟨rfl, rfl⟩

/-- The `op` bits of a command word and the operands above them. -/
theorem op_div_mod {op : Nat} (rest : Nat) (hop : op < 4) : (op + 4 * rest) % 4 = op ∧ (op + 4 * rest) / 4 = rest :=
  fields_div_mod rest hop

/-- A well-formed command is decoded from its word. -/
theorem decodeCommand_encodeCommand {p : Params} {i : Instr} (hcmd : i.isRecord = false)
    (hwf : i.wellFormed p = true) : decodeCommand p (encodeCommand p i) = .ok i := by
  cases i with
  | pack base len =>
    simp only [Instr.wellFormed, Bool.and_eq_true, decide_eq_true_eq] at hwf
    obtain ⟨hmod, hdiv⟩ := fields_div_mod len hwf.1
    have ⟨hop, hrest⟩ := op_div_mod (op := 0) (base + 2 ^ p.aw * len) (by decide)
    rw [Nat.zero_add] at hop hrest
    simp only [encodeCommand, decodeCommand, hop, hrest, hmod, hdiv, hwf.2, if_true]
  | unpack base len =>
    simp only [Instr.wellFormed, Bool.and_eq_true, decide_eq_true_eq] at hwf
    obtain ⟨hmod, hdiv⟩ := fields_div_mod len hwf.1
    have ⟨hop, hrest⟩ := op_div_mod (op := 1) (base + 2 ^ p.aw * len) (by decide)
    simp [encodeCommand, decodeCommand, hop, hrest, hmod, hdiv, hwf.2]
  | sinit inst =>
    simp only [Instr.wellFormed, decide_eq_true_eq] at hwf
    have ⟨hop, hrest⟩ := op_div_mod (op := 2) inst (by decide)
    simp [encodeCommand, decodeCommand, hop, hrest, hwf]
  | sread inst k =>
    simp only [Instr.wellFormed, Bool.and_eq_true, decide_eq_true_eq] at hwf
    obtain ⟨hmod, hdiv⟩ := fields_div_mod k hwf.1
    have ⟨hop, hrest⟩ := op_div_mod (op := 3) (inst + 2 ^ instBits p.nSrd * k) (by decide)
    simp [encodeCommand, decodeCommand, hop, hrest, hmod, hdiv, hwf.2]
  | _ => cases hcmd

/-- Settles O9: the four `op`s, each with its operands within their fields. -/
theorem commandDecodingIsExact : Obligations.CommandDecodingIsExact := by
  unfold Obligations.CommandDecodingIsExact
  intro p bits i h
  have hbits : bits % 4 + 4 * (bits / 4) = bits := Nat.mod_add_div bits 4
  have hlower : ∀ x n : Nat, x % 2 ^ n < 2 ^ n := fun x n => Nat.mod_lt x (Nat.two_pow_pos n)
  revert h
  fun_cases decodeCommand p bits <;> rintro ⟨⟩
  case case1 rest hop hlen =>
    refine ⟨by simpa [Instr.wellFormed] using ⟨hlower rest p.aw, hlen⟩, ?_, rfl⟩
    simp only [encodeCommand, Nat.mod_add_div, rest]
    omega
  case case3 rest _ hop hlen =>
    refine ⟨by simpa [Instr.wellFormed] using ⟨hlower rest p.aw, hlen⟩, ?_, rfl⟩
    simp only [encodeCommand, Nat.mod_add_div, rest]
    omega
  case case5 rest _ _ hop hinst =>
    refine ⟨by simpa [Instr.wellFormed] using hinst, ?_, rfl⟩
    simp only [encodeCommand, rest]
    omega
  case case7 rest _ _ _ hk =>
    refine ⟨by simpa [Instr.wellFormed] using ⟨hlower rest (instBits p.nSrd), hk⟩, ?_, rfl⟩
    simp only [encodeCommand, Nat.mod_add_div, rest]
    omega

/-- Settles O7: the two round trips, of records and of commands. -/
theorem decodeOfEncode : Obligations.DecodeOfEncode := by
  unfold Obligations.DecodeOfEncode
  intro p i hwf
  cases hrec : i.isRecord with
  | false => simpa [encode, hrec, decode] using decodeCommand_encodeCommand hrec hwf
  | true =>
    have hround := decodeRecord_encodeRecord_append hrec hwf []
    rw [List.append_nil] at hround
    simp [encode, hrec, decode, hround]

/-- Settles O6: fixed words, each decoded by evaluation. -/
theorem sampleWordsDecode : Obligations.SampleWordsDecode := by
  unfold Obligations.SampleWordsDecode
  exact ⟨rfl, rfl, rfl, rfl, rfl, rfl, rfl, rfl⟩

end Sys2Proof.Proofs
end

section
/-! The datapath and the normative functions: place and compact (R79), the run detectors (R104), the length of a
packed stream (R116), canonical streams (R148) and the non-canonical forms (R84). -/

namespace Sys2Proof.Proofs

open Sys2Proof Sys2Proof.Machine

/-! ### Datapath -/

/-- Settles O12: `lane_place` and `place_compact`. -/
theorem placeUndoesCompact : Obligations.PlaceUndoesCompact := by
  unfold Obligations.PlaceUndoesCompact
  exact ⟨fun tag bs _ i hi => lane_place tag bs hi, place_compact⟩

theorem isZeroWord_iff (v : Word) : isZeroWord v = true ↔ v = 0 := by
  rw [isZeroWord, beq_iff_eq]
  refine ⟨eq_zero_of_tagGen_eq_zero, fun h => ?_⟩
  rw [h]
  decide

/-- The set bits of a tag are counted by the word's nonzero bytes. -/
theorem popCount_tagGen (v : Word) :
    popCount (tagGen v) = ((List.range 8).filter fun i => !(lane v i == 0)).length := by
  rw [popCount_eq_rank, rank_eq_length_filter]
  refine congrArg List.length (List.filter_congr fun i hi => Bool.eq_iff_iff.mpr ?_)
  rw [getLsbD_tagGen v (List.mem_range.mp hi)]
  simp

/-- Every byte of a word is zero or counted in its tag. -/
theorem zeroBytes_add_popCount (v : Word) :
    ((List.range 8).filter fun i => lane v i == 0).length + popCount (tagGen v) = 8 := by
  rw [popCount_tagGen, ← List.length_eq_length_filter_add, List.length_range]

/-- Settles O13: `LCONT` compares the count of nonzero bytes, the complement of the zero bytes. -/
theorem runDetectorsCountZeroBytes : Obligations.RunDetectorsCountZeroBytes := by
  unfold Obligations.RunDetectorsCountZeroBytes
  intro v
  refine ⟨isZeroWord_iff v, ?_⟩
  have hsum := zeroBytes_add_popCount v
  rw [continuesLiteral, decide_eq_true_iff]
  omega

/-! ### The codec's normative functions -/

/-- A tag of a SPARSE record has a clear bit. -/
theorem popCount_lt_eight {b : Byte} (hb : b ≠ 0xFF#8) : popCount b < 8 := by
  revert b
  decide

theorem popCount_pos {b : Byte} (hb : b ≠ 0x00#8) : 0 < popCount b := by
  revert b
  decide

theorem length_encodeRecord_lrun (seed : Word) (raw : List Word) :
    (encodeRecord (.lrun seed raw)).length = 10 + 8 * raw.length := by
  simp [encodeRecord]
  omega

/-- A record is at most 10 bytes for each of its words (R90): LRUN adds two bytes to its first word, and the others
are shorter than that. -/
theorem length_encodeRecord_le {p : Params} {i : Instr} (hrec : i.isRecord = true) (hwf : i.wellFormed p = true) :
    (encodeRecord i).length ≤ 10 * (recordWords i).length := by
  cases i with
  | zrun n => simp [encodeRecord, recordWords, zrunWords]; omega
  | lrun seed raw => rw [length_encodeRecord_lrun]; simp [recordWords]; omega
  | sparse tag lits =>
    simp only [Instr.wellFormed, Bool.and_eq_true, bne_iff_ne, beq_iff_eq] at hwf
    obtain ⟨⟨-, hF⟩, hlits⟩ := hwf
    have hcount := popCount_lt_eight hF
    simp [encodeRecord, recordWords]
    omega
  | _ => cases hrec

/-- R90 for `pack` with fuel, record by record. -/
theorem length_packFuel_le (fuel : Nat) : ∀ ws : List Word, (packFuel fuel ws).length ≤ 10 * ws.length := by
  induction fuel with
  | zero => exact fun ws => Nat.zero_le _
  | succ fuel ih =>
    intro ws
    cases ws with
    | nil => exact Nat.zero_le _
    | cons w ws =>
      obtain ⟨i, rest, hi⟩ := exists_packsRecord w ws
      have hfirst := length_encodeRecord_le hi.isRecord (hi.wellFormed Config.exampleParams)
      have hrest := ih rest
      rw [hi.bytes, hi.words, List.length_append, List.length_append]
      omega

/-- Settles O15: the bound is `length_packFuel_le`; a packed stream is canonical by definition (R89). -/
theorem packedLengthBound : Obligations.PackedLengthBound := by
  unfold Obligations.PackedLengthBound
  intro u hu
  have hwords : (wordsOfBytes u).length = u.length / 8 := length_wordsOfBytes (by omega)
  have hbound := length_packFuel_le (wordsOfBytes u).length (wordsOfBytes u)
  exact ⟨by unfold packWords; omega, wordsOfBytes u, rfl⟩

/-- Settles O16: a canonical stream unpacks to the words it was packed from, since `unpack` undoes `pack`. -/
theorem canonicalIffRepacked : Obligations.CanonicalIffRepacked := by
  unfold Obligations.CanonicalIffRepacked
  intro p ws hunpack
  refine ⟨fun h => ⟨ws, h.symm⟩, ?_⟩
  rintro ⟨vs, rfl⟩
  rw [unpackBytes_packWords] at hunpack
  rw [(Prod.mk.inj hunpack).1]

/-- Settles O17: six fixed streams, unpacked and repacked by evaluation. -/
theorem nonCanonicalFormsDecode : Obligations.NonCanonicalFormsDecode := by
  unfold Obligations.NonCanonicalFormsDecode
  decide

end Sys2Proof.Proofs
end

section
/-! Reads of the source buffer (R53), and the reset state. -/

namespace Sys2Proof.Proofs

open Sys2Proof Sys2Proof.Machine

/-- The bytes at consecutive addresses are read one after the other. -/
theorem memRead_succ_ok_iff (s : State) (addr n : Nat) (bs : List Byte) :
    memRead s addr (n + 1) = .ok bs ↔
      addr < s.params.space ∧ ∃ b rest, s.mem.get addr = some b ∧ memRead s (addr + 1) n = .ok rest ∧
        bs = b :: rest := by
  rw [memRead]
  split
  case isTrue hout => simp; omega
  case isFalse hin =>
    cases s.mem.get addr with
    | none => simp
    | some b =>
      cases memRead s (addr + 1) n with
      | error f => simp
      | ok rest => simp; grind

/-- What `MemRead` answers is what the addresses hold. -/
theorem memRead_ok {s : State} {n : Nat} : ∀ {addr : Nat} {bs : List Byte}, memRead s addr n = .ok bs →
    bs.length = n ∧ ∀ i, i < n → addr + i < s.params.space ∧ s.mem.get (addr + i) = bs[i]? := by
  induction n with
  | zero => rintro addr bs ⟨⟩; exact ⟨rfl, fun i hi => absurd hi (Nat.not_lt_zero i)⟩
  | succ n ih =>
    intro addr bs h
    obtain ⟨hin, b, rest, hb, hrest, rfl⟩ := (memRead_succ_ok_iff s addr n bs).mp h
    obtain ⟨hlen, hget⟩ := ih hrest
    refine ⟨congrArg (· + 1) hlen, fun i hi => ?_⟩
    cases i with
    | zero => exact ⟨hin, hb⟩
    | succ i =>
      have hnext := hget i (by omega)
      rwa [Nat.add_right_comm, Nat.add_assoc] at hnext

/-- `MemRead` answers where every address is inside the space and placed. -/
theorem memRead_of_placed {s : State} {n : Nat} : ∀ {addr : Nat},
    (∀ i, i < n → addr + i < s.params.space ∧ (s.mem.get (addr + i)).isSome = true) →
    ∃ bs, memRead s addr n = .ok bs := by
  induction n with
  | zero => exact fun _ => ⟨[], rfl⟩
  | succ n ih =>
    intro addr hplaced
    obtain ⟨hin, hsome⟩ := hplaced 0 (Nat.succ_pos n)
    obtain ⟨b, hb⟩ := Option.isSome_iff_exists.mp hsome
    obtain ⟨rest, hrest⟩ := ih (addr := addr + 1) fun i hi => by
      have hnext := hplaced (i + 1) (by omega)
      rwa [Nat.add_comm i 1, ← Nat.add_assoc] at hnext
    exact ⟨b :: rest, (memRead_succ_ok_iff s addr n _).mpr ⟨hin, b, rest, hb, hrest, rfl⟩⟩

/-- Settles O18: both directions by induction on the count. -/
theorem memReadGivesBytesInOrder : Obligations.MemReadGivesBytesInOrder := by
  unfold Obligations.MemReadGivesBytesInOrder
  exact fun s addr n => ⟨fun bs h => memRead_ok h, memRead_of_placed⟩

/-! ### Reset -/

/-- Settles O1: the registers of one fixed state, by evaluation. -/
theorem resetRegistersAreZero : Obligations.ResetRegistersAreZero := by
  unfold Obligations.ResetRegistersAreZero
  decide

theorem encInv_reset (p : Params) : EncInv p Enc.reset := by
  constructor <;> simp [Enc.reset, Params.space]

theorem decInv_reset (p : Params) : DecInv p Dec.reset := by
  constructor <;> simp [Dec.reset, Params.space]

theorem srdInv_reset (p : Params) : SrdInv p Srd.reset := by
  constructor <;> simp [Srd.reset, Srd.isTerminal]

/-- Settles O2: every block's reset registers meet the block's invariant; nothing is placed. -/
theorem resetMeetsInvariant : Obligations.ResetMeetsInvariant := by
  unfold Obligations.ResetMeetsInvariant
  have hp : Config.exampleParams.wf := by decide
  exact
    { params := hp
      enc := encInv_reset _
      dec := decInv_reset _
      units := List.length_replicate
      srd := fun u hu => (List.eq_of_mem_replicate hu) ▸ srdInv_reset _
      mem := rfl
      fault := by decide
      faultBuffer := fun b hb => nomatch hb
      addrs := fun c hc => nomatch hc }

end Sys2Proof.Proofs
end

section
/-! The commands at acceptance (R105, R135, R161, R162, R237) and the moves of the host (R57, R63, R85, R230, R235). -/

namespace Sys2Proof.Proofs

open Sys2Proof Sys2Proof.Machine

/-! ### PACK and UNPACK -/

theorem fits_of_le {p : Params} {base len : Nat} (h : base + len ≤ 2 ^ p.aw) : Params.fits p base len = true :=
  decide_eq_true h

/-- R105: an aligned buffer inside the space is accepted by an idle ENC. -/
theorem execPack_of_accepted {s : State} {base len : Nat} (hidle : s.enc.st = .idle)
    (hfit : Params.fits s.params base len = true) (halign : len % 8 = 0) :
    execPack base len s = .next { s with enc := encAccept s.enc base len } := by
  simp [execPack, hidle, hfit, halign]

/-- R201: a misaligned one raises F_ALIGN. -/
theorem execPack_of_misaligned {s : State} {base len : Nat} (hidle : s.enc.st = .idle)
    (hfit : Params.fits s.params base len = true) (halign : len % 8 ≠ 0) :
    execPack base len s = .next (s.takeAlignFault base len) := by
  simp [execPack, hidle, hfit, halign]

/-- R237: a PACK is held by an ENC that is not idle. -/
theorem execPack_of_held {s : State} (base len : Nat) (hst : s.enc.st ≠ .idle) :
    execPack base len s = .next { s with encPort := s.encPort.hold (encodeCommand s.params (.pack base len)) } :=
  if_pos hst

/-- R135: a buffer inside the space is accepted by an idle DEC. -/
theorem execUnpack_of_accepted {s : State} {base len : Nat} (hidle : s.dec.st = .idle)
    (hfit : Params.fits s.params base len = true) :
    execUnpack base len s = .next { s with dec := decAccept s.dec base len } := by
  simp [execUnpack, hidle, hfit]

/-- R237: an UNPACK is held by a DEC that is not idle. -/
theorem execUnpack_of_held {s : State} (base len : Nat) (hst : s.dec.st ≠ .idle) :
    execUnpack base len s = .next { s with decPort := s.decPort.hold (encodeCommand s.params (.unpack base len)) } :=
  if_pos hst

/-- Settles O30: `execPack_of_accepted`. -/
theorem packIsAccepted : Obligations.PackIsAccepted := by
  unfold Obligations.PackIsAccepted
  exact fun s base len hidle hfit halign => execPack_of_accepted hidle (fits_of_le hfit) halign

/-- Settles O32: `execUnpack_of_accepted`. -/
theorem unpackIsAccepted : Obligations.UnpackIsAccepted := by
  unfold Obligations.UnpackIsAccepted
  exact fun s base len hidle hfit => execUnpack_of_accepted hidle (fits_of_le hfit)

/-! ### SINIT and SREAD -/

section SrdCommands

variable {s : State} {j : Nat} {u : SrdUnit}

theorem execSinit_of_idle (hu : s.srd[j]? = some u) (hbusy : u.regs.busy = false) :
    execSinit j s = .next (s.setSrd j u.init) := by
  simp [execSinit, hu, hbusy]

theorem execSinit_of_busy (hu : s.srd[j]? = some u) (hbusy : u.regs.busy = true) :
    execSinit j s = .next (s.setSrd j (u.hold (encodeCommand s.params (.sinit j)))) := by
  simp [execSinit, hu, hbusy]

theorem execSread_of_idle (hu : s.srd[j]? = some u) (hbusy : u.regs.busy = false) (k : Nat) :
    execSread j k s = .next (s.setSrd j (u.read k)) := by
  simp [execSread, hu, hbusy]

theorem execSread_of_busy (hu : s.srd[j]? = some u) (hbusy : u.regs.busy = true) (k : Nat) :
    execSread j k s = .next (s.setSrd j (u.hold (encodeCommand s.params (.sread j k)))) := by
  simp [execSread, hu, hbusy]

end SrdCommands

theorem isTerminal_iff (r : Srd) : r.isTerminal = true ↔ r.st = .done ∨ r.st = .error := by
  simp [Srd.isTerminal]

theorem isTerminal_eq_false_iff (r : Srd) : r.isTerminal = false ↔ r.st ≠ .done ∧ r.st ≠ .error := by
  simp [Srd.isTerminal]

theorem read_zero {u : SrdUnit} (hterm : u.regs.isTerminal = false) :
    u.read 0 = { u with port := u.port.respond (.sread 0 .ok none) } := by
  simp [SrdUnit.read, hterm]

/-- R162: a nonempty SREAD opens a transaction. -/
theorem read_of_running {u : SrdUnit} {k : Nat} (hterm : u.regs.isTerminal = false) (hk : k ≠ 0) :
    u.read k = { u with regs := { u.regs with K := k, n := 0, busy := true } } := by
  simp [SrdUnit.read, hterm, hk]

/-- Settles O34: SINIT on a unit that is not busy is `SrdUnit.init`. -/
theorem sinitReinitialisesOneUnit : Obligations.SinitReinitialisesOneUnit := by
  unfold Obligations.SinitReinitialisesOneUnit
  intro s j u hu hbusy
  refine (execSinit_of_idle hu hbusy).trans ?_
  simp only [SrdUnit.init, srdInit, hbusy]
  rfl

/-- Settles O35: SREAD on a unit that is not busy is `SrdUnit.read`, in its three cases. -/
theorem sreadAnswersOrOpens : Obligations.SreadAnswersOrOpens := by
  unfold Obligations.SreadAnswersOrOpens
  intro s j k u hu hbusy
  have hexec : exec (.sread j k) s = .next (s.setSrd j (u.read k)) := execSread_of_idle hu hbusy k
  rw [hexec]
  refine ⟨fun hterm => ?_, fun hdone herror hk => ?_, fun hdone herror hk => ?_⟩
  · rw [read_of_terminal ((isTerminal_iff _).mpr hterm)]
    rfl
  · rw [hk, read_zero ((isTerminal_eq_false_iff _).mpr ⟨hdone, herror⟩)]
    rfl
  · rw [read_of_running ((isTerminal_eq_false_iff _).mpr ⟨hdone, herror⟩) hk]
    rfl

/-- Settles O36: there is no such unit in the list. -/
theorem missingSrdIsRefused : Obligations.MissingSrdIsRefused := by
  unfold Obligations.MissingSrdIsRefused
  intro s j k hunits hj
  have hnone : s.srd[j]? = none := List.getElem?_eq_none (hunits ▸ hj)
  simp [exec, execSinit, execSread, hnone]

/-- Settles O38: each command's first check is whether its block is idle. -/
theorem busyBlocksHoldCommands : Obligations.BusyBlocksHoldCommands := by
  unfold Obligations.BusyBlocksHoldCommands
  exact fun s => ⟨fun base len hst => execPack_of_held base len hst,
    fun base len hst => execUnpack_of_held base len hst,
    fun j u hu hbusy => execSinit_of_busy hu hbusy,
    fun j k u hu hbusy => execSread_of_busy hu hbusy k⟩

/-! ### Moves of the host -/

theorem step_of_sched {s : State} {m : Move} {rest : List Move} (h : s.sched = m :: rest) :
    step s = move m { s with sched := rest } := by
  simp only [step, h]

/-- Settles O4: the reset move is `State.unitReset`. -/
theorem unitResetSetsEveryRegister : Obligations.UnitResetSetsEveryRegister := by
  unfold Obligations.UnitResetSetsEveryRegister
  intro s rest h
  exact ⟨_, step_of_sched h, rfl, rfl, rfl, rfl, rfl, rfl, rfl, rfl, rfl⟩

theorem isRecord_of_commandAgent {i : Instr} {a : Agent} (h : commandAgent i = some a) : i.isRecord = false := by
  cases i with
  | zrun | lrun | sparse => cases h
  | pack | unpack | sinit | sread => rfl

/-- Settles O37: the word decodes to the command it encodes, and goes to that command's block. -/
theorem issuedCommandWaitsOnItsChannel : Obligations.IssuedCommandWaitsOnItsChannel := by
  unfold Obligations.IssuedCommandWaitsOnItsChannel
  intro s i a rest hwf hagent hexists hsched
  have hdec := decodeCommand_encodeCommand (isRecord_of_commandAgent hagent) hwf
  have hexists' : agentExists a { s with sched := rest } = true := by cases a <;> exact hexists
  have hchannel : channel a { s with sched := rest } = channel a s := by cases a <;> rfl
  simp only [step_of_sched hsched, move, hostIssue, hdec, hagent, hexists', hchannel, if_true]

theorem hostToken_of_unit {s : State} {j : Nat} {u : SrdUnit} (hu : s.srd[j]? = some u) (tok : Token) :
    hostToken j tok s = .next (s.setSrd j { u with src := u.src ++ [tok] }) := by
  simp [hostToken, hu]

theorem hostSink_of_unit {s : State} {j : Nat} {u : SrdUnit} (hu : s.srd[j]? = some u) (k : Sink) :
    hostSink (.srd j) k s = .next (s.setSrd j { u with port := { u.port with sink := k } }) := by
  simp [hostSink, hu]

/-- What replacing a unit that exists leaves in the list of units. -/
theorem setSrd_units {s : State} {j : Nat} {u : SrdUnit} (hu : s.srd[j]? = some u) (v : SrdUnit) :
    (s.setSrd j v).srd.length = s.srd.length ∧ (s.setSrd j v).srd[j]? = some v ∧
      ∀ k, k ≠ j → (s.setSrd j v).srd[k]? = s.srd[k]? := by
  obtain ⟨hj, -⟩ := List.getElem?_eq_some_iff.mp hu
  exact ⟨List.length_set, List.getElem?_set_self hj, fun k hk => List.getElem?_set_ne hk.symm⟩

/-- Settles O59: the token move replaces one unit. -/
theorem hostTokenAppendsOneToken : Obligations.HostTokenAppendsOneToken := by
  unfold Obligations.HostTokenAppendsOneToken
  intro s j tok u rest hsched hu
  exact ⟨_, (step_of_sched hsched).trans (hostToken_of_unit (s := { s with sched := rest }) hu tok), rfl,
    setSrd_units (s := { s with sched := rest }) hu _⟩

/-- Settles O60: the sink move replaces one port, or one unit. -/
theorem hostSinkChangesConsumerAlone : Obligations.HostSinkChangesConsumerAlone := by
  unfold Obligations.HostSinkChangesConsumerAlone
  refine fun s k rest => ⟨fun hsched => step_of_sched hsched, fun hsched => step_of_sched hsched,
    fun j u hsched hu => ?_⟩
  exact ⟨_, (step_of_sched hsched).trans (hostSink_of_unit (s := { s with sched := rest }) hu k), rfl,
    setSrd_units (s := { s with sched := rest }) hu _⟩

/-- Settles O20: the write is refused in flight; elsewhere it is `Memory.put`. -/
theorem hostWritePlacesOneByte : Obligations.HostWritePlacesOneByte := by
  unfold Obligations.HostWritePlacesOneByte
  intro s addr b rest hsched hin hwf
  have hstep : step s = hostWrite addr b { s with sched := rest } := step_of_sched hsched
  have hin' : ¬ ({ s with sched := rest } : State).params.space ≤ addr := Nat.not_le.mpr hin
  refine ⟨fun hflight => ?_, fun hflight => ?_⟩
  · have hflight' : inFlight { s with sched := rest } addr = true := hflight
    rw [hstep, hostWrite, if_neg hin', if_pos hflight']
  · have hflight' : ¬ inFlight { s with sched := rest } addr = true := Bool.eq_false_iff.mp hflight
    rw [hstep, hostWrite, if_neg hin', if_neg hflight']
    exact ⟨_, rfl, rfl, Memory.put_wf _ _ _ hwf, Memory.get_put_same _ _ _, fun a ha => Memory.get_put_other _ _ _ _ ha⟩

end Sys2Proof.Proofs
end

section
/-! A block's turn (R12, R237, log 6) and single FSM steps: what they deliver (R12), and when they wait (R56, R164). -/

namespace Sys2Proof.Proofs

open Sys2Proof Sys2Proof.Machine

/-! ### Turns -/

theorem acceptsCommand_with (a b : Agent) (ms : List Move) (s : State) :
    acceptsCommand a { s with sched := ms, turn := b } = acceptsCommand a s := by
  cases a <;> rfl

theorem channel_with (a b : Agent) (ms : List Move) (s : State) :
    channel a { s with sched := ms, turn := b } = channel a s := by
  cases a <;> rfl

/-- R237: an idle block executes the command at the head of its channel. -/
theorem blockTurn_of_command {a : Agent} {s : State} {bits : Nat} {cmds : List Nat} {i : Instr}
    (haccepts : acceptsCommand a s = true) (hchannel : channel a s = bits :: cmds)
    (hdec : decode s.params (.command bits) = .ok i) :
    blockTurn a s = some (exec i (setChannel a { s with turn := a } cmds)) := by
  have hchannel' : channel a { s with turn := a } = bits :: cmds := (channel_with a a s.sched s).trans hchannel
  simp only [blockTurn, haccepts, if_true, acceptHead, hchannel', hdec]

/-- R12: a block with no command to accept takes its FSM step, or has none. -/
theorem tickOutcome_of_no_command {a : Agent} {s : State} (h : acceptsCommand a s = false ∨ channel a s = []) :
    tickOutcome a s = (blockStep a { s with turn := a }).outcome s := by
  have hnone : (if acceptsCommand a s then acceptHead a { s with turn := a } else none) = none := by
    rcases h with h | h
    · simp [h]
    · have hchannel' : channel a { s with turn := a } = [] := (channel_with a a s.sched s).trans h
      simp [acceptHead, hchannel']
  simp only [tickOutcome, blockTurn, hnone]
  cases blockStep a { s with turn := a } <;> rfl

theorem tickOutcome_of_turn {a : Agent} {s : State} {o : Host.Outcome State Fault Refusal}
    (h : blockTurn a s = some o) : tickOutcome a s = o := by
  simp only [tickOutcome, h]

/-- With no move scheduled, no block of the list can do anything, or one takes its turn (R213). -/
theorem firstTurn_none_or_some (as : List Agent) (s : State) :
    (firstTurn as s = .next s ∧ ∀ a ∈ as, blockTurn a s = none) ∨
    ∃ a ∈ as, ∃ o, blockTurn a s = some o ∧ firstTurn as s = o := by
  induction as with
  | nil => exact .inl ⟨rfl, fun a ha => nomatch ha⟩
  | cons a as ih =>
    cases hturn : blockTurn a s with
    | some o => exact .inr ⟨a, List.mem_cons_self, o, hturn, by simp only [firstTurn, hturn]⟩
    | none =>
      have hrest : firstTurn (a :: as) s = firstTurn as s := by simp only [firstTurn, hturn]
      rw [hrest]
      rcases ih with ⟨hstay, hall⟩ | ⟨b, hb, o, ho, hfirst⟩
      · exact .inl ⟨hstay, List.forall_mem_cons.mpr ⟨hturn, hall⟩⟩
      · exact .inr ⟨b, List.mem_cons_of_mem a hb, o, ho, hfirst⟩

/-- Settles O22: the three clauses are `blockTurn_of_command`, `tickOutcome_of_no_command` and
`firstTurn_none_or_some`. -/
theorem stepRunsHeldCommand : Obligations.StepRunsHeldCommand := by
  unfold Obligations.StepRunsHeldCommand
  refine ⟨fun s a rest bits cmds i hsched haccepts hchannel hdec _ => ?_, fun s a rest hsched hno => ?_,
    fun s hsched => ?_⟩
  · have haccepts' := (acceptsCommand_with a s.turn rest s).trans haccepts
    have hchannel' := (channel_with a s.turn rest s).trans hchannel
    exact (step_of_sched hsched).trans (tickOutcome_of_turn (blockTurn_of_command haccepts' hchannel' hdec))
  · have hno' : acceptsCommand a { s with sched := rest } = false ∨ channel a { s with sched := rest } = [] :=
      hno.imp (acceptsCommand_with a s.turn rest s).trans (channel_with a s.turn rest s).trans
    exact (step_of_sched hsched).trans (tickOutcome_of_no_command hno')
  · have hstep : step s = firstTurn (agents s) s := by simp only [step, hsched]
    rw [hstep]
    refine (firstTurn_none_or_some (agents s) s).imp_right ?_
    rintro ⟨a, ha, o, ho, hfirst⟩
    have hsame : ({ s with sched := [] } : State) = s := by rw [← hsched]
    have htick : step { s with sched := [.tick a] } = tickOutcome a s :=
      congrArg (tickOutcome a) hsame
    exact ⟨a, ha, Option.isSome_iff_exists.mpr ⟨o, ho⟩, hfirst.trans (htick.trans (tickOutcome_of_turn ho)).symm⟩

theorem fetchRecord_with (a b : Agent) (ms : List Move) (s : State) :
    fetchRecord a { s with sched := ms, turn := b } = fetchRecord a s := by
  cases a <;> rfl

/-- Settles O23: a record move is `recordOutcome`, which looks at the fetched record alone. -/
theorem stepRunsRecordAtCursor : Obligations.StepRunsRecordAtCursor := by
  unfold Obligations.StepRunsRecordAtCursor
  intro s a rest hsched
  have hfetch := fetchRecord_with a s.turn rest s
  have hstep : step s = recordOutcome a { s with sched := rest } := step_of_sched hsched
  refine ⟨fun i hi _ => ?_, fun hnone => ?_⟩
  · simp only [hstep, recordOutcome, hfetch.trans hi]
  · simp only [hstep, recordOutcome, hfetch.trans hnone]
    rfl

/-! ### What a step delivers (R12) -/

/-- ENC's step commits one effect. -/
theorem encStepFrom_commits {supply : Nat → Option Word} {s t : State} (h : encStepFrom supply s = .moves t) :
    ∃ (e : Effect Enc Byte) (p : Port Byte), s.encPort.commit e.emit e.resp = some p ∧ t = { s with enc := e.regs, encPort := p } := by
  obtain ⟨e, hcommit, -⟩ := encStepFrom_moves supply s t h
  exact ⟨e, State.commitEnc_moves s t e hcommit⟩

/-- DEC's step commits one effect. -/
theorem decStepFrom_commits {supply : Nat → Option Byte} {s t : State} (h : decStepFrom supply s = .moves t) :
    ∃ (e : Effect Dec Word) (p : Port Word), s.decPort.commit e.emit e.resp = some p ∧ t = { s with dec := e.regs, decPort := p } := by
  suffices hcommit : ∃ e, s.commitDec e = .moves t by
    obtain ⟨e, he⟩ := hcommit
    exact ⟨e, State.commitDec_moves s t e he⟩
  rcases decStepFrom_moves supply s t h with ⟨-, hcommit⟩ | ⟨atEnd, rule, hconsume, -⟩
  · exact ⟨_, hcommit⟩
  · rcases decConsume_moves supply s t atEnd rule hconsume with ⟨-, hcommit⟩ | ⟨-, b, -, hcommit⟩
    · exact ⟨_, hcommit⟩
    · exact ⟨_, hcommit⟩

theorem length_toList_le_one {α : Type} (o : Option α) : o.toList.length ≤ 1 := by
  cases o <;> simp

/-- A commit adds at most one item and at most one response. -/
theorem commit_adds_at_most_one {α : Type} {p q : Port α} {item : Option α} {resp : Option Response}
    (h : p.commit item resp = some q) : q.out.length ≤ p.out.length + 1 ∧ q.resp.length ≤ p.resp.length + 1 := by
  obtain ⟨-, hout, hresp, -⟩ := Port.commit_eq_some p q item resp h
  rw [hout, hresp, List.length_append, List.length_append]
  exact ⟨Nat.add_le_add_left (length_toList_le_one item) _, Nat.add_le_add_left (length_toList_le_one resp) _⟩

/-- A commit to a consumer that accepts nothing adds no item. -/
theorem commit_out_of_not_ready {α : Type} {p q : Port α} {item : Option α} {resp : Option Response}
    (hready : p.sink.ready = false) (h : p.commit item resp = some q) : q.out = p.out := by
  obtain ⟨-, hout, -, haccepted, -⟩ := Port.commit_eq_some p q item resp h
  cases item with
  | none => simpa using hout
  | some a => exact absurd (haccepted rfl) (by simp [hready])

/-- The rule of a state pulls at most one token (R164). -/
theorem srdRule_src {r r' : Srd} {src rest : List Token} {item : Option Byte}
    (h : srdRule r src = some (r', item, rest)) : rest = src ∨ rest = src.drop 1 := by
  revert h
  fun_cases srdRule r src <;> simp <;> grind

/-- Settles O26: every step commits one effect, and a rule of SRD pulls at most one token. -/
theorem oneItemPerStep : Obligations.OneItemPerStep := by
  unfold Obligations.OneItemPerStep
  refine ⟨fun s t h => ?_, fun s t h => ?_, fun u v h => ?_⟩
  · obtain ⟨e, p, hcommit, rfl⟩ := encStepFrom_commits h
    exact commit_adds_at_most_one hcommit
  · obtain ⟨e, p, hcommit, rfl⟩ := decStepFrom_commits h
    exact commit_adds_at_most_one hcommit
  · obtain ⟨-, r, item, src, p, hrule, hcommit, rfl⟩ := srdUnitStep_some u v h
    obtain ⟨hout, hresp⟩ := commit_adds_at_most_one hcommit
    exact ⟨hout, hresp, srdRule_src hrule⟩

/-! ### When a step waits (R12, R56, R164) -/

theorem commit_some_of_not_ready {α : Type} {p : Port α} (hready : p.sink.ready = false) (a : α)
    (resp : Option Response) : p.commit (some a) resp = none := by
  cases resp <;> simp [Port.commit, Port.emit, hready]

theorem commitEnc_waits {s : State} {e : Effect Enc Byte} (hready : s.encPort.sink.ready = false)
    (hemit : e.emit.isSome = true) : s.commitEnc e = .waits := by
  obtain ⟨b, hb⟩ := Option.isSome_iff_exists.mp hemit
  simp only [State.commitEnc, hb, commit_some_of_not_ready hready]

theorem commitDec_waits {s : State} {e : Effect Dec Word} (hready : s.decPort.sink.ready = false)
    (hemit : e.emit.isSome = true) : s.commitDec e = .waits := by
  obtain ⟨w, hw⟩ := Option.isSome_iff_exists.mp hemit
  simp only [State.commitDec, hw, commit_some_of_not_ready hready]

/-- A run scan reads its next word while a word is left and the count is below 255 (R109, R111). -/
theorem mayScan_iff (e : Enc) (i : Nat) : e.mayScan i = true ↔ i < e.nw ∧ e.cnt ≠ 255 := by
  have hcnt := e.cnt.isLt
  have hmax : e.cnt.toNat < 255 ↔ e.cnt ≠ 255 := by
    rw [Ne, ← BitVec.toNat_inj]
    simp
    omega
  simp [Enc.mayScan, Config.runMax, hmax]

theorem mayScan_eq_false_iff (e : Enc) (i : Nat) : e.mayScan i = false ↔ e.nw ≤ i ∨ e.cnt = 255 := by
  rw [← Bool.not_eq_true, mayScan_iff, not_and_or, not_lt, not_ne_iff]

theorem encZscan_emit_none (e : Enc) : (encZscan e none).emit.isSome = true := rfl

theorem encLscan_emit_none (e : Enc) : (encLscan e none).emit.isSome = true := rfl

theorem encZscan_of_nonzero (e : Enc) {v : Word} (hv : v ≠ 0) :
    encZscan e (some v) = encZscan e none := by
  have hzero : isZeroWord v = false := Bool.eq_false_iff.mpr (mt (isZeroWord_iff v).mp hv)
  simp [encZscan, hzero]

theorem encLscan_of_ending (e : Enc) {v : Word} (hv : continuesLiteral v = false) :
    encLscan e (some v) = encLscan e none := by
  simp [encLscan, hv]

/-- Settles O27: with a consumer that accepts nothing, a commit with an item waits, and each state named emits. -/
theorem unreadyConsumerBlocksOutput : Obligations.UnreadyConsumerBlocksOutput := by
  unfold Obligations.UnreadyConsumerBlocksOutput
  refine ⟨fun s t hready h => ?encOut, fun s t hready h => ?decOut, fun u v hready h => ?srdOut,
    fun s hready => ?enc, fun s hready => ?dec, fun u hready hst => ?srd⟩
  case encOut =>
    obtain ⟨e, p, hcommit, rfl⟩ := encStepFrom_commits h
    exact commit_out_of_not_ready hready hcommit
  case decOut =>
    obtain ⟨e, p, hcommit, rfl⟩ := decStepFrom_commits h
    exact commit_out_of_not_ready hready hcommit
  case srdOut =>
    obtain ⟨-, r, item, src, p, -, hcommit, rfl⟩ := srdUnitStep_some u v h
    exact commit_out_of_not_ready hready hcommit
  case enc =>
    have hwaits : ∀ e : Effect Enc Byte, e.emit.isSome = true → s.commitEnc e = .waits :=
      fun e => commitEnc_waits hready
    refine ⟨fun hst => ?emitting, fun hst hend => ?zscanEnd, fun v hst hcur hcnt hread hv => ?zscanWord,
      fun hst hend => ?lscanEnd, fun v hst hscan hcnt hread hv => ?lscanWord, fun b hst hread => ?lcopy⟩
    case emitting =>
      rcases hst with hst | hst | hst <;> simp only [encStep, encStepFrom, hst]
      · exact hwaits _ rfl
      · exact hwaits _ rfl
      · exact hwaits _ rfl
    case zscanEnd =>
      simp only [encStep, encStepFrom, hst, (mayScan_eq_false_iff _ _).mpr hend]
      exact hwaits _ (encZscan_emit_none _)
    case zscanWord =>
      simp only [encStep, encStepFrom, hst, (mayScan_iff _ _).mpr ⟨hcur, hcnt⟩, encWord, hread, BlockStep.ofRead,
        encZscan_of_nonzero _ hv]
      exact hwaits _ (encZscan_emit_none _)
    case lscanEnd =>
      simp only [encStep, encStepFrom, hst, (mayScan_eq_false_iff _ _).mpr hend]
      exact hwaits _ (encLscan_emit_none _)
    case lscanWord =>
      simp only [encStep, encStepFrom, hst, (mayScan_iff _ _).mpr ⟨hscan, hcnt⟩, encWord, hread, BlockStep.ofRead,
        encLscan_of_ending _ hv]
      exact hwaits _ (encLscan_emit_none _)
    case lcopy =>
      simp only [encStep, encStepFrom, hst, encByte, hread, BlockStep.ofRead]
      exact hwaits _ rfl
  case dec =>
    have hwaits : ∀ e : Effect Dec Word, e.emit.isSome = true → s.commitDec e = .waits :=
      fun e => commitDec_waits hready
    refine ⟨fun hst => ?zemit, fun b hpos hread hst => ?consuming⟩
    case zemit =>
      simp only [decStep, decStepFrom, hst]
      exact hwaits _ rfl
    case consuming =>
      rcases hst with hst | ⟨hst, hk⟩ | ⟨hst, hk⟩ <;>
        simp only [decStep, decStepFrom, hst, decConsume, hpos, if_false, decByte, hread, BlockStep.ofRead]
      · exact hwaits _ rfl
      · exact hwaits _ (by simp [decSparse, hk])
      · exact hwaits _ (by simp [decLraw, hk])
  case srd =>
    have hrule : ∃ r b src, srdRule u.regs u.src = some (r, some b, src) := by
      rcases hst with hst | hst | ⟨hst, b, rest, hsrc⟩
      · exact ⟨_, _, _, by simp only [srdRule, hst]; rfl⟩
      · exact ⟨_, _, _, by simp only [srdRule, hst]; rfl⟩
      · exact ⟨_, _, _, by simp only [srdRule, hst, hsrc, srdOnByte]; rfl⟩
    obtain ⟨r, b, src, hrule⟩ := hrule
    simp [srdUnitStep, hrule, commit_some_of_not_ready hready]

/-- R164: a consuming state with no token has no rule to follow. -/
theorem srdRule_of_no_token {r : Srd}
    (hst : r.st = .tag ∨ r.st = .bytes ∨ r.st = .zeroCount ∨ r.st = .litWord ∨ r.st = .litCount ∨
      r.st = .emitLiterals) : srdRule r [] = none := by
  rcases hst with hst | hst | hst | hst | hst | hst <;> simp only [srdRule, hst]

/-- Settles O28: `srdRule_of_no_token`. -/
theorem emptySourceBlocksRead : Obligations.EmptySourceBlocksRead := by
  unfold Obligations.EmptySourceBlocksRead
  intro s j u hu hsrc hst
  refine srdStep_of_unit_waits hu ?_
  simp [srdUnitStep, hsrc, srdRule_of_no_token hst]

end Sys2Proof.Proofs
end

section
/-! What a step of the machine can do, said once. A step is a block's turn or a move of the host
(`stepOutcome_step`); whatever it is, the state it answers is reached by elementary changes of one block each
(`step_cases`), or by a host write or reset. -/

namespace Sys2Proof.Proofs

open Sys2Proof Sys2Proof.Machine

/-! ### The outcomes of a step -/

/-- The next move of the schedule is a block's turn, or the schedule is empty. -/
def BlocksTurn (s : State) (a : Agent) : Prop :=
  s.sched = [] ∨ ∃ rest, s.sched = .tick a :: rest ∨ s.sched = .record a :: rest

/-- The state in which a block takes its turn. -/
def onTurn (s : State) (a : Agent) : State := { s with sched := s.sched.tail, turn := a }

@[simp] theorem onTurn_enc (s : State) (a : Agent) : (onTurn s a).enc = s.enc := rfl
@[simp] theorem onTurn_dec (s : State) (a : Agent) : (onTurn s a).dec = s.dec := rfl
@[simp] theorem onTurn_srd (s : State) (a : Agent) : (onTurn s a).srd = s.srd := rfl
@[simp] theorem onTurn_params (s : State) (a : Agent) : (onTurn s a).params = s.params := rfl
@[simp] theorem onTurn_turn (s : State) (a : Agent) : (onTurn s a).turn = a := rfl

/-- What a step can answer: a block does nothing, takes its FSM step, executes the record at its cursor or a command
it accepts, or the host moves. -/
inductive StepOutcome (s : State) : Host.Outcome State Fault Refusal → Prop
  | stays : StepOutcome s (.next { s with sched := s.sched.tail })
  | moves {a : Agent} {t : State} (hstep : blockStep a (onTurn s a) = .moves t) : StepOutcome s (.next t)
  | faults {a : Agent} {f : Fault} (hstep : blockStep a (onTurn s a) = .faults f) : StepOutcome s (.fault f)
  | record {a : Agent} {i : Instr} (hfetch : fetchRecord a s = some i) : StepOutcome s (exec i (onTurn s a))
  | command {a : Agent} {bits : Nat} {cmds : List Nat} {i : Instr} (hturn : BlocksTurn s a)
      (haccepts : acceptsCommand a s = true) (hchannel : channel a s = bits :: cmds)
      (hdec : decodeCommand s.params bits = .ok i) : StepOutcome s (exec i (setChannel a (onTurn s a) cmds))
  | notACommand : StepOutcome s (.refused .notACommand)
  | host {m : Move} {rest : List Move} (hsched : s.sched = m :: rest)
      (hhost : (∀ a, m ≠ .tick a) ∧ ∀ a, m ≠ .record a) : StepOutcome s (move m { s with sched := rest })

/-- A block's turn, in the state the step has taken the move off. -/
theorem stepOutcome_of_blockTurn {s : State} {a : Agent} {o : Host.Outcome State Fault Refusal}
    (hturn : BlocksTurn s a) (h : blockTurn a { s with sched := s.sched.tail } = some o) : StepOutcome s o := by
  rcases blockTurn_some a _ o h with ⟨haccepts, hhead⟩ | ⟨t, hstep, rfl⟩ | ⟨f, hstep, rfl⟩
  · obtain ⟨bits, cmds, hchannel, ⟨i, hdec, rfl⟩ | ⟨-, rfl⟩⟩ := acceptHead_some a _ o hhead
    · exact .command hturn ((acceptsCommand_with a s.turn _ s).symm.trans haccepts)
        ((channel_with a a _ s).symm.trans hchannel) hdec
    · exact .notACommand
  · exact .moves hstep
  · exact .faults hstep

theorem stepOutcome_of_tick {s : State} {a : Agent} (hturn : BlocksTurn s a) :
    StepOutcome s (tickOutcome a { s with sched := s.sched.tail }) := by
  unfold tickOutcome
  split
  case h_1 o ho => exact stepOutcome_of_blockTurn hturn ho
  case h_2 => exact .stays

/-- The inversion of a step. -/
theorem stepOutcome_step (s : State) : StepOutcome s (step s) := by
  cases hsched : s.sched with
  | nil =>
    have hsame : ({ s with sched := s.sched.tail } : State) = s := by
      have htail : s.sched.tail = s.sched := by rw [hsched]; rfl
      rw [htail]
    have hstep : step s = firstTurn (agents s) s := by simp only [step, hsched]
    rw [hstep]
    rcases firstTurn_cases (agents s) s with hstay | ⟨a, -, o, ho, hfirst⟩
    · rw [hstay]
      have hstays : StepOutcome s _ := .stays
      rwa [hsame] at hstays
    · rw [hfirst]
      exact stepOutcome_of_blockTurn (.inl hsched) (by rw [hsame]; exact ho)
  | cons m rest =>
    have htail : ({ s with sched := rest } : State) = { s with sched := s.sched.tail } := by rw [hsched]; rfl
    rw [step_of_sched hsched]
    cases m with
    | tick a =>
      rw [htail]
      exact stepOutcome_of_tick (.inr ⟨rest, .inl hsched⟩)
    | record a =>
      rw [htail, move, recordOutcome]
      split
      case h_1 i hi => exact .record ((fetchRecord_with a s.turn _ s).symm.trans hi)
      case h_2 => exact stepOutcome_of_tick (.inr ⟨rest, .inr hsched⟩)
    | issue | token | sink | write | reset =>
      exact .host hsched ⟨fun a => nofun, fun a => nofun⟩

/-! ### What executing an instruction can do -/

/-- A record fetched at a block's cursor is a record, and the block is at a record boundary. -/
theorem isRecord_of_decodeRecord {bytes rest : List Byte} {i : Instr} (h : decodeRecord bytes = .ok (i, rest)) :
    i.isRecord = true := by
  revert h
  fun_cases decodeRecord bytes <;> rintro ⟨⟩ <;> rfl

theorem exists_decodeRecord_of_firstRecord {bytes : List Byte} {i : Instr} (h : firstRecord bytes = some i) :
    ∃ rest, decodeRecord bytes = .ok (i, rest) := by
  unfold firstRecord at h
  cases hdec : decodeRecord bytes with
  | error e => rw [hdec] at h; cases h
  | ok r =>
    rw [hdec] at h
    cases h
    exact ⟨r.2, rfl⟩

theorem isRecord_of_nextRecord {ws : List Word} {i : Instr} (h : nextRecord ws = some i) : i.isRecord = true := by
  revert h
  fun_cases nextRecord ws <;> rintro ⟨⟩ <;> rfl

theorem isRecord_of_fetchRecord {a : Agent} {s : State} {i : Instr} (h : fetchRecord a s = some i) :
    i.isRecord = true := by
  have hfirst : ∀ {bytes : List Byte}, firstRecord bytes = some i → i.isRecord = true := fun hbytes =>
    (exists_decodeRecord_of_firstRecord hbytes).elim fun _ => isRecord_of_decodeRecord
  revert h
  fun_cases fetchRecord a s
  case case1 => exact isRecord_of_nextRecord
  case case3 => exact hfirst
  case case6 => exact hfirst
  all_goals exact nofun

theorem fetchRecord_enc (s : State) :
    fetchRecord .enc s = if s.enc.atRecord then nextRecord (encWindow s) else none := rfl

theorem fetchRecord_dec (s : State) :
    fetchRecord .dec s = if s.dec.atRecord then firstRecord (decWindow s) else none := rfl

theorem atRecord_of_fetchRecord {j : Nat} {s : State} {i : Instr} (h : fetchRecord (.srd j) s = some i) :
    ∃ u, s.srd[j]? = some u ∧ u.regs.atRecord = true ∧ firstRecord (availableBytes (u.src.take maxRecordLength)) = some i := by
  unfold fetchRecord at h
  cases hu : s.srd[j]? with
  | none => simp only [hu] at h; cases h
  | some u =>
    simp only [hu] at h
    split at h
    case isTrue hat => exact ⟨u, rfl, hat, h⟩
    case isFalse => cases h

/-- Executing a record, on whatever block's turn it is, is that block's record run with the steps of the instruction
rule. -/
def runRecord (a : Agent) (i : Instr) (s : State) : BlockStep :=
  match a with
  | .enc => encRecord i (recordSteps .enc i) s
  | .dec => decRecord i (recordSteps .dec i) s
  | .srd j => srdRecord j i (recordSteps (.srd j) i) s

theorem exec_of_record {i : Instr} (hrec : i.isRecord = true) (s : State) :
    exec i s = (runRecord s.turn i s).outcome s := by
  cases i with
  | zrun n =>
    show execZrun n s = _
    unfold execZrun runRecord
    cases s.turn <;> rfl
  | lrun seed raw =>
    show execLrun seed raw s = _
    unfold execLrun runRecord
    cases s.turn <;> rfl
  | sparse b lits =>
    show execSparse b lits s = _
    unfold execSparse runRecord
    cases s.turn <;> rfl
  | _ => cases hrec

theorem encRecord_cases (i : Instr) (k : Nat) (s : State) :
    encRecord i k s = .waits ∨ ∃ supply, encRecord i k s = burst (encStepFrom supply) k s := by
  unfold encRecord
  split
  · exact .inr ⟨_, rfl⟩
  · exact .inl rfl

theorem decRecord_cases (i : Instr) (k : Nat) (s : State) :
    decRecord i k s = .waits ∨ ∃ supply, decRecord i k s = burst (decStepFrom supply) k s := by
  unfold decRecord
  split
  · exact .inr ⟨_, rfl⟩
  · exact .inl rfl

theorem srdRecord_cases (j : Nat) (i : Instr) (k : Nat) (s : State) :
    srdRecord j i k s = .waits ∨ ∃ u, s.srd[j]? = some u ∧ u.regs.atRecord = true ∧
      srdRecord j i k s = .moves (s.setSrd j (srdUnitBurst k { u with src := overlay (encodeRecord i) u.src })) := by
  unfold srdRecord
  split
  case h_1 => exact .inl rfl
  case h_2 u hu =>
    split
    case isTrue hat => exact .inr ⟨u, hu, hat, rfl⟩
    case isFalse => exact .inl rfl

/-- What an UNPACK that answers a next state has done: it was held, or accepted (R135). -/
theorem execUnpack_next {base len : Nat} {s t : State} (h : execUnpack base len s = .next t) :
    (s.dec.st ≠ .idle ∧ t = { s with decPort := s.decPort.hold (encodeCommand s.params (.unpack base len)) }) ∨
    (s.dec.st = .idle ∧ base + len ≤ s.params.space ∧ t = { s with dec := decAccept s.dec base len }) := by
  by_cases hst : s.dec.st = .idle
  · cases hfit : Params.fits s.params base len with
    | false => rw [execUnpack_of_not_fits hst hfit] at h; cases h
    | true =>
      rw [execUnpack_of_accepted hst hfit] at h
      cases h
      exact .inr ⟨hst, of_decide_eq_true hfit, rfl⟩
  · rw [execUnpack_of_held base len hst] at h
    cases h
    exact .inl ⟨hst, rfl⟩

/-- What a SINIT that answers a next state has done: it was held, or the unit was initialised (R161). -/
theorem execSinit_next {j : Nat} {s t : State} (h : execSinit j s = .next t) :
    ∃ u, s.srd[j]? = some u ∧ ((u.regs.busy = true ∧ t = s.setSrd j (u.hold (encodeCommand s.params (.sinit j)))) ∨
      (u.regs.busy = false ∧ t = s.setSrd j u.init)) := by
  cases hu : s.srd[j]? with
  | none => simp only [execSinit, hu] at h; cases h
  | some u =>
    refine ⟨u, rfl, ?_⟩
    cases hbusy : u.regs.busy with
    | true => rw [execSinit_of_busy hu hbusy] at h; cases h; exact .inl ⟨rfl, rfl⟩
    | false => rw [execSinit_of_idle hu hbusy] at h; cases h; exact .inr ⟨rfl, rfl⟩

/-- What an SREAD that answers a next state has done: it was held, or taken by the unit (R162). -/
theorem execSread_next {j k : Nat} {s t : State} (h : execSread j k s = .next t) :
    ∃ u, s.srd[j]? = some u ∧ ((u.regs.busy = true ∧ t = s.setSrd j (u.hold (encodeCommand s.params (.sread j k)))) ∨
      (u.regs.busy = false ∧ t = s.setSrd j (u.read k))) := by
  cases hu : s.srd[j]? with
  | none => simp only [execSread, hu] at h; cases h
  | some u =>
    refine ⟨u, rfl, ?_⟩
    cases hbusy : u.regs.busy with
    | true => rw [execSread_of_busy hu hbusy] at h; cases h; exact .inl ⟨rfl, rfl⟩
    | false => rw [execSread_of_idle hu hbusy] at h; cases h; exact .inr ⟨rfl, rfl⟩

/-! ### Elementary changes -/

/-- What can happen to one SRD unit, but for reset: its FSM steps, it accepts a command while no transaction is open,
or its channels change on the host's side. -/
inductive UnitChange (p : Params) (u : SrdUnit) : SrdUnit → Prop
  | fsmStep {v : SrdUnit} (hstep : srdUnitStep u = some v) : UnitChange p u v
  | init (hidle : u.regs.busy = false) : UnitChange p u u.init
  | read {k : Nat} (hidle : u.regs.busy = false) (hk : k < 2 ^ p.kw) : UnitChange p u (u.read k)
  | channels {v : SrdUnit} (hregs : v.regs = u.regs) (hout : v.port.out = u.port.out)
      (hresp : v.port.resp = u.port.resp) : UnitChange p u v

/-- One elementary change of the machine, but for a host write and reset: a step of one block, the acceptance of a
command, or a change of channels on the host's side. -/
inductive Change (s : State) : State → Prop
  | encStep {supply : Nat → Option Word} {t : State} (hstep : encStepFrom supply s = .moves t) : Change s t
  | decStep {supply : Nat → Option Byte} {t : State} (hstep : decStepFrom supply s = .moves t) : Change s t
  | unit {j : Nat} {u v : SrdUnit} (hu : s.srd[j]? = some u) (huv : UnitChange s.params u v) : Change s (s.setSrd j v)
  | pack {base len : Nat} (hwf : (Instr.pack base len).wellFormed s.params = true) (hidle : s.enc.st = .idle)
      (hfit : base + len ≤ s.params.space) : Change s { s with enc := encAccept s.enc base len }
  | misaligned {base len : Nat} (hidle : s.enc.st = .idle) (hfit : base + len ≤ s.params.space) :
      Change s (s.takeAlignFault base len)
  | unpack {base len : Nat} (hwf : (Instr.unpack base len).wellFormed s.params = true)
      (hfit : base + len ≤ s.params.space) : Change s { s with dec := decAccept s.dec base len }
  | channels {ep : Port Byte} {dp : Port Word} {ms : List Move} {a : Agent} (hout : ep.out = s.encPort.out)
      (hresp : ep.resp = s.encPort.resp) (hcmds : s.enc.st = .fault → s.encPort.cmds <+: ep.cmds)
      (hdout : dp.out = s.decPort.out) (hdresp : dp.resp = s.decPort.resp) :
      Change s { s with encPort := ep, decPort := dp, sched := ms, turn := a }

/-- A state is reached from another by elementary changes. -/
abbrev Changes : State → State → Prop := Relation.ReflTransGen Change

theorem changes_of_schedule (s : State) (ms : List Move) (a : Agent) : Changes s { s with sched := ms, turn := a } :=
  .single (.channels (ep := s.encPort) (dp := s.decPort) rfl rfl (fun _ => List.prefix_rfl) rfl rfl)

/-- The commands waiting for ENC change on the host's side; while it is stuck they are only added to. -/
theorem changes_of_encPort {s : State} {ep : Port Byte} (hout : ep.out = s.encPort.out)
    (hresp : ep.resp = s.encPort.resp) (hcmds : s.enc.st = .fault → s.encPort.cmds <+: ep.cmds) :
    Changes s { s with encPort := ep } :=
  .single (.channels (ep := ep) (dp := s.decPort) (ms := s.sched) (a := s.turn) hout hresp hcmds rfl rfl)

theorem changes_of_decPort {s : State} {dp : Port Word} (hout : dp.out = s.decPort.out)
    (hresp : dp.resp = s.decPort.resp) : Changes s { s with decPort := dp } :=
  .single (.channels (ep := s.encPort) (dp := dp) (ms := s.sched) (a := s.turn) rfl rfl
    (fun _ => List.prefix_rfl) hout hresp)

theorem changes_of_unitChannels {s : State} {j : Nat} {u v : SrdUnit} (hu : s.srd[j]? = some u)
    (hregs : v.regs = u.regs) (hout : v.port.out = u.port.out) (hresp : v.port.resp = u.port.resp) :
    Changes s (s.setSrd j v) :=
  .single (.unit hu (.channels hregs hout hresp))

/-- A burst of a block's steps, each an elementary change. -/
theorem changes_of_burst {f : State → BlockStep} (hf : ∀ s t, f s = .moves t → Change s t) (k : Nat) (s t : State)
    (h : burst f k s = .moves t) : Changes s t :=
  burst_invariant f (Changes s) (fun u v hu hv => hu.tail (hf u v hv)) k s t .refl h

/-- A burst of a unit's steps, each an elementary change. -/
theorem changes_of_srdUnitBurst (k : Nat) : ∀ {s : State} {j : Nat} {u : SrdUnit}, s.srd[j]? = some u →
    Changes s (s.setSrd j (srdUnitBurst k u)) := by
  induction k with
  | zero => exact fun hu => changes_of_unitChannels hu rfl rfl rfl
  | succ k ih =>
    intro s j u hu
    cases hstep : srdUnitStep u with
    | none => simpa only [srdUnitBurst, hstep] using changes_of_unitChannels hu rfl rfl rfl
    | some v =>
      have hfirst : Changes s (s.setSrd j v) := .single (.unit hu (.fsmStep hstep))
      have hrest := ih (s := s.setSrd j v) (setSrd_units hu v).2.1
      have hset : (s.setSrd j v).setSrd j (srdUnitBurst k v) = s.setSrd j (srdUnitBurst k v) := by
        simp [State.setSrd]
      simpa only [srdUnitBurst, hstep, hset] using hfirst.trans hrest

theorem changes_of_runRecord {a : Agent} {i : Instr} {s t : State} (h : runRecord a i s = .moves t) :
    Changes s t := by
  cases a with
  | enc =>
    rcases encRecord_cases i (recordSteps .enc i) s with hwaits | ⟨supply, hburst⟩
    · exact absurd (hwaits.symm.trans h) nofun
    · exact changes_of_burst (fun _ _ => .encStep) _ s t (hburst.symm.trans h)
  | dec =>
    rcases decRecord_cases i (recordSteps .dec i) s with hwaits | ⟨supply, hburst⟩
    · exact absurd (hwaits.symm.trans h) nofun
    · exact changes_of_burst (fun _ _ => .decStep) _ s t (hburst.symm.trans h)
  | srd j =>
    rcases srdRecord_cases j i (recordSteps (.srd j) i) s with hwaits | ⟨u, hu, -, hburst⟩
    · exact absurd (hwaits.symm.trans h) nofun
    · cases hburst.symm.trans h
      have hfirst : Changes s (s.setSrd j { u with src := overlay (encodeRecord i) u.src }) :=
        changes_of_unitChannels hu rfl rfl rfl
      have hrest := changes_of_srdUnitBurst (recordSteps (.srd j) i) (setSrd_units hu
        { u with src := overlay (encodeRecord i) u.src }).2.1
      simpa [State.setSrd] using hfirst.trans hrest

theorem changes_of_exec_record {i : Instr} (hrec : i.isRecord = true) {s t : State} (h : exec i s = .next t) :
    Changes s t := by
  rw [exec_of_record hrec] at h
  rcases BlockStep.outcome_next _ s t h with hmoves | ⟨-, rfl⟩
  · exact changes_of_runRecord hmoves
  · exact .refl

/-- A well-formed command executed: held, or accepted by its block. -/
theorem changes_of_exec_command {i : Instr} {s t : State} (hcmd : i.isRecord = false)
    (hwf : i.wellFormed s.params = true) (h : exec i s = .next t) : Changes s t := by
  cases i with
  | zrun | lrun | sparse => cases hcmd
  | pack base len =>
    rcases execPack_next base len s t h with ⟨-, rfl⟩ | ⟨hidle, hfit, -, rfl⟩ | ⟨hidle, hfit, -, rfl⟩
    · exact changes_of_encPort rfl rfl fun _ => List.prefix_append _ _
    · exact .single (.misaligned hidle hfit)
    · exact .single (.pack hwf hidle hfit)
  | unpack base len =>
    rcases execUnpack_next h with ⟨-, rfl⟩ | ⟨-, hfit, rfl⟩
    · exact changes_of_decPort rfl rfl
    · exact .single (.unpack hwf hfit)
  | sinit j =>
    obtain ⟨u, hu, ⟨-, rfl⟩ | ⟨hidle, rfl⟩⟩ := execSinit_next h
    · exact changes_of_unitChannels hu rfl rfl rfl
    · exact .single (.unit hu (.init hidle))
  | sread j k =>
    simp only [Instr.wellFormed, Bool.and_eq_true, decide_eq_true_eq] at hwf
    obtain ⟨u, hu, ⟨-, rfl⟩ | ⟨hidle, rfl⟩⟩ := execSread_next h
    · exact changes_of_unitChannels hu rfl rfl rfl
    · exact .single (.unit hu (.read hidle hwf.2))

/-- The commands on a block's channel change; those of a stuck ENC are only added to. -/
theorem changes_of_setChannel (a : Agent) (s : State) (cmds : List Nat)
    (hcmds : a = .enc → s.enc.st = .fault → s.encPort.cmds <+: cmds) : Changes s (setChannel a s cmds) := by
  cases a with
  | enc => exact changes_of_encPort rfl rfl (hcmds rfl)
  | dec => exact changes_of_decPort rfl rfl
  | srd j =>
    unfold setChannel
    dsimp only
    split
    case h_1 => exact .refl
    case h_2 u hu => exact changes_of_unitChannels hu rfl rfl rfl

theorem setChannel_params (a : Agent) (s : State) (cmds : List Nat) : (setChannel a s cmds).params = s.params := by
  cases a with
  | enc | dec => rfl
  | srd j => unfold setChannel; dsimp only; split <;> rfl

theorem hostIssue_next {bits : Nat} {s t : State} (h : hostIssue bits s = .next t) :
    ∃ a, t = setChannel a s (channel a s ++ [bits]) := by
  revert h
  fun_cases hostIssue bits s <;> rintro ⟨⟩
  exact ⟨_, rfl⟩

theorem hostToken_next {j : Nat} {tok : Token} {s t : State} (h : hostToken j tok s = .next t) :
    ∃ u, s.srd[j]? = some u ∧ t = s.setSrd j { u with src := u.src ++ [tok] } := by
  revert h
  fun_cases hostToken j tok s <;> rintro ⟨⟩
  exact ⟨_, by assumption, rfl⟩

theorem changes_of_hostSink {a : Agent} {k : Sink} {s t : State} (h : hostSink a k s = .next t) : Changes s t := by
  revert h
  fun_cases hostSink a k s <;> rintro ⟨⟩
  case case1 => exact changes_of_encPort rfl rfl fun _ => List.prefix_rfl
  case case2 => exact changes_of_decPort rfl rfl
  case case4 hu => exact changes_of_unitChannels hu rfl rfl rfl

/-- The next state of a step: reset, a host write, or elementary changes. -/
theorem step_cases {s t : State} (h : step s = .next t) :
    (∃ rest, s.sched = .reset :: rest ∧ t = State.unitReset { s with sched := rest }) ∨
    (∃ addr b rest, s.sched = .write addr b :: rest ∧ hostWrite addr b { s with sched := rest } = .next t) ∨
    Changes s t := by
  obtain ⟨o, ho⟩ : ∃ o, Host.Outcome.next t = o := ⟨_, rfl⟩
  have houtcome := stepOutcome_step s
  rw [h, ho] at houtcome
  have hturn : ∀ a, Changes s (onTurn s a) := fun a => changes_of_schedule s _ a
  cases houtcome with
  | stays => cases ho; exact .inr (.inr (changes_of_schedule s _ _))
  | @moves a t' hstep =>
    cases ho
    refine .inr (.inr ((hturn a).trans ?_))
    cases a with
    | enc => exact .single (.encStep hstep)
    | dec => exact .single (.decStep hstep)
    | srd j =>
      obtain ⟨u, v, hu, huv, rfl⟩ := srdStep_moves j _ _ hstep
      exact .single (.unit hu (.fsmStep huv))
  | faults => cases ho
  | @record a i hfetch =>
    exact .inr (.inr ((hturn a).trans (changes_of_exec_record (isRecord_of_fetchRecord hfetch) ho.symm)))
  | @command a bits cmds i _ haccepts _ hdec =>
    obtain ⟨hwf, -, hcmd⟩ := commandDecodingIsExact _ _ _ hdec
    have hpop : Changes (onTurn s a) (setChannel a (onTurn s a) cmds) := by
      refine changes_of_setChannel a _ cmds ?_
      rintro rfl hfault
      have hidle : s.enc.st = .idle := eq_of_beq haccepts
      exact absurd (hidle.symm.trans hfault) nofun
    have hwf' : i.wellFormed (setChannel a (onTurn s a) cmds).params = true := by rwa [setChannel_params]
    exact .inr (.inr ((hturn a).trans (hpop.trans (changes_of_exec_command hcmd hwf' ho.symm))))
  | notACommand => cases ho
  | @host m rest hsched hhost =>
    have hrest : Changes s { s with sched := rest } := changes_of_schedule s rest s.turn
    cases m with
    | tick a => exact absurd rfl (hhost.1 a)
    | record a => exact absurd rfl (hhost.2 a)
    | issue bits =>
      obtain ⟨a, rfl⟩ := hostIssue_next ho.symm
      refine .inr (.inr (hrest.trans (changes_of_setChannel a _ _ ?_)))
      rintro rfl -
      exact List.prefix_append _ _
    | token j tok =>
      obtain ⟨u, hu, rfl⟩ := hostToken_next ho.symm
      exact .inr (.inr (hrest.trans (changes_of_unitChannels hu rfl rfl rfl)))
    | sink a k => exact .inr (.inr (hrest.trans (changes_of_hostSink ho.symm)))
    | write addr b => exact .inr (.inl ⟨addr, b, rest, hsched, ho.symm⟩)
    | reset =>
      cases ho
      exact .inl ⟨rest, hsched, rfl⟩

end Sys2Proof.Proofs
end

section
/-! What every step leaves in place, read from the elementary changes: parameters and memory (R8, R50), delivered items
and responses (R56), and a stuck ENC (R201). -/

namespace Sys2Proof.Proofs

open Sys2Proof Sys2Proof.Machine

/-! ### Parameters and memory -/

theorem change_frame {s t : State} (h : Change s t) : t.params = s.params ∧ t.mem = s.mem := by
  cases h with
  | encStep hstep => obtain ⟨e, p, -, rfl⟩ := encStepFrom_commits hstep; exact ⟨rfl, rfl⟩
  | decStep hstep => obtain ⟨e, p, -, rfl⟩ := decStepFrom_commits hstep; exact ⟨rfl, rfl⟩
  | unit | pack | misaligned | unpack | channels => exact ⟨rfl, rfl⟩

/-- A relation between states that each elementary change keeps, elementary changes in a row keep. -/
theorem changes_induction {s t : State} {P : State → Prop} (h : Changes s t) (hstart : P s)
    (hstep : ∀ u v, P u → Change u v → P v) : P t := by
  induction h with
  | refl => exact hstart
  | tail _ hlast ih => exact hstep _ _ ih hlast

theorem changes_frame {s t : State} (h : Changes s t) : t.params = s.params ∧ t.mem = s.mem :=
  changes_induction (P := fun u => u.params = s.params ∧ u.mem = s.mem) h ⟨rfl, rfl⟩ fun _ _ ⟨hparams, hmem⟩ huv =>
    ⟨(change_frame huv).1.trans hparams, (change_frame huv).2.trans hmem⟩

/-- Settles O19: no elementary change touches either, nor does reset. -/
theorem onlyHostWritesChangeMemory : Obligations.OnlyHostWritesChangeMemory := by
  unfold Obligations.OnlyHostWritesChangeMemory
  intro s t h
  rcases step_cases h with ⟨rest, -, rfl⟩ | ⟨addr, b, rest, hsched, hwrite⟩ | hchanges
  · exact ⟨rfl, fun _ => rfl⟩
  · obtain ⟨-, -, -, rfl⟩ := hostWrite_next addr b _ t hwrite
    exact ⟨rfl, fun hno => absurd hsched (hno addr b rest)⟩
  · exact ⟨(changes_frame hchanges).1, fun _ => (changes_frame hchanges).2⟩

/-! ### Delivered items and responses -/

/-- A port keeps what it has delivered: items and responses are only added at the end. -/
def PortExtends {α : Type} (p q : Port α) : Prop := p.out <+: q.out ∧ p.resp <+: q.resp

theorem portExtends_refl {α : Type} (p : Port α) : PortExtends p p := ⟨List.prefix_rfl, List.prefix_rfl⟩

theorem portExtends_of_eq {α : Type} {p q : Port α} (hout : q.out = p.out) (hresp : q.resp = p.resp) :
    PortExtends p q := by
  rw [PortExtends, hout, hresp]
  exact portExtends_refl p

theorem PortExtends.trans {α : Type} {p q r : Port α} (hpq : PortExtends p q) (hqr : PortExtends q r) :
    PortExtends p r := ⟨hpq.1.trans hqr.1, hpq.2.trans hqr.2⟩

theorem portExtends_of_commit {α : Type} {p q : Port α} {item : Option α} {resp : Option Response}
    (h : p.commit item resp = some q) : PortExtends p q := by
  obtain ⟨-, hout, hresp, -⟩ := Port.commit_eq_some p q item resp h
  rw [PortExtends, hout, hresp]
  exact ⟨List.prefix_append _ _, List.prefix_append _ _⟩

theorem portExtends_respond {α : Type} (p : Port α) (r : Response) : PortExtends p (p.respond r) :=
  ⟨List.prefix_rfl, List.prefix_append _ _⟩

theorem portExtends_read (u : SrdUnit) (k : Nat) : PortExtends u.port (u.read k).port := by
  unfold SrdUnit.read
  split
  · exact portExtends_respond _ _
  · split
    · exact portExtends_respond _ _
    · exact portExtends_refl _

theorem portExtends_of_unitChange {p : Params} {u v : SrdUnit} (h : UnitChange p u v) :
    PortExtends u.port v.port := by
  cases h with
  | fsmStep hstep =>
    obtain ⟨-, r, item, src, q, -, hcommit, rfl⟩ := srdUnitStep_some u v hstep
    exact portExtends_of_commit hcommit
  | init => exact portExtends_respond _ _
  | read => exact portExtends_read u _
  | channels _ hout hresp => exact portExtends_of_eq hout hresp

/-- Every port of the machine keeps what it has delivered. -/
structure DeliveredStay (s t : State) : Prop where
  enc : PortExtends s.encPort t.encPort
  dec : PortExtends s.decPort t.decPort
  srd : ∀ (j : Nat) (u : SrdUnit), s.srd[j]? = some u → ∃ v, t.srd[j]? = some v ∧ PortExtends u.port v.port

theorem srd_stay (s : State) (j : Nat) (u : SrdUnit) (hu : s.srd[j]? = some u) :
    ∃ v, s.srd[j]? = some v ∧ PortExtends u.port v.port := ⟨u, hu, portExtends_refl _⟩

theorem DeliveredStay.trans {s t u : State} (hst : DeliveredStay s t) (htu : DeliveredStay t u) :
    DeliveredStay s u where
  enc := hst.enc.trans htu.enc
  dec := hst.dec.trans htu.dec
  srd j v hv := by
    obtain ⟨w, hw, hvw⟩ := hst.srd j v hv
    obtain ⟨x, hx, hwx⟩ := htu.srd j w hw
    exact ⟨x, hx, hvw.trans hwx⟩

theorem deliveredStay_of_change {s t : State} (h : Change s t) : DeliveredStay s t := by
  cases h with
  | encStep hstep =>
    obtain ⟨e, p, hcommit, rfl⟩ := encStepFrom_commits hstep
    exact ⟨portExtends_of_commit hcommit, portExtends_refl _, srd_stay s⟩
  | decStep hstep =>
    obtain ⟨e, p, hcommit, rfl⟩ := decStepFrom_commits hstep
    exact ⟨portExtends_refl _, portExtends_of_commit hcommit, srd_stay s⟩
  | @unit j u v hu huv =>
    refine ⟨portExtends_refl _, portExtends_refl _, fun k w hw => ?_⟩
    obtain ⟨-, hsame, hother⟩ := setSrd_units hu v
    by_cases hk : k = j
    · subst hk
      cases hu.symm.trans hw
      exact ⟨v, hsame, portExtends_of_unitChange huv⟩
    · exact ⟨w, (hother k hk).trans hw, portExtends_refl _⟩
  | pack | misaligned | unpack => exact ⟨portExtends_refl _, portExtends_refl _, srd_stay s⟩
  | channels hout hresp _ hdout hdresp =>
    exact ⟨portExtends_of_eq hout hresp, portExtends_of_eq hdout hdresp, srd_stay s⟩

theorem deliveredStay_of_changes {s t : State} (h : Changes s t) : DeliveredStay s t :=
  changes_induction h ⟨portExtends_refl _, portExtends_refl _, srd_stay s⟩ fun _ _ hsu huv =>
    hsu.trans (deliveredStay_of_change huv)

theorem unitReset_unit {s : State} {j : Nat} {u : SrdUnit} (hu : s.srd[j]? = some u) :
    s.unitReset.srd[j]? = some { u with regs := Srd.reset, port := u.port.afterReset } := by
  simp [hu]

theorem deliveredStay_unitReset (s : State) : DeliveredStay s s.unitReset where
  enc := portExtends_of_eq rfl rfl
  dec := portExtends_of_eq rfl rfl
  srd _ _ hu := ⟨_, unitReset_unit hu, portExtends_of_eq rfl rfl⟩

/-- Settles O29: every elementary change keeps what the ports have delivered, and so do reset and host writes. -/
theorem deliveredItemsStay : Obligations.DeliveredItemsStay := by
  unfold Obligations.DeliveredItemsStay
  intro s t h
  have hstay : DeliveredStay s t := by
    rcases step_cases h with ⟨rest, -, rfl⟩ | ⟨addr, b, rest, -, hwrite⟩ | hchanges
    · exact (deliveredStay_of_changes (changes_of_schedule s rest s.turn)).trans (deliveredStay_unitReset _)
    · obtain ⟨-, -, -, rfl⟩ := hostWrite_next addr b _ t hwrite
      exact ⟨portExtends_refl _, portExtends_refl _, srd_stay s⟩
    · exact deliveredStay_of_changes hchanges
  exact ⟨hstay.enc.1, hstay.enc.2, hstay.dec.1, hstay.dec.2, hstay.srd⟩

/-! ### A stuck ENC -/

/-- ENC has not moved: registers, output and responses are the same, and commands are only added to its channel. -/
structure EncStuck (s t : State) : Prop where
  enc : t.enc = s.enc
  faultBuffer : t.faultBuffer = s.faultBuffer
  out : t.encPort.out = s.encPort.out
  resp : t.encPort.resp = s.encPort.resp
  cmds : s.encPort.cmds <+: t.encPort.cmds

theorem encStuck_refl (s : State) : EncStuck s s := ⟨rfl, rfl, rfl, rfl, List.prefix_rfl⟩

theorem EncStuck.trans {s t u : State} (hst : EncStuck s t) (htu : EncStuck t u) : EncStuck s u where
  enc := htu.enc.trans hst.enc
  faultBuffer := htu.faultBuffer.trans hst.faultBuffer
  out := htu.out.trans hst.out
  resp := htu.resp.trans hst.resp
  cmds := hst.cmds.trans htu.cmds

theorem encStepFrom_of_fault {s : State} (hst : s.enc.st = .fault) (supply : Nat → Option Word) :
    encStepFrom supply s = .waits := by
  simp only [encStepFrom, hst]

theorem encStuck_of_change {s t : State} (hfault : s.enc.st = .fault) (h : Change s t) : EncStuck s t := by
  have hbusy : s.enc.st ≠ .idle := by simp [hfault]
  cases h with
  | encStep hstep => exact absurd ((encStepFrom_of_fault hfault _).symm.trans hstep) nofun
  | decStep hstep =>
    obtain ⟨e, p, -, rfl⟩ := decStepFrom_commits hstep
    exact ⟨rfl, rfl, rfl, rfl, List.prefix_rfl⟩
  | pack _ hidle => exact absurd hidle hbusy
  | misaligned hidle => exact absurd hidle hbusy
  | unit | unpack => exact ⟨rfl, rfl, rfl, rfl, List.prefix_rfl⟩
  | channels hout hresp hcmds => exact ⟨rfl, rfl, hout, hresp, hcmds hfault⟩

theorem encStuck_of_changes {s t : State} (hfault : s.enc.st = .fault) (h : Changes s t) : EncStuck s t :=
  changes_induction h (encStuck_refl s) fun _ _ hsu huv =>
    hsu.trans (encStuck_of_change (by rw [hsu.enc]; exact hfault) huv)

/-- Settles O31: the acceptance is `execPack_of_misaligned`; no elementary change moves a stuck ENC. -/
theorem misalignedPackFaultsUntilReset : Obligations.MisalignedPackFaultsUntilReset := by
  unfold Obligations.MisalignedPackFaultsUntilReset
  refine ⟨fun s base len hidle hfit halign => ?raised, fun s t hfault hno h => ?stuck, fun s t hreset h => ?cleared⟩
  case raised =>
    exact ⟨execPack_of_misaligned hidle (fits_of_le hfit) halign, encStatus_fault _⟩
  case stuck =>
    have hstuck : EncStuck s t := by
      rcases step_cases h with ⟨rest, hsched, -⟩ | ⟨addr, b, rest, -, hwrite⟩ | hchanges
      · exact absurd hsched (hno rest)
      · obtain ⟨-, -, -, rfl⟩ := hostWrite_next addr b _ t hwrite
        exact ⟨rfl, rfl, rfl, rfl, List.prefix_rfl⟩
      · exact encStuck_of_changes hfault hchanges
    exact ⟨hstuck.enc, hstuck.faultBuffer, hstuck.out, hstuck.resp, hstuck.cmds⟩
  case cleared =>
    obtain ⟨rest, hsched⟩ := hreset
    cases (step_of_sched hsched).symm.trans h
    exact ⟨rfl, rfl, rfl⟩

end Sys2Proof.Proofs
end

section
/-! Every step keeps the invariant (R28, with the ranges of R21, R23, R25 and R29): each rule of ENC, DEC and SRD keeps
its block's invariant, and so every elementary change keeps the machine's. -/

namespace Sys2Proof.Proofs

open Sys2Proof Sys2Proof.Machine

/-! ### Byte lanes written (R133) -/

theorem getLsbD_byteMask (n : Nat) : (0xFF#64).getLsbD n = decide (n < 8) := by
  have hmask := Nat.testBit_two_pow_sub_one 8 n
  rw [BitVec.getLsbD_ofNat]
  simp at hmask ⊢
  simp [hmask]
  omega

theorem getLsbD_setLane (w : Word) (i : Nat) (b : Byte) {n : Nat} (hn : n < 64) :
    (setLane w i b).getLsbD n = if 8 * i ≤ n ∧ n < 8 * i + 8 then b.getLsbD (n - 8 * i) else w.getLsbD n := by
  simp only [setLane, BitVec.getLsbD_or, BitVec.getLsbD_and, BitVec.getLsbD_not, BitVec.getLsbD_shiftLeft,
    BitVec.getLsbD_setWidth, getLsbD_byteMask]
  by_cases hlow : n < 8 * i
  · have hout : ¬ (8 * i ≤ n ∧ n < 8 * i + 8) := by omega
    simp [hn, hlow, hout]
  · by_cases hhigh : n < 8 * i + 8
    · have hin : 8 * i ≤ n ∧ n < 8 * i + 8 := by omega
      have hbyte : n - 8 * i < 8 := by omega
      have hword : n - 8 * i < 64 := by omega
      simp [hn, hlow, hin, hbyte, hword]
    · have hout : ¬ (8 * i ≤ n ∧ n < 8 * i + 8) := by omega
      have hbyte : ¬ n - 8 * i < 8 := by omega
      have hzero : b.getLsbD (n - 8 * i) = false := BitVec.getLsbD_of_ge b _ (by omega)
      simp [hn, hlow, hout, hbyte, hzero]

/-- A lane reads as written, and the other lanes as before (R133). -/
theorem lane_setLane (w : Word) (b : Byte) {i j : Nat} (hj : j < 8) :
    lane (setLane w i b) j = if i = j then b else lane w j := by
  apply BitVec.eq_of_getLsbD_eq
  intro n hn
  rw [getLsbD_lane, getLsbD_setLane _ _ _ (by omega)]
  by_cases hij : i = j
  · have hin : 8 * i ≤ 8 * j + n ∧ 8 * j + n < 8 * i + 8 := by omega
    have hsub : 8 * j + n - 8 * i = n := by omega
    simp [hij, hn]
  · have hout : ¬ (8 * i ≤ 8 * j + n ∧ 8 * j + n < 8 * i + 8) := by omega
    simp only [hij, hout, if_false, getLsbD_lane, hn, decide_true, Bool.true_and]

theorem lane_setLane_other (w : Word) (b : Byte) {i j : Nat} (hj : j < 8) (hij : i ≠ j) :
    lane (setLane w i b) j = lane w j := by
  rw [lane_setLane w b hj, if_neg hij]

@[simp] theorem lane_zero (i : Nat) : lane 0 i = 0 := by simp [lane]

/-! ### Counters that do not wrap -/

theorem toNat_succ_of_lt {n : Nat} {k : BitVec n} (h : k.toNat + 1 < 2 ^ n) : (k + 1).toNat = k.toNat + 1 := by
  have hone : (1#n).toNat = 1 := by
    rw [BitVec.toNat_ofNat]
    exact Nat.mod_eq_of_lt (by omega)
  show (k + 1#n).toNat = _
  rw [BitVec.toNat_add, hone, Nat.mod_eq_of_lt h]

theorem toNat_pred_of_pos {n : Nat} {k : BitVec n} (h : 1 ≤ k.toNat) : (k - 1).toNat = k.toNat - 1 := by
  have hk := k.isLt
  have hone : (1#n).toNat = 1 := by
    rw [BitVec.toNat_ofNat]
    exact Nat.mod_eq_of_lt (by omega)
  show (k - 1#n).toNat = _
  rw [BitVec.toNat_sub_of_le (by rw [BitVec.le_def, hone]; exact h), hone]

theorem eq_one_iff_toNat {n : Nat} {k : BitVec n} (hn : 1 < 2 ^ n) : k = 1 ↔ k.toNat = 1 := by
  have hone : (1#n).toNat = 1 := by
    rw [BitVec.toNat_ofNat]
    exact Nat.mod_eq_of_lt hn
  rw [← BitVec.toNat_inj]
  show k.toNat = (1#n).toNat ↔ _
  rw [hone]

/-! ### ENC -/

section Enc

variable {p : Params} {e : Enc}

theorem fault_iff_of_running (h : EncInv p e) {st : EncSt} (hst : e.st ≠ .fault) (hst' : st ≠ .fault) :
    e.fault = true ↔ st = .fault :=
  iff_of_false (fun hfault => hst (h.fault.mp hfault)) hst'

theorem encInv_complete (h : EncInv p e) (hst : e.st = .fetch) : EncInv p (encComplete e).regs :=
  { h with
    fault := fault_iff_of_running h (by simp [hst]) nofun
    tagOut := nofun, sparse := nofun, lscan := nofun, lcopy := nofun }

theorem encInv_fetch (h : EncInv p e) (hst : e.st = .fetch) (hcur : e.cur ≠ e.nw) (v : Word) :
    EncInv p (encFetch e v).regs :=
  { h with
    cur := Nat.lt_of_le_of_ne h.cur hcur
    fault := fault_iff_of_running h (by simp [hst]) nofun
    tagOut := fun _ => rfl
    sparse := nofun, lscan := nofun, lcopy := nofun }

theorem encInv_tagOut (h : EncInv p e) (hst : e.st = .tagOut) : EncInv p (encTagOut e).regs := by
  have hfault : ∀ {st : EncSt}, st ≠ .fault → (e.fault = true ↔ st = .fault) :=
    fun hst' => fault_iff_of_running h (by simp [hst]) hst'
  simp only [encTagOut]
  split
  · exact { h with fault := hfault nofun, tagOut := nofun, sparse := nofun, lscan := nofun, lcopy := nofun }
  · split
    · exact { h with fault := hfault nofun, tagOut := nofun, sparse := nofun, lscan := nofun, lcopy := nofun }
    · next h0 hF =>
      exact { h with
        fault := hfault nofun
        sparse := fun _ => ⟨h.tagOut hst, h0, hF, popCount_pos h0⟩
        tagOut := nofun, lscan := nofun, lcopy := nofun }

theorem encInv_sparse (h : EncInv p e) (hst : e.st = .sparse) : EncInv p (encSparse e).regs := by
  obtain ⟨htag, h0, hF, hk⟩ := h.sparse hst
  simp only [encSparse]
  split
  · exact { h with
      fault := fault_iff_of_running h (by simp [hst]) nofun
      tagOut := nofun, sparse := nofun, lscan := nofun, lcopy := nofun }
  · next hlast =>
    have hcount := popCount_lt_eight hF
    have hnext : (e.k + 1).toNat = e.k.toNat + 1 := toNat_succ_of_lt (by omega)
    have hk' : (e.k + 1).toNat < popCount e.T := by omega
    exact { h with sparse := fun _ => ⟨htag, h0, hF, hk'⟩ }

theorem encInv_zscan_close (h : EncInv p e) (hst : e.st = .zscan) : EncInv p (encZscan e none).regs :=
  { h with
    fault := fault_iff_of_running h (by simp [hst]) nofun
    tagOut := nofun, sparse := nofun, lscan := nofun, lcopy := nofun }

theorem encInv_zscan_word (h : EncInv p e) (hst : e.st = .zscan) (hscan : e.mayScan e.cur = true) (v : Word) :
    EncInv p (encZscan e (some v)).regs := by
  have hcur := ((mayScan_iff e e.cur).mp hscan).1
  unfold encZscan
  split
  · exact { h with
      cur := hcur
      lscan := fun hst' => absurd (hst.symm.trans hst') nofun
      lcopy := fun hst' => absurd (hst.symm.trans hst') nofun }
  · exact encInv_zscan_close h hst

theorem encInv_seed (h : EncInv p e) (hst : e.st = .seed) : EncInv p (encSeed e).regs := by
  simp only [encSeed]
  split
  · exact { h with
      scan := h.cur.trans_lt h.nw
      fault := fault_iff_of_running h (by simp [hst]) nofun
      lscan := fun _ => ⟨rfl, h.cur⟩
      tagOut := nofun, sparse := nofun, lcopy := nofun }
  · exact { h with sparse := fun hst' => absurd (hst.symm.trans hst') nofun }

theorem encInv_lscan_close (h : EncInv p e) (hst : e.st = .lscan) : EncInv p (encLscan e none).regs := by
  have hscan := h.lscan hst
  simp only [encLscan, Option.any_none, Bool.false_eq_true, if_false]
  split
  · exact { h with
      fault := fault_iff_of_running h (by simp [hst]) nofun
      tagOut := nofun, sparse := nofun, lscan := nofun, lcopy := nofun }
  · next hcnt =>
    have hpos : e.cnt.toNat ≠ 0 := fun hzero => hcnt (BitVec.eq_of_toNat_eq hzero)
    exact { h with
      fault := fault_iff_of_running h (by simp [hst]) nofun
      lcopy := fun _ => ⟨Nat.pos_of_ne_zero hpos, hscan⟩
      tagOut := nofun, sparse := nofun, lscan := nofun }

theorem encInv_lscan_word (h : EncInv p e) (hst : e.st = .lscan) (hmay : e.mayScan e.scan = true) (v : Word) :
    EncInv p (encLscan e (some v)).regs := by
  obtain ⟨hleft, hcnt⟩ := (mayScan_iff e e.scan).mp hmay
  obtain ⟨hscan, -⟩ := h.lscan hst
  unfold encLscan
  split
  · have hlt := e.cnt.isLt
    have hne : e.cnt.toNat ≠ 255 := fun heq => hcnt (BitVec.eq_of_toNat_eq heq)
    have hnext : (e.cnt + 1).toNat = e.cnt.toNat + 1 := toNat_succ_of_lt (by omega)
    have hrun : e.scan + 1 = e.cur + (e.cnt + 1).toNat := by omega
    exact { h with
      scan := lt_of_le_of_lt hleft h.nw
      lscan := fun _ => ⟨hrun, hleft⟩
      lcopy := fun hst' => absurd (hst.symm.trans hst') nofun }
  · exact encInv_lscan_close h hst

theorem encInv_lcopy (h : EncInv p e) (hst : e.st = .lcopy) (b : Byte) : EncInv p (encLcopy e b).regs := by
  obtain ⟨hcnt, hscan, hend⟩ := h.lcopy hst
  have hpred : (e.cnt - 1).toNat = e.cnt.toNat - 1 := toNat_pred_of_pos hcnt
  have hcur : e.cur + 1 ≤ e.nw := by omega
  simp only [encLcopy]
  split
  · split
    · exact { h with
        cur := hcur
        fault := fault_iff_of_running h (by simp [hst]) nofun
        tagOut := nofun, sparse := nofun, lscan := nofun, lcopy := nofun }
    · next hlast =>
      have hne : e.cnt.toNat ≠ 1 := mt (eq_one_iff_toNat (by decide)).mpr hlast
      have hrun : e.scan = e.cur + 1 + (e.cnt - 1).toNat := by omega
      have hleft : 1 ≤ (e.cnt - 1).toNat := by omega
      exact { h with
        cur := hcur
        fault := fault_iff_of_running h (by simp [hst]) nofun
        lcopy := fun _ => ⟨hleft, hrun, hend⟩
        tagOut := nofun, sparse := nofun, lscan := nofun }
  · exact { h with sparse := fun hst' => absurd (hst.symm.trans hst') nofun }

end Enc

/-- Every step of ENC keeps its invariant, whatever words it reads. -/
theorem encInv_step {supply : Nat → Option Word} {s t : State} (h : EncInv s.params s.enc)
    (hstep : encStepFrom supply s = .moves t) : EncInv s.params t.enc := by
  obtain ⟨e, hcommit, hrule⟩ := encStepFrom_moves supply s t hstep
  obtain ⟨q, -, rfl⟩ := State.commitEnc_moves s t e hcommit
  rcases hrule with ⟨hst, -, rfl⟩ | ⟨hst, hcur, v, -, rfl⟩ | ⟨hst, rfl⟩ | ⟨hst, rfl⟩ | ⟨hst, hmay, v, -, rfl⟩ |
    ⟨hst, -, rfl⟩ | ⟨hst, rfl⟩ | ⟨hst, hmay, v, -, rfl⟩ | ⟨hst, -, rfl⟩ | ⟨hst, b, -, rfl⟩
  · exact encInv_complete h hst
  · exact encInv_fetch h hst hcur v
  · exact encInv_tagOut h hst
  · exact encInv_sparse h hst
  · exact encInv_zscan_word h hst hmay v
  · exact encInv_zscan_close h hst
  · exact encInv_seed h hst
  · exact encInv_lscan_word h hst hmay v
  · exact encInv_lscan_close h hst
  · exact encInv_lcopy h hst b

/-- ENC's steps leave its buffer, its fault flag, the parameters and the memory as they are. -/
structure EncFrame (s t : State) : Prop where
  base : t.enc.base = s.enc.base
  nw : t.enc.nw = s.enc.nw
  fault : t.enc.fault = s.enc.fault
  params : t.params = s.params
  mem : t.mem = s.mem

theorem encStep_frame {supply : Nat → Option Word} {s t : State} (hstep : encStepFrom supply s = .moves t) :
    EncFrame s t := by
  obtain ⟨e, hcommit, hrule⟩ := encStepFrom_moves supply s t hstep
  obtain ⟨q, -, rfl⟩ := State.commitEnc_moves s t e hcommit
  rcases hrule with ⟨-, -, rfl⟩ | ⟨-, -, v, -, rfl⟩ | ⟨-, rfl⟩ | ⟨-, rfl⟩ | ⟨-, -, v, -, rfl⟩ |
    ⟨-, -, rfl⟩ | ⟨-, rfl⟩ | ⟨-, -, v, -, rfl⟩ | ⟨-, -, rfl⟩ | ⟨-, b, -, rfl⟩
  · exact ⟨rfl, rfl, rfl, rfl, rfl⟩
  · exact ⟨rfl, rfl, rfl, rfl, rfl⟩
  · unfold encTagOut; split_ifs <;> exact ⟨rfl, rfl, rfl, rfl, rfl⟩
  · unfold encSparse; split_ifs <;> exact ⟨rfl, rfl, rfl, rfl, rfl⟩
  · unfold encZscan; split_ifs <;> exact ⟨rfl, rfl, rfl, rfl, rfl⟩
  · unfold encZscan; split_ifs <;> exact ⟨rfl, rfl, rfl, rfl, rfl⟩
  · unfold encSeed; split_ifs <;> exact ⟨rfl, rfl, rfl, rfl, rfl⟩
  · unfold encLscan; split_ifs <;> exact ⟨rfl, rfl, rfl, rfl, rfl⟩
  · unfold encLscan; split_ifs <;> exact ⟨rfl, rfl, rfl, rfl, rfl⟩
  · unfold encLcopy; split_ifs <;> exact ⟨rfl, rfl, rfl, rfl, rfl⟩

/-- A running ENC does not get stuck by a step. -/
theorem encStep_st_ne_fault {supply : Nat → Option Word} {s t : State} (h : EncInv s.params s.enc)
    (hstep : encStepFrom supply s = .moves t) : s.enc.st ≠ .fault ∧ t.enc.st ≠ .fault := by
  have hst : s.enc.st ≠ .fault := fun hfault =>
    absurd ((encStepFrom_of_fault hfault supply).symm.trans hstep) nofun
  refine ⟨hst, fun hfault => hst (h.fault.mp ?_)⟩
  rw [← (encStep_frame hstep).fault]
  exact (encInv_step h hstep).fault.mpr hfault

/-! ### DEC -/

section Dec

variable {p : Params} {d : Dec}

/-- The invariant does not speak of the state reached when the input is exhausted, which is `D_IDLE`. -/
theorem decInv_atEnd (h : DecInv p d) {st : Status} (hst : st = .ok ∨ st = .trunc) :
    DecInv p { d with last := st, st := .idle } :=
  { h with last := hst, sparse := nofun, zemit := nofun, lraw := nofun }

theorem decInv_advance (h : DecInv p d) (hpos : d.pos ≠ d.len) : DecInv p d.advance :=
  { h with pos := Nat.lt_of_le_of_ne h.pos hpos }

theorem decInv_tag (h : DecInv p d) (b : Byte) : DecInv p (decTag d b).regs := by
  simp only [decTag]
  split
  · exact { h with sparse := nofun, zemit := nofun, lraw := nofun }
  · split
    · exact { h with sparse := nofun, zemit := nofun, lraw := nofun }
    · next h0 hF => exact { h with sparse := fun _ => ⟨h0, hF, popCount_pos h0⟩, zemit := nofun, lraw := nofun }

theorem decInv_sparse (h : DecInv p d) (hst : d.st = .sparse) (b : Byte) : DecInv p (decSparse d b).regs := by
  obtain ⟨h0, hF, hk⟩ := h.sparse hst
  simp only [decSparse]
  split
  · exact { h with sparse := nofun, zemit := nofun, lraw := nofun }
  · next hlast =>
    have hcount := popCount_lt_eight hF
    have hnext : (d.k + 1).toNat = d.k.toNat + 1 := toNat_succ_of_lt (by omega)
    have hk' : (d.k + 1).toNat < popCount d.T := by omega
    exact { h with sparse := fun _ => ⟨h0, hF, hk'⟩ }

/-- The run-length expander is loaded with `N + 1` (R134). -/
theorem toNat_setWidth_succ (n : Byte) : (n.setWidth 9 + 1).toNat = n.toNat + 1 := by
  have hn := n.isLt
  have hwidth : (n.setWidth 9).toNat = n.toNat := by
    rw [BitVec.toNat_setWidth]
    exact Nat.mod_eq_of_lt (by omega)
  rw [toNat_succ_of_lt (by omega), hwidth]

theorem decInv_zcount (h : DecInv p d) (n : Byte) : DecInv p (decZcount d n).regs := by
  have hn := n.isLt
  have hload := toNat_setWidth_succ n
  have hrange : 1 ≤ (n.setWidth 9 + 1).toNat ∧ (n.setWidth 9 + 1).toNat ≤ 256 := by omega
  exact { h with zemit := fun _ => hrange, sparse := nofun, lraw := nofun }

theorem decInv_zemit (h : DecInv p d) (hst : d.st = .zemit) : DecInv p (decZemit d).regs := by
  obtain ⟨hlow, hhigh⟩ := h.zemit hst
  have hpred : (d.rem - 1).toNat = d.rem.toNat - 1 := toNat_pred_of_pos hlow
  simp only [decZemit]
  split
  · exact { h with sparse := nofun, zemit := nofun, lraw := nofun }
  · next hlast =>
    have hne : d.rem.toNat ≠ 1 := mt (eq_one_iff_toNat (by decide)).mpr hlast
    have hrange : 1 ≤ (d.rem - 1).toNat ∧ (d.rem - 1).toNat ≤ 256 := by omega
    exact { h with zemit := fun _ => hrange, sparse := nofun, lraw := nofun }

theorem decInv_seed (h : DecInv p d) (hst : d.st = .seed) (b : Byte) : DecInv p (decSeed d b).regs := by
  simp only [decSeed]
  split
  · exact { h with sparse := nofun, zemit := nofun, lraw := nofun }
  · exact { h with sparse := fun hst' => absurd (hst.symm.trans hst') nofun }

theorem decInv_lcount (h : DecInv p d) (n : Byte) : DecInv p (decLcount d n).regs := by
  have hn := n.isLt
  simp only [decLcount]
  split
  · exact { h with sparse := nofun, zemit := nofun, lraw := nofun }
  · next hzero =>
    have hpos : n.toNat ≠ 0 := fun hn0 => hzero (BitVec.eq_of_toNat_eq hn0)
    have hwidth : (n.setWidth 9).toNat = n.toNat := by
      rw [BitVec.toNat_setWidth]
      exact Nat.mod_eq_of_lt (by omega)
    have hrange : 1 ≤ (n.setWidth 9).toNat ∧ (n.setWidth 9).toNat ≤ 255 := by omega
    exact { h with lraw := fun _ => hrange, sparse := nofun, zemit := nofun }

theorem decInv_lraw (h : DecInv p d) (hst : d.st = .lraw) (b : Byte) : DecInv p (decLraw d b).regs := by
  obtain ⟨hlow, hhigh⟩ := h.lraw hst
  have hpred : (d.rem - 1).toNat = d.rem.toNat - 1 := toNat_pred_of_pos hlow
  simp only [decLraw]
  split
  · dsimp only
    split
    · exact { h with sparse := nofun, zemit := nofun, lraw := nofun }
    · next hlast =>
      have hne : d.rem.toNat ≠ 1 := mt (eq_one_iff_toNat (by decide)).mpr hlast
      have hrange : 1 ≤ (d.rem - 1).toNat ∧ (d.rem - 1).toNat ≤ 255 := by omega
      exact { h with lraw := fun _ => hrange, sparse := nofun, zemit := nofun }
  · exact { h with sparse := fun hst' => absurd (hst.symm.trans hst') nofun }

end Dec

/-- Every step of DEC keeps its invariant, whatever bytes it reads. -/
theorem decInv_step {supply : Nat → Option Byte} {s t : State} (h : DecInv s.params s.dec)
    (hstep : decStepFrom supply s = .moves t) : DecInv s.params t.dec := by
  rcases decStepFrom_moves supply s t hstep with ⟨hst, hcommit⟩ | ⟨atEnd, rule, hconsume, hrule⟩
  · obtain ⟨q, -, rfl⟩ := State.commitDec_moves s t _ hcommit
    exact decInv_zemit h hst
  · rcases decConsume_moves supply s t atEnd rule hconsume with ⟨-, hcommit⟩ | ⟨hpos, b, -, hcommit⟩
    · obtain ⟨q, -, rfl⟩ := State.commitDec_moves s t _ hcommit
      rcases hrule with ⟨-, rfl, -⟩ | ⟨rfl, -⟩
      · exact decInv_atEnd h (.inl rfl)
      · exact decInv_atEnd h (.inr rfl)
    · obtain ⟨q, -, rfl⟩ := State.commitDec_moves s t _ hcommit
      have hadv := decInv_advance h hpos
      rcases hrule with ⟨-, -, rfl⟩ | ⟨-, ⟨hst, rfl⟩ | ⟨-, rfl⟩ | ⟨hst, rfl⟩ | ⟨-, rfl⟩ | ⟨hst, rfl⟩⟩
      · exact decInv_tag hadv b
      · exact decInv_sparse hadv hst b
      · exact decInv_zcount hadv b
      · exact decInv_seed hadv hst b
      · exact decInv_lcount hadv b
      · exact decInv_lraw hadv hst b

/-! ### SRD -/

/-- The states that pull a token (R26). -/
def Consuming (st : SrdSt) : Prop :=
  st = .tag ∨ st = .bytes ∨ st = .zeroCount ∨ st = .litWord ∨ st = .litCount ∨ st = .emitLiterals

/-- What a step rule of SRD can be, one case a rule of R165-R173: the registers, the source before, the registers
after, the byte emitted, the source after. -/
inductive SrdRuleCase (r : Srd) : List Token → Srd → Option Byte → List Token → Prop
  | emitZeros {src : List Token} (hst : r.st = .emitZeros) : SrdRuleCase r src (srdEmitZeros r).1 (some 0) src
  | emitWord {src : List Token} (hst : r.st = .emitWord) :
      SrdRuleCase r src (srdEmitWord r).1 (some (lane r.SCR r.idx.toNat)) src
  | eof {rest : List Token} (hst : Consuming r.st) : SrdRuleCase r (.eof :: rest) (srdOnEnd r) none rest
  | err {e : Config.ErrT} {rest : List Token} (hst : Consuming r.st) :
      SrdRuleCase r (.err e :: rest) (srdIoError r e) none rest
  | tag {b : Byte} {rest : List Token} (hst : r.st = .tag) :
      SrdRuleCase r (.byte b :: rest) (srdTag r b).1 none rest
  | bytes {b : Byte} {rest : List Token} (hst : r.st = .bytes) :
      SrdRuleCase r (.byte b :: rest) (srdBytes r b).1 none rest
  | zeroCount {b : Byte} {rest : List Token} (hst : r.st = .zeroCount) :
      SrdRuleCase r (.byte b :: rest) (srdZeroCount r b).1 none rest
  | litWord {b : Byte} {rest : List Token} (hst : r.st = .litWord) :
      SrdRuleCase r (.byte b :: rest) (srdLitWord r b).1 none rest
  | litCount {b : Byte} {rest : List Token} (hst : r.st = .litCount) :
      SrdRuleCase r (.byte b :: rest) (srdLitCount r b).1 none rest
  | emitLiterals {b : Byte} {rest : List Token} (hst : r.st = .emitLiterals) :
      SrdRuleCase r (.byte b :: rest) (srdEmitLiterals r b).1 (some b) rest

theorem srdTag_emits_none (r : Srd) (b : Byte) : (srdTag r b).2 = none := by
  unfold srdTag
  split_ifs <;> rfl

theorem srdBytes_emits_none (r : Srd) (b : Byte) : (srdBytes r b).2 = none := by
  simp only [srdBytes]
  split_ifs <;> rfl

theorem srdLitWord_emits_none (r : Srd) (b : Byte) : (srdLitWord r b).2 = none := by
  simp only [srdLitWord]
  split_ifs <;> rfl

/-- The rule of a consuming state on a byte. -/
theorem srdRuleCase_of_onByte {r : Srd} {b : Byte} {x : Srd × Option Byte} (rest : List Token)
    (h : srdOnByte r b = some x) : SrdRuleCase r (.byte b :: rest) x.1 x.2 rest := by
  unfold srdOnByte at h
  split at h <;> cases h
  case h_1 hst => rw [srdTag_emits_none]; exact .tag hst
  case h_2 hst => rw [srdBytes_emits_none]; exact .bytes hst
  case h_3 hst => exact .zeroCount hst
  case h_5 hst => rw [srdLitWord_emits_none]; exact .litWord hst
  case h_6 hst => exact .litCount hst
  case h_8 hst => exact .emitLiterals hst

theorem srdRuleCase_of_rule {r r' : Srd} {src rest : List Token} {item : Option Byte}
    (h : srdRule r src = some (r', item, rest)) : SrdRuleCase r src r' item rest := by
  unfold srdRule at h
  split at h
  case h_1 hst => cases h; exact .emitZeros hst
  case h_2 hst => cases h; exact .emitWord hst
  case h_3 => cases h
  case h_4 => cases h
  case h_5 hzeros hword hdone herror =>
    have hst : Consuming r.st := by
      unfold Consuming
      cases hcase : r.st <;> simp_all
    split at h
    case h_1 => cases h
    case h_2 => cases h; exact .eof hst
    case h_3 => cases h; exact .err hst
    case h_4 b src =>
      rw [Option.map_eq_some_iff] at h
      obtain ⟨x, hx, heq⟩ := h
      cases heq
      exact srdRuleCase_of_onByte _ hx

/-- A rule leaves the transaction registers alone. -/
theorem srdRule_frame {r r' : Srd} {src rest : List Token} {item : Option Byte}
    (h : SrdRuleCase r src r' item rest) : r'.K = r.K ∧ r'.n = r.n ∧ r'.busy = r.busy := by
  cases h with
  | emitZeros | zeroCount | litCount | emitLiterals | err => exact ⟨rfl, rfl, rfl⟩
  | emitWord => simp only [srdEmitWord]; split_ifs <;> exact ⟨rfl, rfl, rfl⟩
  | eof => simp only [srdOnEnd]; split_ifs <;> exact ⟨rfl, rfl, rfl⟩
  | tag => simp only [srdTag]; split_ifs <;> exact ⟨rfl, rfl, rfl⟩
  | bytes => simp only [srdBytes]; split_ifs <;> exact ⟨rfl, rfl, rfl⟩
  | litWord => simp only [srdLitWord]; split_ifs <;> exact ⟨rfl, rfl, rfl⟩

/-- The part of SRD's invariant that speaks of its FSM registers, and not of the open transaction (R28). -/
structure SrdFsmInv (r : Srd) : Prop where
  bytes : r.st = .bytes → 1 ≤ popCount r.T ∧ popCount r.T ≤ 7 ∧ r.idx.toNat < popCount r.T ∧
    ∀ j < 8, (∀ m < r.idx.toNat, pos r.T m ≠ j) → lane r.SCR j = 0
  emitZeros : r.st = .emitZeros → 1 ≤ r.rem.toNat ∧ r.rem.toNat ≤ 2048
  emitWord : r.st = .emitWord → r.rem.toNat % 8 = 0 ∧ r.rem.toNat ≤ 2040
  emitLiterals : r.st = .emitLiterals → 1 ≤ r.rem.toNat ∧ r.rem.toNat ≤ 2040
  done : r.st = .done → r.term = .eof
  error : r.st = .error → r.term = .trunc ∨ r.term = .io
  running : r.isTerminal = false → r.term = .unset
  errv : r.errv.isSome = true ↔ r.term = .io

theorem SrdFsmInv.of_srdInv {p : Params} {r : Srd} (h : SrdInv p r) : SrdFsmInv r := { h with }

section Srd

variable {r : Srd}

theorem not_terminal_of_consuming (hst : Consuming r.st) : r.isTerminal = false := by
  rw [isTerminal_eq_false_iff]
  rcases hst with h | h | h | h | h | h <;> simp [h]

theorem srdFsmInv_emitZeros (h : SrdFsmInv r) (hst : r.st = .emitZeros) : SrdFsmInv (srdEmitZeros r).1 := by
  obtain ⟨hlow, hhigh⟩ := h.emitZeros hst
  have hunset := h.running (by simp [Srd.isTerminal, hst])
  have hpred : (r.rem - 1).toNat = r.rem.toNat - 1 := toNat_pred_of_pos hlow
  simp only [srdEmitZeros]
  split
  · exact { h with
      running := fun _ => hunset
      bytes := nofun, emitZeros := nofun, emitWord := nofun, emitLiterals := nofun, done := nofun, error := nofun }
  · next hlast =>
    have hne : r.rem.toNat ≠ 1 := mt (eq_one_iff_toNat (by decide)).mpr hlast
    have hrange : 1 ≤ (r.rem - 1).toNat ∧ (r.rem - 1).toNat ≤ 2048 := by omega
    exact { h with
      emitZeros := fun _ => hrange
      running := fun _ => hunset
      bytes := nofun, emitWord := nofun, emitLiterals := nofun, done := nofun, error := nofun }

theorem srdFsmInv_emitLiterals (h : SrdFsmInv r) (hst : r.st = .emitLiterals) (b : Byte) :
    SrdFsmInv (srdEmitLiterals r b).1 := by
  obtain ⟨hlow, hhigh⟩ := h.emitLiterals hst
  have hunset := h.running (by simp [Srd.isTerminal, hst])
  have hpred : (r.rem - 1).toNat = r.rem.toNat - 1 := toNat_pred_of_pos hlow
  simp only [srdEmitLiterals]
  split
  · exact { h with
      running := fun _ => hunset
      bytes := nofun, emitZeros := nofun, emitWord := nofun, emitLiterals := nofun, done := nofun, error := nofun }
  · next hlast =>
    have hne : r.rem.toNat ≠ 1 := mt (eq_one_iff_toNat (by decide)).mpr hlast
    have hrange : 1 ≤ (r.rem - 1).toNat ∧ (r.rem - 1).toNat ≤ 2040 := by omega
    exact { h with
      emitLiterals := fun _ => hrange
      running := fun _ => hunset
      bytes := nofun, emitWord := nofun, emitZeros := nofun, done := nofun, error := nofun }

theorem srdFsmInv_emitWord (h : SrdFsmInv r) (hst : r.st = .emitWord) : SrdFsmInv (srdEmitWord r).1 := by
  obtain ⟨hmod, hhigh⟩ := h.emitWord hst
  have hunset := h.running (by simp [Srd.isTerminal, hst])
  simp only [srdEmitWord]
  split
  · split
    · exact { h with
        running := fun _ => hunset
        bytes := nofun, emitZeros := nofun, emitWord := nofun, emitLiterals := nofun, done := nofun, error := nofun }
    · next hrem =>
      have hne : r.rem.toNat ≠ 0 := fun hzero => hrem (BitVec.eq_of_toNat_eq hzero)
      exact { h with
        emitLiterals := fun _ => ⟨Nat.pos_of_ne_zero hne, hhigh⟩
        running := fun _ => hunset
        bytes := nofun, emitZeros := nofun, emitWord := nofun, done := nofun, error := nofun }
  · exact { h with bytes := fun hst' => absurd (hst.symm.trans hst') nofun }

theorem srdFsmInv_tag (h : SrdFsmInv r) (hst : r.st = .tag) (b : Byte) : SrdFsmInv (srdTag r b).1 := by
  have hunset := h.running (by simp [Srd.isTerminal, hst])
  simp only [srdTag]
  split
  · exact { h with
      running := fun _ => hunset
      bytes := nofun, emitZeros := nofun, emitWord := nofun, emitLiterals := nofun, done := nofun, error := nofun }
  · split
    · exact { h with
        running := fun _ => hunset
        bytes := nofun, emitZeros := nofun, emitWord := nofun, emitLiterals := nofun, done := nofun, error := nofun }
    · next h0 hF =>
      have hcount : popCount b ≤ 7 := Nat.le_of_lt_succ (popCount_lt_eight hF)
      exact { h with
        bytes := fun _ => ⟨popCount_pos h0, hcount, popCount_pos h0, fun j _ _ => lane_zero j⟩
        running := fun _ => hunset
        emitZeros := nofun, emitWord := nofun, emitLiterals := nofun, done := nofun, error := nofun }

theorem srdFsmInv_bytes (h : SrdFsmInv r) (hst : r.st = .bytes) (b : Byte) : SrdFsmInv (srdBytes r b).1 := by
  obtain ⟨hlow, hhigh, hidx, hclear⟩ := h.bytes hst
  have hunset := h.running (by simp [Srd.isTerminal, hst])
  simp only [srdBytes]
  split
  · exact { h with
      emitWord := fun _ => ⟨rfl, Nat.zero_le _⟩
      running := fun _ => hunset
      bytes := nofun, emitZeros := nofun, emitLiterals := nofun, done := nofun, error := nofun }
  · next hlast =>
    have hnext : (r.idx + 1).toNat = r.idx.toNat + 1 := toNat_succ_of_lt (by omega)
    have hidx' : (r.idx + 1).toNat < popCount r.T := by omega
    have hclear' : ∀ j < 8, (∀ m < (r.idx + 1).toNat, pos r.T m ≠ j) →
        lane (setLane r.SCR (pos r.T r.idx.toNat) b) j = 0 := by
      intro j hj hnot
      rw [lane_setLane_other _ _ hj (hnot _ (by omega))]
      exact hclear j hj fun m hm => hnot m (by omega)
    exact { h with
      bytes := fun _ => ⟨hlow, hhigh, hidx', hclear'⟩
      emitWord := fun hst' => absurd (hst.symm.trans hst') nofun
      emitZeros := fun hst' => absurd (hst.symm.trans hst') nofun }

/-- The zero bytes of a ZRUN, `8·(N + 1)` (R168). -/
theorem toNat_zeroCount (b : Byte) : (8 * (b.setWidth 12 + 1)).toNat = 8 * (b.toNat + 1) := by
  have hb := b.isLt
  have hwidth : (b.setWidth 12).toNat = b.toNat := by
    rw [BitVec.toNat_setWidth]
    exact Nat.mod_eq_of_lt (by omega)
  have hsucc : (b.setWidth 12 + 1).toNat = b.toNat + 1 := by rw [toNat_succ_of_lt (by omega), hwidth]
  have height : (8 : BitVec 12).toNat = 8 := rfl
  rw [BitVec.toNat_mul, hsucc, height]
  exact Nat.mod_eq_of_lt (by omega)

/-- The raw bytes of an LRUN, `8·N` (R171). -/
theorem toNat_litCount (b : Byte) : (8 * b.setWidth 12).toNat = 8 * b.toNat := by
  have hb := b.isLt
  have hwidth : (b.setWidth 12).toNat = b.toNat := by
    rw [BitVec.toNat_setWidth]
    exact Nat.mod_eq_of_lt (by omega)
  have height : (8 : BitVec 12).toNat = 8 := rfl
  rw [BitVec.toNat_mul, hwidth, height]
  exact Nat.mod_eq_of_lt (by omega)

theorem srdFsmInv_zeroCount (h : SrdFsmInv r) (hst : r.st = .zeroCount) (b : Byte) :
    SrdFsmInv (srdZeroCount r b).1 := by
  have hb := b.isLt
  have hunset := h.running (by simp [Srd.isTerminal, hst])
  have hload := toNat_zeroCount b
  have hrange : 1 ≤ (8 * (b.setWidth 12 + 1)).toNat ∧ (8 * (b.setWidth 12 + 1)).toNat ≤ 2048 := by omega
  exact { h with
    emitZeros := fun _ => hrange
    running := fun _ => hunset
    bytes := nofun, emitWord := nofun, emitLiterals := nofun, done := nofun, error := nofun }

theorem srdFsmInv_litWord (h : SrdFsmInv r) (hst : r.st = .litWord) (b : Byte) : SrdFsmInv (srdLitWord r b).1 := by
  have hunset := h.running (by simp [Srd.isTerminal, hst])
  simp only [srdLitWord]
  split
  · exact { h with
      running := fun _ => hunset
      bytes := nofun, emitZeros := nofun, emitWord := nofun, emitLiterals := nofun, done := nofun, error := nofun }
  · exact { h with bytes := fun hst' => absurd (hst.symm.trans hst') nofun }

theorem srdFsmInv_litCount (h : SrdFsmInv r) (hst : r.st = .litCount) (b : Byte) :
    SrdFsmInv (srdLitCount r b).1 := by
  have hb := b.isLt
  have hunset := h.running (by simp [Srd.isTerminal, hst])
  have hload := toNat_litCount b
  have hrange : (8 * b.setWidth 12).toNat % 8 = 0 ∧ (8 * b.setWidth 12).toNat ≤ 2040 := by omega
  exact { h with
    emitWord := fun _ => hrange
    running := fun _ => hunset
    bytes := nofun, emitZeros := nofun, emitLiterals := nofun, done := nofun, error := nofun }

/-- A unit that has not latched an I/O error holds no payload. -/
theorem errv_eq_none (h : SrdFsmInv r) (hrun : r.isTerminal = false) : r.errv = none := by
  rw [← Option.not_isSome_iff_eq_none, h.errv, h.running hrun]
  exact nofun

theorem srdFsmInv_onEnd (h : SrdFsmInv r) (hst : Consuming r.st) : SrdFsmInv (srdOnEnd r) := by
  have hnone := errv_eq_none h (not_terminal_of_consuming hst)
  simp only [srdOnEnd]
  split
  · exact
      { bytes := nofun, emitZeros := nofun, emitWord := nofun, emitLiterals := nofun, done := fun _ => rfl,
        error := nofun, running := nofun, errv := by simp [hnone] }
  · exact
      { bytes := nofun, emitZeros := nofun, emitWord := nofun, emitLiterals := nofun, done := nofun,
        error := fun _ => .inl rfl, running := nofun, errv := by simp [hnone] }

theorem srdFsmInv_ioError (r : Srd) (e : Config.ErrT) : SrdFsmInv (srdIoError r e) :=
  { bytes := nofun, emitZeros := nofun, emitWord := nofun, emitLiterals := nofun, done := nofun,
    error := fun _ => .inr rfl, running := nofun, errv := by simp }

/-- Every rule keeps the FSM's part of the invariant. -/
theorem srdFsmInv_rule {r' : Srd} {src rest : List Token} {item : Option Byte} (h : SrdFsmInv r)
    (hrule : SrdRuleCase r src r' item rest) : SrdFsmInv r' := by
  cases hrule with
  | emitZeros hst => exact srdFsmInv_emitZeros h hst
  | emitWord hst => exact srdFsmInv_emitWord h hst
  | eof hst => exact srdFsmInv_onEnd h hst
  | err hst => exact srdFsmInv_ioError r _
  | tag hst => exact srdFsmInv_tag h hst _
  | bytes hst => exact srdFsmInv_bytes h hst _
  | zeroCount hst => exact srdFsmInv_zeroCount h hst _
  | litWord hst => exact srdFsmInv_litWord h hst _
  | litCount hst => exact srdFsmInv_litCount h hst _
  | emitLiterals hst => exact srdFsmInv_emitLiterals h hst _

/-- The FSM's part of the invariant does not depend on the transaction registers. -/
theorem srdFsmInv_counting_finish (h : SrdFsmInv r) (item : Option Byte) : SrdFsmInv (r.counting item).finish := by
  have hcounting : SrdFsmInv (r.counting item) := by
    unfold Srd.counting
    split
    · exact { h with }
    · exact h
  unfold Srd.finish
  split
  · exact { hcounting with }
  · exact hcounting

end Srd

theorem counting_n (r : Srd) (item : Option Byte) : (r.counting item).n = r.n + item.toList.length := by
  cases item <;> rfl

theorem counting_K (r : Srd) (item : Option Byte) : (r.counting item).K = r.K := by
  cases item <;> rfl

theorem counting_isTerminal (r : Srd) (item : Option Byte) : (r.counting item).isTerminal = r.isTerminal := by
  cases item <;> rfl

theorem finish_n (r : Srd) : r.finish.n = r.n := by unfold Srd.finish; split <;> rfl

theorem finish_K (r : Srd) : r.finish.K = r.K := by unfold Srd.finish; split <;> rfl

theorem finish_isTerminal (r : Srd) : r.finish.isTerminal = r.isTerminal := by unfold Srd.finish; split <;> rfl

theorem srdCompletion_isSome_iff (r : Srd) :
    (srdCompletion r).isSome = true ↔ r.isTerminal = true ∨ r.n = r.K := by
  unfold srdCompletion
  split_ifs <;> simp_all

/-- R163: the transaction stays open exactly while its buffer has room and the FSM runs. -/
theorem finish_busy (r : Srd) : r.finish.busy = (r.busy && !r.isTerminal && decide (r.n ≠ r.K)) := by
  have hsome := srdCompletion_isSome_iff r
  unfold Srd.finish
  split
  case isTrue h => rcases hsome.mp h with hterm | hfull <;> simp [*]
  case isFalse h =>
    obtain ⟨hterm, hfull⟩ := not_or.mp (mt hsome.mpr h)
    simp [hterm, hfull]

/-- A step of a unit keeps its invariant. -/
theorem srdInv_unitStep {p : Params} {u v : SrdUnit} (h : SrdInv p u.regs) (hstep : srdUnitStep u = some v) :
    SrdInv p v.regs := by
  obtain ⟨hbusy, r, item, src, q, hrule, -, rfl⟩ := srdUnitStep_some u v hstep
  have hcase := srdRuleCase_of_rule hrule
  obtain ⟨hK, hn, -⟩ := srdRule_frame hcase
  have hroom := (h.busy hbusy).1
  have hone := length_toList_le_one item
  have hn' : (r.counting item).finish.n = u.regs.n + item.toList.length := by rw [finish_n, counting_n, hn]
  have hK' : (r.counting item).finish.K = u.regs.K := by rw [finish_K, counting_K, hK]
  have hfsm := srdFsmInv_counting_finish (srdFsmInv_rule (.of_srdInv h) hcase) item
  have hle : (r.counting item).finish.n ≤ (r.counting item).finish.K := by omega
  refine { hfsm with K := hK' ▸ h.K, n := hle, busy := fun hopen => ?_ }
  rw [finish_busy] at hopen
  simp only [Bool.and_eq_true, Bool.not_eq_true', decide_eq_true_eq] at hopen
  obtain ⟨⟨-, hterm⟩, hfull⟩ := hopen
  rw [← finish_n, ← finish_K (r.counting item)] at hfull
  exact ⟨Nat.lt_of_le_of_ne hle hfull, (finish_isTerminal _).trans hterm⟩

theorem srdInv_init {p : Params} {r : Srd} (hidle : r.busy = false) : SrdInv p (srdInit r) := by
  have hreset : srdInit r = Srd.reset := by rw [srdInit, hidle]; rfl
  rw [hreset]
  exact srdInv_reset p

theorem srdInv_read {p : Params} {u : SrdUnit} (h : SrdInv p u.regs) {k : Nat} (hk : k < 2 ^ p.kw) :
    SrdInv p (u.read k).regs := by
  unfold SrdUnit.read
  split
  · exact h
  · next hterm =>
    split
    · exact h
    · next hne =>
      exact { h with
        K := hk
        n := Nat.zero_le k
        busy := fun _ => ⟨Nat.pos_of_ne_zero hne, Bool.eq_false_iff.mpr hterm⟩ }

theorem srdInv_unitChange {p : Params} {u v : SrdUnit} (h : SrdInv p u.regs) (huv : UnitChange p u v) :
    SrdInv p v.regs := by
  cases huv with
  | fsmStep hstep => exact srdInv_unitStep h hstep
  | init hidle => exact srdInv_init hidle
  | read _ hk => exact srdInv_read h hk
  | channels hregs => exact hregs ▸ h

/-! ### The machine -/

/-- ENC at the acceptance of a PACK (R105). -/
theorem encInv_accept {p : Params} {e : Enc} {base len : Nat} (hp : p.wf) (h : EncInv p e) (hidle : e.st = .idle)
    (hwf : (Instr.pack base len).wellFormed p = true) (hfit : base + len ≤ p.space) :
    EncInv p (encAccept e base len) := by
  simp only [Instr.wellFormed, Bool.and_eq_true, decide_eq_true_eq] at hwf
  obtain ⟨-, hlw, -⟩ := hp
  have hpow : 2 ^ p.lw = 8 * 2 ^ (p.lw - 3) := by
    rw [show 8 = 2 ^ 3 from rfl, ← Nat.pow_add]
    congr 1
    omega
  have hbuffer : base + 8 * (len / 8) ≤ p.space := by omega
  have hwords : len / 8 < 2 ^ (p.lw - 3) := by omega
  exact { h with
    base := hwf.1, buffer := hbuffer, nw := hwords, cur := Nat.zero_le _
    fault := fault_iff_of_running h (by simp [hidle]) nofun
    tagOut := nofun, sparse := nofun, lscan := nofun, lcopy := nofun }

/-- ENC takes F_ALIGN (R201). -/
theorem encInv_raiseAlign {p : Params} {e : Enc} (h : EncInv p e) : EncInv p (raiseAlign e) :=
  { h with fault := by simp, tagOut := nofun, sparse := nofun, lscan := nofun, lcopy := nofun }

/-- DEC at the acceptance of an UNPACK (R135). -/
theorem decInv_accept {p : Params} {d : Dec} {base len : Nat} (h : DecInv p d)
    (hwf : (Instr.unpack base len).wellFormed p = true) (hfit : base + len ≤ p.space) :
    DecInv p (decAccept d base len) := by
  simp only [Instr.wellFormed, Bool.and_eq_true, decide_eq_true_eq] at hwf
  exact { h with
    base := hwf.1, buffer := hfit, len := hwf.2, pos := Nat.zero_le _
    sparse := nofun, zemit := nofun, lraw := nofun }

theorem inv_change {s t : State} (h : s.Inv) (hst : Change s t) : t.Inv := by
  cases hst with
  | encStep hstep =>
    have henc := encInv_step h.enc hstep
    obtain ⟨hold, hnew⟩ := encStep_st_ne_fault h.enc hstep
    obtain ⟨e, q, -, rfl⟩ := encStepFrom_commits hstep
    exact { h with enc := henc, fault := h.fault.trans (iff_of_false hold hnew) }
  | decStep hstep =>
    have hdec := decInv_step h.dec hstep
    obtain ⟨d, q, -, rfl⟩ := decStepFrom_commits hstep
    exact { h with dec := hdec }
  | @unit j u v hu huv =>
    have hv : SrdInv s.params v.regs := srdInv_unitChange (h.srd u (List.mem_of_getElem? hu)) huv
    exact { h with
      units := List.length_set.trans h.units
      srd := fun w hw => (List.mem_or_eq_of_mem_set hw).elim (h.srd w) fun heq => heq ▸ hv }
  | pack hwf hidle hfit =>
    have hold : s.enc.st ≠ .fault := by simp [hidle]
    exact { h with
      enc := encInv_accept h.params h.enc hidle hwf hfit
      fault := h.fault.trans (iff_of_false hold nofun) }
  | misaligned hidle hfit =>
    exact { h with
      enc := encInv_raiseAlign h.enc
      fault := iff_of_true rfl rfl
      faultBuffer := fun b hb => by cases hb; exact hfit }
  | unpack hwf hfit => exact { h with dec := decInv_accept h.dec hwf hfit }
  | channels => exact { h with }

theorem inv_changes {s t : State} (h : s.Inv) (hst : Changes s t) : t.Inv :=
  changes_induction hst h fun _ _ => inv_change

theorem inv_unitReset {s : State} (h : s.Inv) : s.unitReset.Inv :=
  { h with
    enc := encInv_reset _
    dec := decInv_reset _
    units := List.length_map .. |>.trans h.units
    srd := fun u hu => by
      obtain ⟨v, -, rfl⟩ := List.mem_map.mp hu
      exact srdInv_reset _
    fault := iff_of_false nofun nofun
    faultBuffer := nofun }

theorem mem_put {m : Memory} {a : Nat} {b : Byte} {c : Host.Cell} (h : c ∈ m.put a b) : c.1 = a ∨ c ∈ m := by
  induction m with
  | nil => exact .inl (congrArg Prod.fst (List.mem_singleton.mp h))
  | cons x m ih =>
    obtain ⟨k, v⟩ := x
    unfold Memory.put at h
    split_ifs at h
    · exact (List.mem_cons.mp h).imp_left (congrArg Prod.fst)
    · exact (List.mem_cons.mp h).imp (congrArg Prod.fst) (List.mem_cons_of_mem _)
    · rcases List.mem_cons.mp h with heq | hmem
      · exact .inr (heq ▸ List.mem_cons_self)
      · exact (ih hmem).imp_right (List.mem_cons_of_mem _)

/-- Settles O3: reset and host writes keep the invariant, and so does every elementary change (`inv_change`). -/
theorem stepKeepsInvariant : Obligations.StepKeepsInvariant := by
  unfold Obligations.StepKeepsInvariant
  intro s t h hstep
  have hrest : ∀ rest, State.Inv { s with sched := rest } := fun rest => { h with }
  rcases step_cases hstep with ⟨rest, -, rfl⟩ | ⟨addr, b, rest, -, hwrite⟩ | hchanges
  · exact inv_unitReset (hrest rest)
  · obtain ⟨hin, -, -, rfl⟩ := hostWrite_next addr b _ t hwrite
    exact { hrest rest with
      mem := Memory.put_wf _ _ _ h.mem
      addrs := fun c hc => (mem_put hc).elim (fun heq => heq ▸ hin) (h.addrs c) }
  · exact inv_changes h hchanges

end Sys2Proof.Proofs
end

section
/-! An SRD in a terminal state (R174, R182): no step of the machine changes its registers or pulls a token, but for
reset and an accepted SINIT. -/

namespace Sys2Proof.Proofs

open Sys2Proof Sys2Proof.Machine

/-! ### What leaves a unit alone -/

theorem encBurst_srd {supply : Nat → Option Word} {k : Nat} {s t : State}
    (h : burst (encStepFrom supply) k s = .moves t) : t.srd = s.srd := by
  refine burst_invariant _ (fun u => u.srd = s.srd) (fun u v hu huv => ?_) k s t rfl h
  obtain ⟨e, q, -, rfl⟩ := encStepFrom_commits huv
  exact hu

theorem decBurst_srd {supply : Nat → Option Byte} {k : Nat} {s t : State}
    (h : burst (decStepFrom supply) k s = .moves t) : t.srd = s.srd := by
  refine burst_invariant _ (fun u => u.srd = s.srd) (fun u v hu huv => ?_) k s t rfl h
  obtain ⟨d, q, -, rfl⟩ := decStepFrom_commits huv
  exact hu

/-- A record run by some block leaves alone every unit without an open transaction. -/
theorem runRecord_unit {a : Agent} {i : Instr} {s t : State} {j : Nat} {u : SrdUnit} (hu : s.srd[j]? = some u)
    (hidle : u.regs.busy = false) (h : runRecord a i s = .moves t) : t.srd[j]? = some u := by
  cases a with
  | enc =>
    rcases encRecord_cases i (recordSteps .enc i) s with hwaits | ⟨supply, hburst⟩
    · exact absurd (hwaits.symm.trans h) nofun
    · rw [encBurst_srd (hburst.symm.trans h), hu]
  | dec =>
    rcases decRecord_cases i (recordSteps .dec i) s with hwaits | ⟨supply, hburst⟩
    · exact absurd (hwaits.symm.trans h) nofun
    · rw [decBurst_srd (hburst.symm.trans h), hu]
  | srd k =>
    rcases srdRecord_cases k i (recordSteps (.srd k) i) s with hwaits | ⟨w, hw, hat, hburst⟩
    · exact absurd (hwaits.symm.trans h) nofun
    · have hkj : j ≠ k := by
        rintro rfl
        cases hu.symm.trans hw
        simp [Srd.atRecord, hidle] at hat
      cases hburst.symm.trans h
      exact ((setSrd_units hw _).2.2 j hkj).trans hu

theorem exec_record_unit {i : Instr} (hrec : i.isRecord = true) {s t : State} {j : Nat} {u : SrdUnit}
    (hu : s.srd[j]? = some u) (hidle : u.regs.busy = false) (h : exec i s = .next t) : t.srd[j]? = some u := by
  rw [exec_of_record hrec] at h
  rcases BlockStep.outcome_next _ s t h with hmoves | ⟨-, rfl⟩
  · exact runRecord_unit hu hidle hmoves
  · exact hu

/-- A block's FSM step leaves alone every unit without an open transaction. -/
theorem blockStep_unit {a : Agent} {s t : State} {j : Nat} {u : SrdUnit} (hu : s.srd[j]? = some u)
    (hidle : u.regs.busy = false) (h : blockStep a s = .moves t) : t.srd[j]? = some u := by
  cases a with
  | enc => obtain ⟨e, q, -, rfl⟩ := encStepFrom_commits h; exact hu
  | dec => obtain ⟨d, q, -, rfl⟩ := decStepFrom_commits h; exact hu
  | srd k =>
    by_cases hkj : j = k
    · subst hkj
      exact absurd ((srdStep_of_unit_waits hu (srdUnitStep_of_not_busy hidle)).symm.trans h) nofun
    · exact ((srdStep_frame h).2 j hkj).trans hu

/-- Changing a channel changes at most the commands of one unit. -/
theorem setChannel_unit (a : Agent) {s : State} {j : Nat} {u : SrdUnit} (hu : s.srd[j]? = some u) (cmds : List Nat) :
    ∃ c, (setChannel a s cmds).srd[j]? = some { u with port := { u.port with cmds := c } } := by
  cases a with
  | enc => exact ⟨u.port.cmds, hu⟩
  | dec => exact ⟨u.port.cmds, hu⟩
  | srd k =>
    cases hk : s.srd[k]? with
    | none => simp only [setChannel, hk]; exact ⟨u.port.cmds, hu⟩
    | some w =>
      simp only [setChannel, hk]
      obtain ⟨-, hsame, hother⟩ := setSrd_units hk { w with port := { w.port with cmds := cmds } }
      by_cases hkj : j = k
      · subst hkj
        cases hu.symm.trans hk
        exact ⟨cmds, hsame⟩
      · exact ⟨u.port.cmds, (hother j hkj).trans hu⟩

/-- A channel that holds something can be set. -/
theorem channel_setChannel {a : Agent} {s : State} {bits : Nat} {cmds : List Nat} (h : channel a s = bits :: cmds)
    (new : List Nat) : channel a (setChannel a s new) = new := by
  cases a with
  | enc | dec => rfl
  | srd k =>
    cases hk : s.srd[k]? with
    | none => simp [channel, hk] at h
    | some w =>
      have hset := (setSrd_units hk { w with port := { w.port with cmds := new } }).2.1
      simp only [setChannel, hk, channel, hset]
      rfl

theorem channel_setSrd (a : Agent) {s : State} {j : Nat} {u v : SrdUnit} (hu : s.srd[j]? = some u)
    (hcmds : v.port.cmds = u.port.cmds) : channel a (s.setSrd j v) = channel a s := by
  cases a with
  | enc | dec => rfl
  | srd k =>
    obtain ⟨-, hsame, hother⟩ := setSrd_units hu v
    by_cases hkj : k = j
    · subst hkj
      simp only [channel, hsame, hu, Option.map_some, hcmds]
    · simp only [channel, hother k hkj]

/-! ### A terminal unit -/

/-- The registers of unit `j` are as they were, and no token of its source is gone. -/
def UnitKept (u : SrdUnit) (j : Nat) (t : State) : Prop :=
  ∃ v, t.srd[j]? = some v ∧ u.src <+: v.src ∧ v.regs = u.regs

theorem unitKept_of_same {u v : SrdUnit} {j : Nat} {t : State} (hv : t.srd[j]? = some v) (hregs : v.regs = u.regs)
    (hsrc : v.src = u.src) : UnitKept u j t :=
  ⟨v, hv, hsrc ▸ List.prefix_rfl, hregs⟩

/-- A unit is kept where unit `k` is replaced by one with the same registers and no fewer tokens. -/
theorem unitKept_setSrd {s : State} {j k : Nat} {u w v : SrdUnit} (hu : s.srd[j]? = some u) (hw : s.srd[k]? = some w)
    (hsame : k = j → v.regs = w.regs ∧ w.src <+: v.src) : UnitKept u j (s.setSrd k v) := by
  obtain ⟨-, hset, hother⟩ := setSrd_units hw v
  by_cases hkj : k = j
  · subst hkj
    cases hu.symm.trans hw
    exact ⟨v, hset, (hsame rfl).2, (hsame rfl).1⟩
  · exact unitKept_of_same ((hother j (Ne.symm hkj)).trans hu) rfl rfl

/-- A command executed keeps a terminal unit, unless it is the SINIT of that unit (R174, R161). -/
theorem exec_command_unit {i : Instr} {s t : State} {j : Nat} {u : SrdUnit} (hcmd : i.isRecord = false)
    (hu : s.srd[j]? = some u) (hterm : u.regs.isTerminal = true) (h : exec i s = .next t) :
    UnitKept u j t ∨ (i = .sinit j ∧ t = s.setSrd j u.init) := by
  cases i with
  | zrun | lrun | sparse => cases hcmd
  | pack base len =>
    rcases execPack_next base len s t h with ⟨-, rfl⟩ | ⟨-, -, -, rfl⟩ | ⟨-, -, -, rfl⟩ <;>
      exact .inl (unitKept_of_same hu rfl rfl)
  | unpack base len =>
    rcases execUnpack_next h with ⟨-, rfl⟩ | ⟨-, -, rfl⟩ <;> exact .inl (unitKept_of_same hu rfl rfl)
  | sinit k =>
    obtain ⟨w, hw, ⟨-, rfl⟩ | ⟨-, rfl⟩⟩ := execSinit_next h
    · exact .inl (unitKept_setSrd hu hw fun _ => ⟨rfl, List.prefix_rfl⟩)
    · by_cases hkj : k = j
      · subst hkj
        cases hu.symm.trans hw
        exact .inr ⟨rfl, rfl⟩
      · exact .inl (unitKept_setSrd hu hw fun heq => absurd heq hkj)
  | sread k n =>
    obtain ⟨w, hw, ⟨-, rfl⟩ | ⟨-, rfl⟩⟩ := execSread_next h
    · exact .inl (unitKept_setSrd hu hw fun _ => ⟨rfl, List.prefix_rfl⟩)
    · refine .inl (unitKept_setSrd hu hw ?_)
      rintro rfl
      cases hu.symm.trans hw
      rw [read_of_terminal hterm]
      exact ⟨rfl, List.prefix_rfl⟩

theorem init_regs {u : SrdUnit} (hidle : u.regs.busy = false) : u.init.regs = Srd.reset := by
  simp only [SrdUnit.init, srdInit, hidle]
  rfl

/-- A move of the host other than reset keeps every unit. -/
theorem host_move_unit {m : Move} {s t : State} {j : Nat} {u : SrdUnit} (hu : s.srd[j]? = some u)
    (hhost : (∀ a, m ≠ .tick a) ∧ ∀ a, m ≠ .record a) (hreset : m ≠ .reset) (h : move m s = .next t) :
    UnitKept u j t := by
  cases m with
  | tick a => exact absurd rfl (hhost.1 a)
  | record a => exact absurd rfl (hhost.2 a)
  | issue bits =>
    obtain ⟨a, rfl⟩ := hostIssue_next h
    obtain ⟨c, hc⟩ := setChannel_unit a hu (channel a s ++ [bits])
    exact unitKept_of_same hc rfl rfl
  | token k tok =>
    obtain ⟨w, hw, rfl⟩ := hostToken_next h
    exact unitKept_setSrd hu hw fun _ => ⟨rfl, List.prefix_append _ _⟩
  | sink a k =>
    cases a with
    | enc | dec => cases h; exact unitKept_of_same hu rfl rfl
    | srd n =>
      cases hw : s.srd[n]? with
      | none => simp only [move, hostSink, hw] at h; cases h
      | some w =>
        cases (hostSink_of_unit hw k).symm.trans h
        exact unitKept_setSrd hu hw fun _ => ⟨rfl, List.prefix_rfl⟩
  | write addr b =>
    obtain ⟨-, -, -, rfl⟩ := hostWrite_next addr b _ t h
    exact unitKept_of_same hu rfl rfl
  | reset => exact absurd rfl hreset

/-- Settles O55: the step's outcome is one of those of `StepOutcome`, and each keeps the unit but for reset and the
SINIT that a block accepts. -/
theorem terminalStateIsLeftOnlyByInit : Obligations.TerminalStateIsLeftOnlyByInit := by
  unfold Obligations.TerminalStateIsLeftOnlyByInit
  intro s t j u hu hterm hidle h
  suffices hcases : UnitKept u j t ∨ (∃ rest, s.sched = .reset :: rest ∧ t = State.unitReset { s with sched := rest }) ∨
      ∃ a bits cmds c, BlocksTurn s a ∧ acceptsCommand a s = true ∧ channel a s = bits :: cmds ∧
        decode s.params (.command bits) = .ok (.sinit j) ∧ channel a t = cmds ∧
        t.srd[j]? = some (SrdUnit.init { u with port := { u.port with cmds := c } }) by
    rcases hcases with ⟨v, hv, hsrc, hregs⟩ | ⟨rest, hsched, rfl⟩ | ⟨a, bits, cmds, c, hturn, haccepts, hchannel, hdec,
      hleft, hv⟩
    · exact ⟨v, hv, hsrc, .inl hregs⟩
    · exact ⟨_, unitReset_unit (s := { s with sched := rest }) hu, List.prefix_rfl, .inr (.inl ⟨rfl, rest, hsched⟩)⟩
    · exact ⟨_, hv, List.prefix_rfl,
        .inr (.inr ⟨init_regs hidle, rfl, a, bits, cmds, hturn, haccepts, hchannel, hdec, hleft⟩)⟩
  obtain ⟨o, ho⟩ : ∃ o, Host.Outcome.next t = o := ⟨_, rfl⟩
  have houtcome := stepOutcome_step s
  rw [h, ho] at houtcome
  cases houtcome with
  | stays => cases ho; exact .inl (unitKept_of_same hu rfl rfl)
  | @moves a _ hstep =>
    cases ho
    exact .inl (unitKept_of_same (blockStep_unit (s := onTurn s a) hu hidle hstep) rfl rfl)
  | faults => cases ho
  | @record a i hfetch =>
    have hunit := exec_record_unit (isRecord_of_fetchRecord hfetch) (s := onTurn s a) hu hidle ho.symm
    exact .inl (unitKept_of_same hunit rfl rfl)
  | @command a bits cmds i hturn haccepts hchannel hdec =>
    obtain ⟨-, -, hcmd⟩ := commandDecodingIsExact _ _ _ hdec
    obtain ⟨c, hc⟩ := setChannel_unit a (s := onTurn s a) hu cmds
    rcases exec_command_unit hcmd hc hterm ho.symm with ⟨v, hv, hsrc, hregs⟩ | ⟨rfl, rfl⟩
    · exact .inl ⟨v, hv, hsrc, hregs⟩
    · have hpopped : channel a (setChannel a (onTurn s a) cmds) = cmds :=
        channel_setChannel ((channel_with a a _ s).trans hchannel) cmds
      exact .inr (.inr ⟨a, bits, cmds, c, hturn, haccepts, hchannel, hdec,
        (channel_setSrd a (v := SrdUnit.init _) hc rfl).trans hpopped, (setSrd_units hc _).2.1⟩)
  | notACommand => cases ho
  | @host m rest hsched hhost =>
    by_cases hreset : m = .reset
    · subst hreset
      cases ho
      exact .inr (.inl ⟨rest, hsched, rfl⟩)
    · exact .inl (host_move_unit (s := { s with sched := rest }) hu hhost hreset ho.symm)

end Sys2Proof.Proofs
end

section
/-! What the blocks read (R53, R62): reads stay inside the buffer of the running command, so they do not fault where it
is placed; and a record's operands are what the block reads at its cursor, so executing the record is the run of the
block's own FSM steps. -/

namespace Sys2Proof.Proofs

open Sys2Proof Sys2Proof.Machine

/-! ### Bursts compared -/

/-- A burst does not fault where an invariant of its steps shuts faults out. -/
theorem burst_ne_faults {f : State → BlockStep} {P : State → Prop} (hkeeps : ∀ s t, P s → f s = .moves t → P t)
    (hsafe : ∀ s e, P s → f s ≠ .faults e) (k : Nat) : ∀ s e, P s → burst f k s ≠ .faults e := by
  induction k with
  | zero => exact fun s e _ => nofun
  | succ k ih =>
    intro s e hs
    unfold burst
    split
    · exact nofun
    · next hf => exact absurd hf (hsafe s _ hs)
    · next t hf => exact ih t e (hkeeps s t hs hf)

/-- Two step functions that agree under an invariant run the same bursts. -/
theorem burst_congr {f g : State → BlockStep} {P : State → Prop} (hkeeps : ∀ s t, P s → g s = .moves t → P t)
    (hagree : ∀ s, P s → f s = g s) (k : Nat) : ∀ s, P s → burst f k s = burst g k s := by
  induction k with
  | zero => exact fun s _ => rfl
  | succ k ih =>
    intro s hs
    simp only [burst, hagree s hs]
    split
    · rfl
    · rfl
    · next t hg => exact ih t (hkeeps s t hs hg)

/-! ### Reads of placed bytes -/

/-- Every byte of `[base, base + len)` lies in the space and is placed. -/
def BufferPlaced (s : State) (base len : Nat) : Prop :=
  ∀ i, i < len → base + i < s.params.space ∧ (s.mem.get (base + i)).isSome = true

theorem exists_memRead {s : State} {base len : Nat} (h : BufferPlaced s base len) (start n : Nat)
    (hin : start + n ≤ len) : ∃ bs, memRead s (base + start) n = .ok bs :=
  memRead_of_placed fun i hi => by
    have hplaced := h (start + i) (by omega)
    rwa [← Nat.add_assoc] at hplaced

theorem exists_memReadByte {s : State} {base len : Nat} (h : BufferPlaced s base len) {start : Nat}
    (hin : start < len) : ∃ b, memReadByte s (base + start) = .ok b := by
  obtain ⟨bs, hbs⟩ := exists_memRead h start 1 hin
  exact ⟨_, by rw [memReadByte, hbs]; rfl⟩

theorem exists_memReadWord {s : State} {base len : Nat} (h : BufferPlaced s base len) {start : Nat}
    (hin : start + 8 ≤ len) : ∃ w, memReadWord s (base + start) = .ok w := by
  obtain ⟨bs, hbs⟩ := exists_memRead h start 8 hin
  exact ⟨_, by rw [memReadWord, hbs]; rfl⟩

theorem ofRead_ok {α : Type} (a : α) (k : α → BlockStep) : BlockStep.ofRead (.ok a) k = k a := rfl

theorem bufferPlaced_congr {s t : State} {base len : Nat} (hparams : t.params = s.params) (hmem : t.mem = s.mem)
    (h : BufferPlaced s base len) : BufferPlaced t base len := by
  unfold BufferPlaced
  rw [hparams, hmem]
  exact h

/-! ### ENC reads inside its buffer -/

/-- A running ENC has its invariant, and its buffer is placed. -/
def EncReadable (s : State) : Prop :=
  EncInv s.params s.enc ∧ BufferPlaced s s.enc.base (8 * s.enc.nw)

theorem encReadable_step {supply : Nat → Option Word} {s t : State} (h : EncReadable s)
    (hstep : encStepFrom supply s = .moves t) : EncReadable t := by
  obtain ⟨hbase, hnw, -, hparams, hmem⟩ := encStep_frame hstep
  refine ⟨hparams ▸ encInv_step h.1 hstep, ?_⟩
  rw [hbase, hnw]
  exact bufferPlaced_congr hparams hmem h.2

theorem exists_encWord {s : State} (h : EncReadable s) (supply : Nat → Option Word) {i : Nat} (hi : i < s.enc.nw) :
    ∃ w, encWord supply s i = .ok w := by
  unfold encWord
  split
  · exact ⟨_, rfl⟩
  · exact exists_memReadWord h.2 (by omega)

theorem exists_encByte {s : State} (h : EncReadable s) (supply : Nat → Option Word) {i k : Nat} (hi : i < s.enc.nw)
    (hk : k < 8) : ∃ b, encByte supply s i k = .ok b := by
  unfold encByte
  split
  · exact ⟨_, rfl⟩
  · rw [Nat.add_assoc]
    exact exists_memReadByte h.2 (by omega)

theorem ofRead_commitEnc_ne_faults {α : Type} {r : Except Fault α} (hr : ∃ a, r = .ok a) (s : State)
    (k : α → Effect Enc Byte) (f : Fault) : BlockStep.ofRead r (fun a => s.commitEnc (k a)) ≠ .faults f := by
  obtain ⟨a, rfl⟩ := hr
  exact s.commitEnc_ne_faults _ f

/-- Every state of ENC reads inside the buffer: the cursors stay below `nw` (R106, R109, R111, R112). -/
theorem encStepFrom_ne_faults {s : State} (h : EncReadable s) (supply : Nat → Option Word) (f : Fault) :
    encStepFrom supply s ≠ .faults f := by
  have hcommit := fun e => s.commitEnc_ne_faults e f
  unfold encStepFrom
  split
  case h_1 => exact nofun
  case h_2 => exact nofun
  case h_3 =>
    split
    · exact hcommit _
    · next hcur => exact ofRead_commitEnc_ne_faults (exists_encWord h supply (Nat.lt_of_le_of_ne h.1.cur hcur)) s _ f
  case h_4 => exact hcommit _
  case h_5 => exact hcommit _
  case h_6 =>
    split
    · next hmay => exact ofRead_commitEnc_ne_faults (exists_encWord h supply ((mayScan_iff _ _).mp hmay).1) s _ f
    · exact hcommit _
  case h_7 => exact hcommit _
  case h_8 =>
    split
    · next hmay => exact ofRead_commitEnc_ne_faults (exists_encWord h supply ((mayScan_iff _ _).mp hmay).1) s _ f
    · exact hcommit _
  case h_9 hst =>
    obtain ⟨hcnt, hscan, hend⟩ := h.1.lcopy hst
    exact ofRead_commitEnc_ne_faults (exists_encByte h supply (by omega) s.enc.k.isLt) s _ f

/-! ### DEC reads inside its buffer -/

/-- DEC's steps leave its buffer, the parameters and the memory as they are. -/
structure DecFrame (s t : State) : Prop where
  base : t.dec.base = s.dec.base
  len : t.dec.len = s.dec.len
  params : t.params = s.params
  mem : t.mem = s.mem

theorem decStep_frame {supply : Nat → Option Byte} {s t : State} (hstep : decStepFrom supply s = .moves t) :
    DecFrame s t := by
  rcases decStepFrom_moves supply s t hstep with ⟨-, hcommit⟩ | ⟨atEnd, rule, hconsume, hrule⟩
  · obtain ⟨q, -, rfl⟩ := State.commitDec_moves s t _ hcommit
    exact ⟨rfl, rfl, rfl, rfl⟩
  · rcases decConsume_moves supply s t atEnd rule hconsume with ⟨-, hcommit⟩ | ⟨-, b, -, hcommit⟩
    · obtain ⟨q, -, rfl⟩ := State.commitDec_moves s t _ hcommit
      rcases hrule with ⟨-, rfl, -⟩ | ⟨rfl, -⟩ <;> exact ⟨rfl, rfl, rfl, rfl⟩
    · obtain ⟨q, -, rfl⟩ := State.commitDec_moves s t _ hcommit
      rcases hrule with ⟨-, -, rfl⟩ | ⟨-, ⟨-, rfl⟩ | ⟨-, rfl⟩ | ⟨-, rfl⟩ | ⟨-, rfl⟩ | ⟨-, rfl⟩⟩
      · unfold decTag; split_ifs <;> exact ⟨rfl, rfl, rfl, rfl⟩
      · unfold decSparse; split_ifs <;> exact ⟨rfl, rfl, rfl, rfl⟩
      · exact ⟨rfl, rfl, rfl, rfl⟩
      · unfold decSeed; split_ifs <;> exact ⟨rfl, rfl, rfl, rfl⟩
      · exact ⟨rfl, rfl, rfl, rfl⟩
      · unfold decLraw; split_ifs <;> exact ⟨rfl, rfl, rfl, rfl⟩

/-- DEC has its invariant, and its buffer is placed. -/
def DecReadable (s : State) : Prop :=
  DecInv s.params s.dec ∧ BufferPlaced s s.dec.base s.dec.len

theorem decReadable_step {supply : Nat → Option Byte} {s t : State} (h : DecReadable s)
    (hstep : decStepFrom supply s = .moves t) : DecReadable t := by
  obtain ⟨hbase, hlen, hparams, hmem⟩ := decStep_frame hstep
  refine ⟨hparams ▸ decInv_step h.1 hstep, ?_⟩
  rw [hbase, hlen]
  exact bufferPlaced_congr hparams hmem h.2

theorem decConsume_ne_faults {s : State} (h : DecReadable s) (supply : Nat → Option Byte) (atEnd : Effect Dec Word)
    (rule : Dec → Byte → Effect Dec Word) (f : Fault) : decConsume supply s atEnd rule ≠ .faults f := by
  unfold decConsume
  split
  · exact s.commitDec_ne_faults _ f
  · next hpos =>
    have hread : ∃ b, decByte supply s = .ok b := by
      unfold decByte
      split
      · exact ⟨_, rfl⟩
      · exact exists_memReadByte h.2 (Nat.lt_of_le_of_ne h.1.pos hpos)
    obtain ⟨b, hb⟩ := hread
    rw [hb]
    exact s.commitDec_ne_faults _ f

theorem decStepFrom_ne_faults {s : State} (h : DecReadable s) (supply : Nat → Option Byte) (f : Fault) :
    decStepFrom supply s ≠ .faults f := by
  unfold decStepFrom
  split
  · exact nofun
  · exact decConsume_ne_faults h supply _ _ f
  · exact decConsume_ne_faults h supply _ _ f
  · exact decConsume_ne_faults h supply _ _ f
  · exact s.commitDec_ne_faults _ f
  · exact decConsume_ne_faults h supply _ _ f
  · exact decConsume_ne_faults h supply _ _ f
  · exact decConsume_ne_faults h supply _ _ f

/-! ### No block's move faults -/

theorem srdStep_ne_faults (j : Nat) (s : State) (f : Fault) : srdStep j s ≠ .faults f := by
  unfold srdStep
  split
  · exact nofun
  · split <;> exact nofun

/-- The blocks that read the source buffer read placed bytes while they run. -/
structure InputsReadable (s : State) : Prop where
  enc : s.enc.isBusy = true → EncReadable s
  dec : s.dec.isBusy = true → DecReadable s

theorem inputsReadable_of_placed {s : State} (h : s.Inv) (hplaced : s.InputPlaced) : InputsReadable s where
  enc hbusy := by
    refine ⟨h.enc, fun i hi => ?_⟩
    have hbuffer := h.enc.buffer
    have hread := hplaced (s.enc.base + i) (by simp [inputOfBlock, hbusy, hi])
    exact ⟨by omega, hread⟩
  dec hbusy := by
    refine ⟨h.dec, fun i hi => ?_⟩
    have hbuffer := h.dec.buffer
    have hread := hplaced (s.dec.base + i) (by simp [inputOfBlock, hbusy, hi])
    exact ⟨by omega, hread⟩

/-- A block at a record boundary is running. -/
theorem enc_isBusy_of_atRecord {e : Enc} (h : e.atRecord = true) : e.isBusy = true := by
  simp only [Enc.atRecord, Bool.and_eq_true, beq_iff_eq] at h
  simp [Enc.isBusy, h.1]

theorem dec_isBusy_of_atRecord {d : Dec} (h : d.atRecord = true) : d.isBusy = true := by
  simp only [Dec.atRecord, Bool.and_eq_true, beq_iff_eq] at h
  simp [Dec.isBusy, h.1]

theorem blockStep_ne_faults {s : State} (h : InputsReadable s) (a : Agent) (f : Fault) :
    blockStep a s ≠ .faults f := by
  cases a with
  | enc =>
    cases hbusy : s.enc.isBusy with
    | true => exact encStepFrom_ne_faults (h.enc hbusy) _ f
    | false =>
      have hst : s.enc.st = .idle ∨ s.enc.st = .fault := by
        rw [← Bool.not_eq_true, enc_isBusy_iff, not_and_or, not_ne_iff, not_ne_iff] at hbusy
        exact hbusy
      rcases hst with hst | hst <;> simp [blockStep, encStep, encStepFrom, hst]
  | dec =>
    cases hbusy : s.dec.isBusy with
    | true => exact decStepFrom_ne_faults (h.dec hbusy) _ f
    | false =>
      have hst : s.dec.st = .idle := by simpa [Dec.isBusy] using hbusy
      simp [blockStep, decStep, decStepFrom, hst]
  | srd j => exact srdStep_ne_faults j s f

theorem runRecord_ne_faults {s : State} (h : InputsReadable s) (a : Agent) (i : Instr) (f : Fault) :
    runRecord a i s ≠ .faults f := by
  cases a with
  | enc =>
    unfold runRecord encRecord
    dsimp only
    split
    · next hat =>
      exact burst_ne_faults (fun _ _ => encReadable_step) (fun u e hu => encStepFrom_ne_faults hu _ e) _ s f
        (h.enc (enc_isBusy_of_atRecord hat))
    · exact nofun
  | dec =>
    unfold runRecord decRecord
    dsimp only
    split
    · next hat =>
      exact burst_ne_faults (fun _ _ => decReadable_step) (fun u e hu => decStepFrom_ne_faults hu _ e) _ s f
        (h.dec (dec_isBusy_of_atRecord hat))
    · exact nofun
  | srd j =>
    rcases srdRecord_cases j i (recordSteps (.srd j) i) s with hwaits | ⟨u, -, -, hburst⟩
    · exact fun heq => absurd (hwaits.symm.trans heq) nofun
    · exact fun heq => absurd (hburst.symm.trans heq) nofun

theorem outcome_ne_fault {b : BlockStep} (hb : ∀ f, b ≠ .faults f) (s : State) (f : Fault) : b.outcome s ≠ .fault f := by
  cases b with
  | waits | moves => exact nofun
  | faults e => exact absurd rfl (hb e)

/-- A command executed reads nothing. -/
theorem exec_command_ne_fault {i : Instr} (hcmd : i.isRecord = false) (s : State) (f : Fault) :
    exec i s ≠ .fault f := by
  cases i with
  | zrun | lrun | sparse => cases hcmd
  | pack base len =>
    show execPack base len s ≠ _
    unfold execPack
    split_ifs <;> exact nofun
  | unpack base len =>
    show execUnpack base len s ≠ _
    unfold execUnpack
    split_ifs <;> exact nofun
  | sinit j =>
    show execSinit j s ≠ _
    unfold execSinit
    split
    · exact nofun
    · split_ifs <;> exact nofun
  | sread j k =>
    show execSread j k s ≠ _
    unfold execSread
    split
    · exact nofun
    · split_ifs <;> exact nofun

/-- Settles O21: a block's move is an FSM step, a record or a command, and none of them faults. -/
theorem blocksReadOnlyTheirBuffer : Obligations.BlocksReadOnlyTheirBuffer := by
  unfold Obligations.BlocksReadOnlyTheirBuffer
  intro s h hplaced hmoves f hfault
  have hread : ∀ a, InputsReadable (onTurn s a) := fun a =>
    inputsReadable_of_placed (s := onTurn s a) { h with } hplaced
  obtain ⟨o, ho⟩ : ∃ o : Host.Outcome State Fault Refusal, .fault f = o := ⟨_, rfl⟩
  have houtcome := stepOutcome_step s
  rw [hfault, ho] at houtcome
  cases houtcome with
  | stays => cases ho
  | moves => cases ho
  | @faults a _ hstep => exact blockStep_ne_faults (hread a) a _ hstep
  | @record a i hfetch =>
    rw [exec_of_record (isRecord_of_fetchRecord hfetch)] at ho
    exact outcome_ne_fault (runRecord_ne_faults (hread a) _ i) _ _ ho.symm
  | command _ _ _ hdec =>
    obtain ⟨-, -, hcmd⟩ := commandDecodingIsExact _ _ _ hdec
    exact exec_command_ne_fault hcmd _ f ho.symm
  | notACommand => cases ho
  | host hsched hhost =>
    rcases hmoves with hnil | ⟨a, rest, htick⟩ | ⟨a, rest, hrecord⟩
    · exact absurd (hsched.symm.trans hnil) nofun
    · exact hhost.1 a (List.cons.inj (hsched.symm.trans htick)).1
    · exact hhost.2 a (List.cons.inj (hsched.symm.trans hrecord)).1

/-! ### The words and bytes a block's cursor stands at -/

theorem getElem?_placedBytes {m : Memory} {n : Nat} : ∀ {addr i : Nat} {b : Byte},
    (placedBytes m addr n)[i]? = some b → m.get (addr + i) = some b := by
  induction n with
  | zero => exact nofun
  | succ n ih =>
    intro addr i b h
    unfold placedBytes at h
    split at h
    · exact absurd h (by simp)
    · next c hc =>
      cases i with
      | zero =>
        cases h
        exact hc
      | succ i =>
        have hnext := ih h
        rwa [Nat.add_right_comm, Nat.add_assoc] at hnext

/-- Word `j` of a byte list is made of its bytes from `8 j` on. -/
theorem getElem?_wordsOfBytes (bs : List Byte) : ∀ (j : Nat) (w : Word), (wordsOfBytes bs)[j]? = some w →
    ∀ k, k < 8 → bs[8 * j + k]? = some (lane w k) := by
  induction bs using wordsOfBytes.induct with
  | case1 b0 b1 b2 b3 b4 b5 b6 b7 rest ih =>
    intro j w hw k hk
    rw [wordsOfBytes] at hw
    cases j with
    | zero =>
      cases hw
      have hget : (b0 :: b1 :: b2 :: b3 :: b4 :: b5 :: b6 :: b7 :: rest)[k]? =
          [b0, b1, b2, b3, b4, b5, b6, b7][k]? := List.getElem?_append_left (l₁ := [b0, b1, b2, b3, b4, b5, b6, b7]) hk
      rw [lane_wordOfBytes _ _ hk, Nat.mul_zero, Nat.zero_add, hget, List.getD_eq_getElem?_getD,
        List.getElem?_eq_getElem (l := [b0, b1, b2, b3, b4, b5, b6, b7]) hk]
      rfl
    | succ j =>
      have hshift : 8 * (j + 1) + k = 8 * j + k + 8 := by omega
      rw [hshift]
      exact ih j w hw k hk
  | case2 bs hshort =>
    intro j w hw
    rw [wordsOfBytes.eq_2 _ hshort] at hw
    cases hw

theorem Memory.mem_of_get {m : Memory} {a : Nat} {b : Byte} (h : m.get a = some b) : (a, b) ∈ m := by
  induction m with
  | nil => cases h
  | cons c m ih =>
    obtain ⟨k, v⟩ := c
    rw [Memory.get_cons] at h
    split_ifs at h with hk
    · cases h
      exact hk ▸ List.mem_cons_self
    · exact List.mem_cons_of_mem _ (ih h)

/-- A byte placed in a memory of the invariant is read. -/
theorem memReadByte_of_get {s : State} (haddrs : ∀ c ∈ s.mem, c.1 < s.params.space) {a : Nat} {b : Byte}
    (h : s.mem.get a = some b) : memReadByte s a = .ok b := by
  have hin : a < s.params.space := haddrs _ (Memory.mem_of_get h)
  have hread : memRead s a 1 = .ok [b] :=
    (memRead_succ_ok_iff s a 0 [b]).mpr ⟨hin, b, [], h, rfl, rfl⟩
  rw [memReadByte, hread]
  rfl

/-- Eight bytes placed in a memory of the invariant are read as the word they make (R52). -/
theorem memReadWord_of_get {s : State} (haddrs : ∀ c ∈ s.mem, c.1 < s.params.space) {a : Nat} {w : Word}
    (h : ∀ k, k < 8 → s.mem.get (a + k) = some (lane w k)) : memReadWord s a = .ok w := by
  obtain ⟨bs, hbs⟩ := memRead_of_placed (s := s) (addr := a) (n := 8) fun k hk =>
    ⟨haddrs _ (Memory.mem_of_get (h k hk)), by rw [h k hk]; rfl⟩
  obtain ⟨-, hget⟩ := memRead_ok hbs
  have hword : wordOfBytes bs = w := word_ext_lanes _ _ fun k hk => by
    have hbyte : bs[k]? = some (lane w k) := (hget k hk).2.symm.trans (h k hk)
    rw [lane_wordOfBytes _ _ hk, List.getD_eq_getElem?_getD, hbyte]
    rfl
  rw [memReadWord, hbs, ← hword]
  rfl

/-! ### A record on ENC -/

/-- What `supply` gives ENC is what its reads of the source buffer answer. -/
def EncSupplies (supply : Nat → Option Word) (s : State) : Prop :=
  ∀ i w, supply i = some w → memReadWord s (s.enc.base + 8 * i) = .ok w ∧
    ∀ k, k < 8 → memReadByte s (s.enc.base + 8 * i + k) = .ok (lane w k)

theorem encStepFrom_of_supplies {supply : Nat → Option Word} {s : State} (h : EncSupplies supply s) :
    encStepFrom supply s = encStep s := by
  have hword : ∀ i, encWord supply s i = encWord (fun _ => none) s i := by
    intro i
    unfold encWord
    split
    · next w hw => exact (h i w hw).1.symm
    · rfl
  have hbyte : ∀ i, encByte supply s i s.enc.k.toNat = encByte (fun _ => none) s i s.enc.k.toNat := by
    intro i
    unfold encByte
    split
    · next w hw => exact ((h i w hw).2 _ s.enc.k.isLt).symm
    · rfl
  simp only [encStep, encStepFrom, hword, hbyte]

theorem encSupplies_step {supply : Nat → Option Word} {s t : State} (h : EncSupplies supply s)
    (hstep : encStep s = .moves t) : EncSupplies supply t := by
  obtain ⟨hbase, -, -, hparams, hmem⟩ := encStep_frame hstep
  simp only [EncSupplies, memReadWord, memReadByte, hbase, memRead_congr s t hparams hmem]
  exact h

theorem nextRecord_cons (w : Word) (ws : List Word) :
    nextRecord (w :: ws) =
      if tagGen w = 0x00#8 then some (.zrun (BitVec.ofNat 8 (zrunLength ws)))
      else if tagGen w = 0xFF#8 then some (.lrun w (ws.take (lrunLength ws)))
      else some (.sparse (tagGen w) (compact w)) := rfl

theorem packsRecord_of_nextRecord {ws : List Word} {i : Instr} (h : nextRecord ws = some i) :
    ∃ rest, PacksRecord ws i rest := by
  cases ws with
  | nil => cases h
  | cons w ws =>
    rw [nextRecord_cons] at h
    split_ifs at h with h0 hF <;> cases h
    · exact ⟨_, packsRecord_zrun ws h0⟩
    · exact ⟨_, packsRecord_lrun ws hF⟩
    · exact ⟨_, packsRecord_sparse ws h0 hF⟩

/-- The words a record supplies to ENC, from its cursor on (log 8). -/
def encSupply (i : Instr) (s : State) (j : Nat) : Option Word :=
  if s.enc.cur ≤ j then (recordWords i)[j - s.enc.cur]? else none

theorem encRecord_of_atRecord {s : State} (hat : s.enc.atRecord = true) (i : Instr) (k : Nat) :
    encRecord i k s = burst (encStepFrom (encSupply i s)) k s := if_pos hat

/-- The words of the record at ENC's cursor are those in the source buffer there. -/
theorem encSupplies_of_fetchRecord {s : State} {i : Instr} (h : s.Inv) (hfetch : nextRecord (encWindow s) = some i) :
    EncSupplies (encSupply i s) s := by
  obtain ⟨rest, hpacks⟩ := packsRecord_of_nextRecord hfetch
  intro j w hsupply
  unfold encSupply at hsupply
  split_ifs at hsupply with hcur
  have hwindow : (encWindow s)[j - s.enc.cur]? = some w := by
    rw [hpacks.words, List.getElem?_append_left (List.getElem?_eq_some_iff.mp hsupply).1, hsupply]
  have hplaced : ∀ k, k < 8 → s.mem.get (s.enc.base + 8 * j + k) = some (lane w k) := by
    intro k hk
    have hget := getElem?_placedBytes (getElem?_wordsOfBytes _ _ _ hwindow k hk)
    have haddr : s.enc.base + 8 * s.enc.cur + (8 * (j - s.enc.cur) + k) = s.enc.base + 8 * j + k := by omega
    rwa [haddr] at hget
  exact ⟨memReadWord_of_get h.addrs hplaced, fun k hk => memReadByte_of_get h.addrs (hplaced k hk)⟩

/-! ### A record on DEC -/

/-- What `supply` gives DEC is what its reads of the source buffer answer. -/
def DecSupplies (supply : Nat → Option Byte) (s : State) : Prop :=
  ∀ i b, supply i = some b → memReadByte s (s.dec.base + i) = .ok b

theorem decStepFrom_of_supplies {supply : Nat → Option Byte} {s : State} (h : DecSupplies supply s) :
    decStepFrom supply s = decStep s := by
  have hbyte : decByte supply s = decByte (fun _ => none) s := by
    unfold decByte
    split
    · next b hb => exact (h _ b hb).symm
    · rfl
  simp only [decStep, decStepFrom, decConsume, hbyte]

theorem decSupplies_step {supply : Nat → Option Byte} {s t : State} (h : DecSupplies supply s)
    (hstep : decStep s = .moves t) : DecSupplies supply t := by
  obtain ⟨hbase, -, hparams, hmem⟩ := decStep_frame hstep
  simp only [DecSupplies, memReadByte, hbase, memRead_congr s t hparams hmem]
  exact h

/-- A first record stands, encoded, at the head of its bytes. -/
theorem encodeRecord_prefix_of_firstRecord {bytes : List Byte} {i : Instr} (h : firstRecord bytes = some i) :
    encodeRecord i <+: bytes := by
  obtain ⟨rest, hdec⟩ := exists_decodeRecord_of_firstRecord h
  exact ⟨rest, (recordDecodingIsExact Config.exampleParams _ _ _ hdec).2⟩

/-- The bytes a record supplies to DEC, from its cursor on (log 8). -/
def decSupply (i : Instr) (s : State) (j : Nat) : Option Byte :=
  if s.dec.pos ≤ j then (encodeRecord i)[j - s.dec.pos]? else none

theorem decRecord_of_atRecord {s : State} (hat : s.dec.atRecord = true) (i : Instr) (k : Nat) :
    decRecord i k s = burst (decStepFrom (decSupply i s)) k s := if_pos hat

/-- The bytes of the record at DEC's cursor are those in the source buffer there. -/
theorem decSupplies_of_fetchRecord {s : State} {i : Instr} (h : s.Inv) (hfetch : firstRecord (decWindow s) = some i) :
    DecSupplies (decSupply i s) s := by
  obtain ⟨rest, hbytes⟩ := encodeRecord_prefix_of_firstRecord hfetch
  intro j b hsupply
  unfold decSupply at hsupply
  split_ifs at hsupply with hpos
  have hwindow : (decWindow s)[j - s.dec.pos]? = some b := by
    rw [← hbytes, List.getElem?_append_left (List.getElem?_eq_some_iff.mp hsupply).1, hsupply]
  have hget := getElem?_placedBytes hwindow
  have haddr : s.dec.base + s.dec.pos + (j - s.dec.pos) = s.dec.base + j := by omega
  rw [haddr] at hget
  exact memReadByte_of_get h.addrs hget

/-! ### A record on SRD -/

/-- Supplying the bytes that are there changes no token. -/
theorem overlay_of_prefix (bs : List Byte) : ∀ ts : List Token, bs <+: availableBytes ts → overlay bs ts = ts := by
  induction bs with
  | nil => intro ts _; unfold overlay; rfl
  | cons b bs ih =>
    intro ts h
    cases ts with
    | nil => simp [availableBytes] at h
    | cons tok ts =>
      cases tok with
      | byte c =>
        obtain ⟨hbc, htail⟩ := List.cons_prefix_cons.mp h
        rw [overlay, ih ts htail, hbc]
      | eof | err => simp [availableBytes] at h

theorem availableBytes_take_prefix (n : Nat) : ∀ ts : List Token, availableBytes (ts.take n) <+: availableBytes ts := by
  induction n with
  | zero => exact fun ts => List.nil_prefix
  | succ n ih =>
    intro ts
    cases ts with
    | nil => exact List.prefix_rfl
    | cons tok ts =>
      cases tok with
      | byte b => exact List.cons_prefix_cons.mpr ⟨rfl, ih ts⟩
      | eof | err => exact List.prefix_rfl

theorem setSrd_self {s : State} {j : Nat} {u : SrdUnit} (hu : s.srd[j]? = some u) : s.setSrd j u = s := by
  obtain ⟨hj, rfl⟩ := List.getElem?_eq_some_iff.mp hu
  simp [State.setSrd]

theorem setSrd_setSrd (s : State) (j : Nat) (u v : SrdUnit) : (s.setSrd j u).setSrd j v = s.setSrd j v := by
  simp [State.setSrd]

/-- A burst of SRD `j` is its unit's burst. -/
theorem burst_srdStep (k : Nat) : ∀ {s : State} {j : Nat} {u : SrdUnit}, s.srd[j]? = some u →
    burst (srdStep j) k s = .moves (s.setSrd j (srdUnitBurst k u)) := by
  induction k with
  | zero => intro s j u hu; rw [burst_zero, srdUnitBurst, setSrd_self hu]
  | succ k ih =>
    intro s j u hu
    cases hstep : srdUnitStep u with
    | none => rw [burst_waits _ _ _ (srdStep_of_unit_waits hu hstep), srdUnitBurst_of_no_step hstep, setSrd_self hu]
    | some v =>
      rw [burst_moves _ _ _ _ (srdStep_of_unit_moves hu hstep), ih (setSrd_units hu v).2.1, setSrd_setSrd]
      simp only [srdUnitBurst, hstep]

/-! ### Records are bursts -/

/-- Settles O24: the record's operands are what the block reads, so the record is the block's own burst. -/
theorem recordIsItsFsmSteps : Obligations.RecordIsItsFsmSteps := by
  unfold Obligations.RecordIsItsFsmSteps
  intro s a i h hturn hfetch
  rw [exec_of_record (isRecord_of_fetchRecord hfetch), hturn]
  refine congrArg (BlockStep.outcome s) ?_
  cases a with
  | enc =>
    rw [fetchRecord_enc] at hfetch
    split_ifs at hfetch with hat
    refine (encRecord_of_atRecord hat i _).trans ?_
    exact burst_congr (fun _ _ => encSupplies_step) (fun _ => encStepFrom_of_supplies) _ s
      (encSupplies_of_fetchRecord h hfetch)
  | dec =>
    rw [fetchRecord_dec] at hfetch
    split_ifs at hfetch with hat
    refine (decRecord_of_atRecord hat i _).trans ?_
    exact burst_congr (fun _ _ => decSupplies_step) (fun _ => decStepFrom_of_supplies) _ s
      (decSupplies_of_fetchRecord h hfetch)
  | srd j =>
    obtain ⟨u, hu, hat, hfirst⟩ := atRecord_of_fetchRecord hfetch
    have hbytes : encodeRecord i <+: availableBytes u.src :=
      (encodeRecord_prefix_of_firstRecord hfirst).trans (availableBytes_take_prefix _ _)
    have hburst : burst (srdStep j) (recordSteps (.srd j) i) s = _ := burst_srdStep _ hu
    simp only [runRecord, srdRecord, hu, hat, if_true, overlay_of_prefix _ _ hbytes]
    exact hburst.symm

end Sys2Proof.Proofs
end

section
/-! Runs of a block's steps: bursts put one after the other, and the items a port delivers in a row (R56). -/

namespace Sys2Proof.Proofs

open Sys2Proof Sys2Proof.Machine

/-! ### Items delivered in a row -/

/-- The port after its consumer has accepted a list of items. -/
def puts {α : Type} (p : Port α) (items : List α) : Port α :=
  { p with out := p.out ++ items, sink := p.sink.takeMany items.length }

@[simp] theorem takeMany_zero (x : Sink) : x.takeMany 0 = x := by
  cases x <;> rfl

theorem takeMany_takeMany (x : Sink) (m n : Nat) : (x.takeMany m).takeMany n = x.takeMany (m + n) := by
  cases x with
  | always => rfl
  | slots k => exact congrArg Sink.slots (Nat.sub_sub k m n)

/-- A consumer ready for `m + n` items is ready for `m`, and then for `n`. -/
theorem readyFor_add (x : Sink) (m n : Nat) :
    x.readyFor (m + n) = true ↔ x.readyFor m = true ∧ (x.takeMany m).readyFor n = true := by
  cases x with
  | always => simp
  | slots k => simp [Sink.readyFor, Sink.takeMany]; omega

theorem ready_iff_readyFor (x : Sink) : x.ready = true ↔ x.readyFor 1 = true := by
  cases x with
  | always => simp
  | slots k => simp [Sink.readyFor, Sink.ready]; omega

theorem take_eq_takeMany (x : Sink) : x.take = x.takeMany 1 := by
  cases x <;> rfl

section Puts

variable {α : Type} (p : Port α)

@[simp] theorem puts_nil : puts p [] = p := by simp [puts]

@[simp] theorem puts_puts (as bs : List α) : puts (puts p as) bs = puts p (as ++ bs) := by
  simp [puts, takeMany_takeMany]

/-- The consumer is ready for a list of items in two parts. -/
theorem readyFor_puts {p : Port α} {as : List α} {n : Nat} (h : p.sink.readyFor (as.length + n) = true) :
    p.sink.readyFor as.length = true ∧ (puts p as).sink.readyFor n = true :=
  (readyFor_add _ _ _).mp h

theorem commit_emit {p : Port α} (hready : p.sink.readyFor 1 = true) (a : α) :
    p.commit (some a) none = some (puts p [a]) := by
  rw [Port.commit_some p a none ((ready_iff_readyFor _).mpr hready)]
  simp [puts, take_eq_takeMany]

theorem commit_silent : p.commit none none = some p := by
  simp [Port.commit_none]

end Puts

/-! ### Bursts in a row -/

theorem burst_one {f : State → BlockStep} {s t : State} (h : f s = .moves t) : burst f 1 s = .moves t :=
  burst_moves f 0 s t h

/-- Two runs one after the other. -/
theorem burst_trans {f : State → BlockStep} {m n : Nat} {s t u : State} (hst : burst f m s = .moves t)
    (htu : burst f n t = .moves u) : burst f (m + n) s = .moves u :=
  (burst_add f m n s t hst).trans htu

/-- A step and then a run. -/
theorem burst_cons {f : State → BlockStep} {n : Nat} {s t u : State} (hst : f s = .moves t)
    (htu : burst f n t = .moves u) : burst f (n + 1) s = .moves u :=
  (burst_moves f n s t hst).trans htu

/-- A run that has come to a state without a step is the run of every greater length. -/
theorem burst_of_waits {f : State → BlockStep} {m n : Nat} {s t : State} (hst : burst f m s = .moves t)
    (hwaits : f t = .waits) (hmn : m ≤ n) : burst f n s = .moves t := by
  obtain ⟨k, rfl⟩ := Nat.exists_eq_add_of_le hmn
  exact (burst_add f m k s t hst).trans (burst_waits f k t hwaits)

/-! ### Counters -/

theorem ofNat_of_toNat {n m : Nat} {k : BitVec n} (h : k.toNat = m) : BitVec.ofNat n m = k := by
  rw [← h, BitVec.ofNat_toNat, BitVec.setWidth_eq]

end Sys2Proof.Proofs
end

section
/-! ENC encodes a record (R120-R122): the runs of its FSM, state by state, from the words it reads. -/

namespace Sys2Proof.Proofs

open Sys2Proof Sys2Proof.Machine

/-- The state with ENC's registers and port replaced. -/
def encAt (s : State) (e : Enc) (q : Port Byte) : State := { s with enc := e, encPort := q }

theorem encAt_self (s : State) : encAt s s.enc s.encPort = s := rfl

section EncRuns

variable {supply : Nat → Option Word} {s : State} {e : Enc} {q : Port Byte}

theorem commitEnc_emit {r : Enc} {b : Byte} (hready : q.sink.readyFor 1 = true) :
    (encAt s e q).commitEnc { regs := r, emit := some b, resp := none } = .moves (encAt s r (puts q [b])) := by
  have hcommit : (encAt s e q).encPort.commit (some b) none = some (puts q [b]) := commit_emit hready b
  simp only [State.commitEnc, hcommit]
  rfl

theorem commitEnc_silent {r : Enc} :
    (encAt s e q).commitEnc { regs := r, emit := none, resp := none } = .moves (encAt s r q) := by
  have hcommit : (encAt s e q).encPort.commit none none = some q := commit_silent q
  simp only [State.commitEnc, hcommit]
  rfl

/-- What ENC reads depends on its registers by the base alone. -/
theorem encWord_encAt (hbase : e.base = s.enc.base) (i : Nat) :
    encWord supply (encAt s e q) i = encWord supply s i := by
  have hread := memRead_congr s (encAt s e q) rfl rfl
  have hbase' : (encAt s e q).enc.base = s.enc.base := hbase
  simp only [encWord, memReadWord, hread, hbase']

theorem encByte_encAt (hbase : e.base = s.enc.base) (i k : Nat) :
    encByte supply (encAt s e q) i k = encByte supply s i k := by
  have hread := memRead_congr s (encAt s e q) rfl rfl
  have hbase' : (encAt s e q).enc.base = s.enc.base := hbase
  simp only [encByte, memReadByte, hread, hbase']

/-- ENC reads the words `ws` from index `i` on, whole and byte by byte. -/
def EncReads (supply : Nat → Option Word) (s : State) : Nat → List Word → Prop
  | _, [] => True
  | i, w :: ws => (encWord supply s i = .ok w ∧ ∀ k, k < 8 → encByte supply s i k = .ok (lane w k)) ∧
      EncReads supply s (i + 1) ws

theorem encReads_append (vs ws : List Word) : ∀ i, EncReads supply s i (vs ++ ws) ↔
    EncReads supply s i vs ∧ EncReads supply s (i + vs.length) ws := by
  induction vs with
  | nil => intro i; simp [EncReads]
  | cons v vs ih =>
    intro i
    have hindex : i + (v :: vs).length = i + 1 + vs.length := by rw [List.length_cons]; omega
    simp only [List.cons_append, EncReads, ih, hindex, and_assoc]

theorem encReads_of_getElem (ws : List Word) : ∀ {i : Nat}, (∀ j, ∀ h : j < ws.length,
    encWord supply s (i + j) = .ok ws[j] ∧ ∀ k, k < 8 → encByte supply s (i + j) k = .ok (lane ws[j] k)) →
    EncReads supply s i ws := by
  induction ws with
  | nil => exact fun _ => trivial
  | cons w ws ih =>
    intro i h
    refine ⟨h 0 (Nat.succ_pos _), ih fun j hj => ?_⟩
    have hindex : i + 1 + j = i + (j + 1) := by omega
    rw [hindex]
    exact h (j + 1) (Nat.succ_lt_succ hj)

/-! ### Fetch and tag (R106, R107) -/

theorem encStep_fetch {w : Word} (hst : e.st = .fetch) (hcur : e.cur < e.nw) (hbase : e.base = s.enc.base)
    (hread : encWord supply s e.cur = .ok w) :
    encStepFrom supply (encAt s e q) =
      .moves (encAt s { e with W := w, T := tagGen w, cur := e.cur + 1, st := .tagOut } q) := by
  have hst' : (encAt s e q).enc.st = .fetch := hst
  have hcur' : ¬ (encAt s e q).enc.cur = (encAt s e q).enc.nw := hcur.ne
  have hread' : encWord supply (encAt s e q) (encAt s e q).enc.cur = .ok w :=
    (encWord_encAt hbase _).trans hread
  simp only [encStepFrom, hst', if_neg hcur', hread', ofRead_ok]
  exact commitEnc_silent

theorem encStep_tagOut (hst : e.st = .tagOut) (hready : q.sink.readyFor 1 = true) :
    encStepFrom supply (encAt s e q) = .moves (encAt s (encTagOut e).regs (puts q [e.T])) := by
  have hst' : (encAt s e q).enc.st = .tagOut := hst
  simp only [encStepFrom, hst']
  exact commitEnc_emit hready

/-! ### A SPARSE word (R108, R120) -/

theorem encStep_sparse (hst : e.st = .sparse) (hready : q.sink.readyFor 1 = true) :
    encStepFrom supply (encAt s e q) =
      .moves (encAt s (encSparse e).regs (puts q [mux e.W e.T e.k.toNat])) := by
  have hst' : (encAt s e q).enc.st = .sparse := hst
  simp only [encStepFrom, hst']
  exact commitEnc_emit hready

/-- The nonzero bytes from the `k`-th on. -/
theorem drop_compact {w : Word} {m : Nat} (hm : m < popCount (tagGen w)) :
    (compact w).drop m = mux w (tagGen w) m :: (compact w).drop (m + 1) := by
  rw [List.drop_eq_getElem_cons (by simpa using hm)]
  simp [compact, mux, hm]

/-- E_SPARSE emits the nonzero bytes from the `k`-th on, one a step. -/
theorem encRuns_sparse (r : Nat) : ∀ {e : Enc} {q : Port Byte}, e.st = .sparse → e.T = tagGen e.W →
    popCount (tagGen e.W) < 8 → e.k.toNat + (r + 1) = popCount (tagGen e.W) → q.sink.readyFor (r + 1) = true →
    burst (encStepFrom supply) (r + 1) (encAt s e q) =
      .moves (encAt s { e with k := BitVec.ofNat 3 (popCount (tagGen e.W) - 1), st := .fetch }
        (puts q ((compact e.W).drop e.k.toNat))) := by
  induction r with
  | zero =>
    intro e q hst htag hcount hk hready
    have hlast : e.k.toNat + 1 = popCount e.T := by rw [htag]; exact hk
    have hkeep : BitVec.ofNat 3 (popCount (tagGen e.W) - 1) = e.k := ofNat_of_toNat (by omega)
    have hend : (compact e.W).drop (e.k.toNat + 1) = [] := List.drop_eq_nil_of_le (by simp; omega)
    have hstep := encStep_sparse (supply := supply) (s := s) hst hready
    simp only [encSparse, hlast, if_true] at hstep
    rw [drop_compact (by omega), hend, hkeep, ← htag]
    exact burst_one hstep
  | succ r ih =>
    intro e q hst htag hcount hk hready
    have hmore : ¬ e.k.toNat + 1 = popCount e.T := by rw [htag]; omega
    have hnext : (e.k + 1).toNat = e.k.toNat + 1 := toNat_succ_of_lt (by omega)
    obtain ⟨hone, hrest⟩ := readyFor_puts (as := [mux e.W e.T e.k.toNat]) (n := r + 1) (by rwa [Nat.add_comm] at hready)
    have hstep := encStep_sparse (supply := supply) (s := s) hst hone
    simp only [encSparse, hmore, if_false] at hstep
    have hrun := ih (e := { e with k := e.k + 1 }) hst htag hcount
      (by show (e.k + 1).toNat + (r + 1) = popCount (tagGen e.W); omega) hrest
    refine (burst_cons hstep hrun).trans ?_
    dsimp only
    rw [puts_puts, List.singleton_append, hnext, drop_compact (m := e.k.toNat) (by omega), htag]

/-- R120: ENC encodes a word with tag `01..FE`. -/
theorem encRuns_sparseRecord {w : Word} (h0 : tagGen w ≠ 0x00#8) (hF : tagGen w ≠ 0xFF#8) (hst : e.st = .fetch)
    (hcur : e.cur < e.nw) (hbase : e.base = s.enc.base) (hread : encWord supply s e.cur = .ok w)
    (hready : q.sink.readyFor (1 + popCount (tagGen w)) = true) :
    burst (encStepFrom supply) (encSparseSteps (tagGen w)) (encAt s e q) =
      .moves (encAt s { e with W := w, T := tagGen w, k := BitVec.ofNat 3 (popCount (tagGen w) - 1),
                               cur := e.cur + 1, st := .fetch } (puts q (tagGen w :: compact w))) := by
  have hpos := popCount_pos h0
  obtain ⟨r, hr⟩ : ∃ r, popCount (tagGen w) = r + 1 := ⟨popCount (tagGen w) - 1, by omega⟩
  obtain ⟨hone, hrest⟩ := readyFor_puts (as := [tagGen w]) hready
  have hfetch := encStep_fetch (q := q) hst hcur hbase hread
  have htag := encStep_tagOut (supply := supply) (s := s)
    (e := { e with W := w, T := tagGen w, cur := e.cur + 1, st := .tagOut }) rfl hone
  simp only [encTagOut, h0, hF, if_false] at htag
  have hrun := encRuns_sparse (supply := supply) (s := s) r
    (e := { e with W := w, T := tagGen w, k := 0, cur := e.cur + 1, st := .sparse }) rfl rfl (popCount_lt_eight hF)
    (by show (0 : BitVec 3).toNat + (r + 1) = popCount (tagGen w); rw [hr]; exact Nat.zero_add _) (hr ▸ hrest)
  have hsteps : encSparseSteps (tagGen w) = r + 1 + 1 + 1 := by rw [encSparseSteps, hr]; omega
  rw [hsteps, burst_cons hfetch (burst_cons htag hrun), puts_puts]
  rfl

/-! ### A run of zero words (R109, R121) -/

/-- Where a run scan ends at word index `i`: the count is at its cap, the input ends, or the word there fails the test. -/
def RunEnds (supply : Nat → Option Word) (s : State) (test : Word → Bool) (nw count i : Nat) : Prop :=
  count = Config.runMax ∨ i = nw ∨ ∃ v, encWord supply s i = .ok v ∧ test v = false

theorem isZeroWord_zero : isZeroWord 0 = true := (isZeroWord_iff 0).mpr rfl

theorem mayScan_iff_lt (e : Enc) (i : Nat) : e.mayScan i = true ↔ i < e.nw ∧ e.cnt.toNat < 255 := by
  rw [Enc.mayScan, Bool.and_eq_true, decide_eq_true_iff, decide_eq_true_iff]
  rfl

theorem encZscan_zero (e : Enc) :
    encZscan e (some 0) = { regs := { e with cnt := e.cnt + 1, cur := e.cur + 1 }, emit := none, resp := none } := by
  rw [encZscan, Option.any_some, isZeroWord_zero]
  rfl

theorem encStepFrom_zscan {s : State} (hst : s.enc.st = .zscan) (supply : Nat → Option Word) :
    encStepFrom supply s =
      if s.enc.mayScan s.enc.cur then
        .ofRead (encWord supply s s.enc.cur) fun v => s.commitEnc (encZscan s.enc (some v))
      else s.commitEnc (encZscan s.enc none) := by
  simp only [encStepFrom, hst]

/-- A step of a scan at a word that passes the test counts it. -/
theorem encStep_zscan_word (hst : e.st = .zscan) (hbase : e.base = s.enc.base) (hcur : e.cur < e.nw)
    (hcnt : e.cnt.toNat < 255) (hread : encWord supply s e.cur = .ok 0) :
    encStepFrom supply (encAt s e q) = .moves (encAt s { e with cnt := e.cnt + 1, cur := e.cur + 1 } q) := by
  have hst' : (encAt s e q).enc.st = .zscan := hst
  have hmay : (encAt s e q).enc.mayScan (encAt s e q).enc.cur = true := (mayScan_iff_lt _ _).mpr ⟨hcur, hcnt⟩
  have hread' : encWord supply (encAt s e q) (encAt s e q).enc.cur = .ok 0 := (encWord_encAt hbase _).trans hread
  rw [encStepFrom_zscan hst', if_pos hmay, hread', ofRead_ok, encZscan_zero]
  exact commitEnc_silent

/-- A step of a scan where the run ends emits the count. -/
theorem encStep_zscan_end (hst : e.st = .zscan) (hbase : e.base = s.enc.base) (hready : q.sink.readyFor 1 = true)
    (hend : RunEnds supply s isZeroWord e.nw e.cnt.toNat e.cur) :
    encStepFrom supply (encAt s e q) = .moves (encAt s { e with st := .fetch } (puts q [e.cnt])) := by
  have hst' : (encAt s e q).enc.st = .zscan := hst
  have hclose : (encAt s e q).commitEnc (encZscan (encAt s e q).enc none) =
      .moves (encAt s { e with st := .fetch } (puts q [e.cnt])) := commitEnc_emit hready
  rw [encStepFrom_zscan hst']
  split
  case isFalse => exact hclose
  case isTrue hmay =>
    have hmay' : e.cur < e.nw ∧ e.cnt.toNat < 255 := (mayScan_iff_lt _ _).mp hmay
    rcases hend with hcap | hinput | ⟨v, hread, hv⟩
    · exact absurd hcap hmay'.2.ne
    · exact absurd hinput hmay'.1.ne
    · have hread' : encWord supply (encAt s e q) (encAt s e q).enc.cur = .ok v := (encWord_encAt hbase _).trans hread
      have hnonzero : v ≠ 0 := fun hzero => by
        rw [hzero, isZeroWord_zero] at hv
        cases hv
      rw [hread', ofRead_ok, encZscan_of_nonzero _ hnonzero]
      exact hclose

/-- E_ZSCAN counts the zero words of a run and emits the count where it ends. -/
theorem encRuns_zscan (n : Nat) : ∀ {e : Enc}, e.st = .zscan → e.base = s.enc.base → e.cnt.toNat + n ≤ 255 →
    e.cur + n ≤ e.nw → EncReads supply s e.cur (List.replicate n 0) →
    RunEnds supply s isZeroWord e.nw (e.cnt.toNat + n) (e.cur + n) → q.sink.readyFor 1 = true →
    burst (encStepFrom supply) (n + 1) (encAt s e q) =
      .moves (encAt s { e with cnt := BitVec.ofNat 8 (e.cnt.toNat + n), cur := e.cur + n, st := .fetch }
        (puts q [BitVec.ofNat 8 (e.cnt.toNat + n)])) := by
  induction n with
  | zero =>
    intro e hst hbase _ _ _ hend hready
    simp only [Nat.add_zero, ofNat_of_toNat (k := e.cnt) rfl] at hend ⊢
    exact burst_one (encStep_zscan_end hst hbase hready hend)
  | succ n ih =>
    intro e hst hbase hcnt hcur hwords hend hready
    have hnext : (e.cnt + 1).toNat = e.cnt.toNat + 1 := toNat_succ_of_lt (by omega)
    have hcount : (e.cnt + 1).toNat + n = e.cnt.toNat + (n + 1) := by omega
    have hindex : e.cur + 1 + n = e.cur + (n + 1) := by omega
    have hstep := encStep_zscan_word (q := q) hst hbase (by omega) (by omega) hwords.1.1
    have hrun := ih (e := { e with cnt := e.cnt + 1, cur := e.cur + 1 }) hst hbase
      (by dsimp only; omega) (by dsimp only; omega) hwords.2 (by dsimp only; rwa [hcount, hindex]) hready
    dsimp only at hrun
    rw [hcount, hindex] at hrun
    exact burst_cons hstep hrun

/-- R121: ENC encodes a run of `n + 1` zero words. -/
theorem encRuns_zrunRecord {n : Byte} (hst : e.st = .fetch) (hbase : e.base = s.enc.base)
    (hcur : e.cur + (n.toNat + 1) ≤ e.nw) (hwords : EncReads supply s e.cur (List.replicate (n.toNat + 1) 0))
    (hend : RunEnds supply s isZeroWord e.nw n.toNat (e.cur + (n.toNat + 1))) (hready : q.sink.readyFor 2 = true) :
    burst (encStepFrom supply) (encZrunSteps n) (encAt s e q) =
      .moves (encAt s { e with W := 0, T := 0, cnt := n, cur := e.cur + (n.toNat + 1), st := .fetch }
        (puts q [0x00#8, n])) := by
  have hn := n.isLt
  have htag0 : tagGen 0 = 0x00#8 := by decide
  have hindex : e.cur + 1 + n.toNat = e.cur + (n.toNat + 1) := by omega
  obtain ⟨hone, hrest⟩ := readyFor_puts (as := [0x00#8]) (n := 1) hready
  have hfetch := encStep_fetch (q := q) hst (by omega) hbase hwords.1.1
  rw [htag0] at hfetch
  have htag := encStep_tagOut (supply := supply) (s := s)
    (e := { e with W := 0, T := 0x00#8, cur := e.cur + 1, st := .tagOut }) rfl hone
  simp only [encTagOut, if_true] at htag
  have hzero : (0 : BitVec 8).toNat + n.toNat = n.toNat := Nat.zero_add _
  have hrun := encRuns_zscan (supply := supply) (s := s) n.toNat
    (e := { e with W := 0, T := 0x00#8, cnt := 0, cur := e.cur + 1, st := .zscan }) rfl hbase
    (by rw [hzero]; omega) (by dsimp only; omega) hwords.2
    (by dsimp only; rwa [hzero, hindex]) hrest
  dsimp only at hrun
  rw [hzero, hindex, ofNat_of_toNat rfl, puts_puts] at hrun
  exact (congrArg (burst _ · _) (Nat.add_comm 2 _)).trans (burst_cons hfetch (burst_cons htag hrun))

/-! ### A literal run (R110-R112, R122) -/

theorem drop_bytesOfWord (w : Word) {m : Nat} (hm : m < 8) :
    (bytesOfWord w).drop m = lane w m :: (bytesOfWord w).drop (m + 1) := by
  rw [List.drop_eq_getElem_cons (by simpa using hm)]
  simp [bytesOfWord]

theorem drop_bytesOfWord_eight (w : Word) : (bytesOfWord w).drop 8 = [] :=
  List.drop_eq_nil_of_le (length_bytesOfWord w).le

theorem encStep_seed (hst : e.st = .seed) (hready : q.sink.readyFor 1 = true) :
    encStepFrom supply (encAt s e q) = .moves (encAt s (encSeed e).regs (puts q [lane e.W e.k.toNat])) := by
  have hst' : (encAt s e q).enc.st = .seed := hst
  simp only [encStepFrom, hst']
  exact commitEnc_emit hready

/-- E_SEED emits the bytes of the word from the `k`-th on. -/
theorem encRuns_seed (r : Nat) : ∀ {e : Enc} {q : Port Byte}, e.st = .seed → e.k.toNat + (r + 1) = 8 →
    q.sink.readyFor (r + 1) = true →
    burst (encStepFrom supply) (r + 1) (encAt s e q) =
      .moves (encAt s { e with k := 7, cnt := 0, scan := e.cur, st := .lscan }
        (puts q ((bytesOfWord e.W).drop e.k.toNat))) := by
  induction r with
  | zero =>
    intro e q hst hk hready
    have hlast : e.k.toNat = 7 := by omega
    have hkeep : (7 : BitVec 3) = e.k := ofNat_of_toNat hlast
    have hstep := encStep_seed (supply := supply) (s := s) hst hready
    simp only [encSeed, hlast, if_true] at hstep
    rw [hlast, drop_bytesOfWord _ (by decide), drop_bytesOfWord_eight, hkeep]
    exact burst_one hstep
  | succ r ih =>
    intro e q hst hk hready
    have hmore : ¬ e.k.toNat = 7 := by omega
    have hnext : (e.k + 1).toNat = e.k.toNat + 1 := toNat_succ_of_lt (by omega)
    obtain ⟨hone, hrest⟩ := readyFor_puts (as := [lane e.W e.k.toNat]) (n := r + 1) (by rwa [Nat.add_comm] at hready)
    have hstep := encStep_seed (supply := supply) (s := s) hst hone
    simp only [encSeed, hmore, if_false] at hstep
    have hrun := ih (e := { e with k := e.k + 1 }) hst (by dsimp only; omega) hrest
    dsimp only at hrun
    rw [puts_puts, List.singleton_append, hnext, ← drop_bytesOfWord _ (by omega)] at hrun
    exact burst_cons hstep hrun

theorem encLscan_word (e : Enc) {v : Word} (hv : continuesLiteral v = true) :
    encLscan e (some v) = { regs := { e with cnt := e.cnt + 1, scan := e.scan + 1 }, emit := none, resp := none } := by
  rw [encLscan, Option.any_some, hv]
  rfl

theorem encStepFrom_lscan {s : State} (hst : s.enc.st = .lscan) (supply : Nat → Option Word) :
    encStepFrom supply s =
      if s.enc.mayScan s.enc.scan then
        .ofRead (encWord supply s s.enc.scan) fun v => s.commitEnc (encLscan s.enc (some v))
      else s.commitEnc (encLscan s.enc none) := by
  simp only [encStepFrom, hst]

theorem encStep_lscan_word {v : Word} (hst : e.st = .lscan) (hbase : e.base = s.enc.base) (hscan : e.scan < e.nw)
    (hcnt : e.cnt.toNat < 255) (hread : encWord supply s e.scan = .ok v) (hv : continuesLiteral v = true) :
    encStepFrom supply (encAt s e q) = .moves (encAt s { e with cnt := e.cnt + 1, scan := e.scan + 1 } q) := by
  have hst' : (encAt s e q).enc.st = .lscan := hst
  have hmay : (encAt s e q).enc.mayScan (encAt s e q).enc.scan = true := (mayScan_iff_lt _ _).mpr ⟨hscan, hcnt⟩
  have hread' : encWord supply (encAt s e q) (encAt s e q).enc.scan = .ok v := (encWord_encAt hbase _).trans hread
  rw [encStepFrom_lscan hst', if_pos hmay, hread', ofRead_ok, encLscan_word _ hv]
  exact commitEnc_silent

theorem encStep_lscan_end (hst : e.st = .lscan) (hbase : e.base = s.enc.base) (hready : q.sink.readyFor 1 = true)
    (hend : RunEnds supply s continuesLiteral e.nw e.cnt.toNat e.scan) :
    encStepFrom supply (encAt s e q) =
      .moves (encAt s { e with k := 0, st := if e.cnt = 0 then .fetch else .lcopy } (puts q [e.cnt])) := by
  have hst' : (encAt s e q).enc.st = .lscan := hst
  have hclose : (encAt s e q).commitEnc (encLscan (encAt s e q).enc none) =
      .moves (encAt s { e with k := 0, st := if e.cnt = 0 then .fetch else .lcopy } (puts q [e.cnt])) :=
    commitEnc_emit hready
  rw [encStepFrom_lscan hst']
  split
  case isFalse => exact hclose
  case isTrue hmay =>
    have hmay' : e.scan < e.nw ∧ e.cnt.toNat < 255 := (mayScan_iff_lt _ _).mp hmay
    rcases hend with hcap | hinput | ⟨v, hread, hv⟩
    · exact absurd hcap hmay'.2.ne
    · exact absurd hinput hmay'.1.ne
    · have hread' : encWord supply (encAt s e q) (encAt s e q).enc.scan = .ok v := (encWord_encAt hbase _).trans hread
      rw [hread', ofRead_ok, encLscan_of_ending _ hv]
      exact hclose

/-- E_LSCAN counts the words of a literal run and emits the count where it ends. -/
theorem encRuns_lscan (raw : List Word) : ∀ {e : Enc}, e.st = .lscan → e.base = s.enc.base →
    e.cnt.toNat + raw.length ≤ 255 → e.scan + raw.length ≤ e.nw → (∀ v ∈ raw, continuesLiteral v = true) →
    EncReads supply s e.scan raw →
    RunEnds supply s continuesLiteral e.nw (e.cnt.toNat + raw.length) (e.scan + raw.length) →
    q.sink.readyFor 1 = true →
    burst (encStepFrom supply) (raw.length + 1) (encAt s e q) =
      .moves (encAt s { e with k := 0, cnt := BitVec.ofNat 8 (e.cnt.toNat + raw.length), scan := e.scan + raw.length,
                               st := if e.cnt.toNat + raw.length = 0 then .fetch else .lcopy }
        (puts q [BitVec.ofNat 8 (e.cnt.toNat + raw.length)])) := by
  induction raw with
  | nil =>
    intro e hst hbase _ _ _ _ hend hready
    have hzero : e.cnt = 0 ↔ e.cnt.toNat = 0 := BitVec.toNat_inj.symm
    simp only [List.length_nil, Nat.add_zero, ofNat_of_toNat (k := e.cnt) rfl, ← hzero]
    exact burst_one (encStep_lscan_end hst hbase hready hend)
  | cons v raw ih =>
    intro e hst hbase hcnt hscan hpass hwords hend hready
    simp only [List.length_cons] at hcnt hscan hend ⊢
    obtain ⟨hv, hraw⟩ := List.forall_mem_cons.mp hpass
    have hnext : (e.cnt + 1).toNat = e.cnt.toNat + 1 := toNat_succ_of_lt (by omega)
    have hcount : (e.cnt + 1).toNat + raw.length = e.cnt.toNat + (raw.length + 1) := by omega
    have hindex : e.scan + 1 + raw.length = e.scan + (raw.length + 1) := by omega
    have hstep := encStep_lscan_word (q := q) hst hbase (by omega) (by omega) hwords.1.1 hv
    have hrun := ih (e := { e with cnt := e.cnt + 1, scan := e.scan + 1 }) hst hbase
      (by dsimp only; omega) (by dsimp only; omega) hraw hwords.2
      (by dsimp only; rwa [hcount, hindex]) hready
    dsimp only at hrun
    rw [hcount, hindex] at hrun
    exact burst_cons hstep hrun

theorem encStep_lcopy {b : Byte} (hst : e.st = .lcopy) (hbase : e.base = s.enc.base)
    (hread : encByte supply s e.cur e.k.toNat = .ok b) (hready : q.sink.readyFor 1 = true) :
    encStepFrom supply (encAt s e q) = .moves (encAt s (encLcopy e b).regs (puts q [b])) := by
  have hst' : (encAt s e q).enc.st = .lcopy := hst
  have hread' : encByte supply (encAt s e q) (encAt s e q).enc.cur (encAt s e q).enc.k.toNat = .ok b :=
    (encByte_encAt hbase _ _).trans hread
  simp only [encStepFrom, hst', hread', ofRead_ok]
  exact commitEnc_emit hready

/-- E_LCOPY copies the bytes of a word from the `k`-th on. -/
theorem encRuns_lcopy_word {w : Word} (r : Nat) : ∀ {e : Enc} {q : Port Byte}, e.st = .lcopy → e.base = s.enc.base →
    (∀ k, k < 8 → encByte supply s e.cur k = .ok (lane w k)) → e.k.toNat + (r + 1) = 8 →
    q.sink.readyFor (r + 1) = true →
    burst (encStepFrom supply) (r + 1) (encAt s e q) =
      .moves (encAt s { e with k := 0, cur := e.cur + 1, cnt := e.cnt - 1,
                               st := if e.cnt = 1 then .fetch else .lcopy }
        (puts q ((bytesOfWord w).drop e.k.toNat))) := by
  induction r with
  | zero =>
    intro e q hst hbase hread hk hready
    have hlast : e.k.toNat = 7 := by omega
    have hstep := encStep_lcopy hst hbase (hread e.k.toNat e.k.isLt) hready
    simp only [encLcopy, hlast, if_true] at hstep
    rw [hlast, drop_bytesOfWord _ (by decide), drop_bytesOfWord_eight]
    exact burst_one hstep
  | succ r ih =>
    intro e q hst hbase hread hk hready
    have hmore : ¬ e.k.toNat = 7 := by omega
    have hnext : (e.k + 1).toNat = e.k.toNat + 1 := toNat_succ_of_lt (by omega)
    obtain ⟨hone, hrest⟩ := readyFor_puts (as := [lane w e.k.toNat]) (n := r + 1) (by rwa [Nat.add_comm] at hready)
    have hstep := encStep_lcopy hst hbase (hread e.k.toNat e.k.isLt) hone
    simp only [encLcopy, hmore, if_false] at hstep
    have hrun := ih (e := { e with k := e.k + 1 }) hst hbase hread (by dsimp only; omega) hrest
    dsimp only at hrun
    rw [puts_puts, List.singleton_append, hnext, ← drop_bytesOfWord _ (by omega)] at hrun
    exact burst_cons hstep hrun

/-- E_LCOPY copies the counted words. -/
theorem encRuns_lcopy (raw : List Word) : ∀ {e : Enc} {q : Port Byte}, e.st = .lcopy → e.base = s.enc.base →
    e.k = 0 → raw ≠ [] → e.cnt.toNat = raw.length →
    EncReads supply s e.cur raw → q.sink.readyFor (8 * raw.length) = true →
    burst (encStepFrom supply) (8 * raw.length) (encAt s e q) =
      .moves (encAt s { e with k := 0, cur := e.cur + raw.length, cnt := 0, st := .fetch }
        (puts q (bytesOfWords raw))) := by
  induction raw with
  | nil => exact fun _ _ _ hne => absurd rfl hne
  | cons w raw ih =>
    intro e q hst hbase hk _ hcnt hread hready
    simp only [List.length_cons] at hcnt hready ⊢
    have hsteps : 8 * (raw.length + 1) = 8 + 8 * raw.length := by omega
    have hk0 : e.k.toNat = 0 := by rw [hk]; rfl
    rw [hsteps] at hready ⊢
    obtain ⟨hone, hrest⟩ := readyFor_puts (as := bytesOfWord w) (n := 8 * raw.length) (by simpa using hready)
    have hfirst := encRuns_lcopy_word 7 hst hbase hread.1.2 (by omega) (by simpa using hone)
    rw [hk0, List.drop_zero] at hfirst
    have hpred : (e.cnt - 1).toNat = e.cnt.toNat - 1 := toNat_pred_of_pos (by omega)
    cases raw with
    | nil =>
      have hone' : e.cnt = 1 := (eq_one_iff_toNat (by decide)).mpr hcnt
      have hzero : e.cnt - 1 = 0 := by rw [hone']; rfl
      rw [if_pos hone', hzero] at hfirst
      simpa using hfirst
    | cons v raw =>
      have hmore : ¬ e.cnt = 1 := mt (eq_one_iff_toNat (by decide)).mp (by rw [hcnt]; simp)
      rw [if_neg hmore] at hfirst
      have hrun := ih (e := { e with k := 0, cur := e.cur + 1, cnt := e.cnt - 1, st := .lcopy }) rfl hbase rfl
        (List.cons_ne_nil _ _) (by dsimp only; omega) hread.2 hrest
      have hindex : e.cur + 1 + (v :: raw).length = e.cur + ((v :: raw).length + 1) := by omega
      dsimp only at hrun
      rw [puts_puts, ← bytesOfWords_cons, hindex] at hrun
      exact burst_trans hfirst hrun

/-- R122: ENC encodes a literal run. -/
theorem encRuns_lrunRecord {seed : Word} {raw : List Word} (hst : e.st = .fetch) (hbase : e.base = s.enc.base)
    (hseed : tagGen seed = 0xFF#8) (hpass : ∀ v ∈ raw, continuesLiteral v = true) (hraw : raw.length ≤ 255)
    (hcur : e.cur + (raw.length + 1) ≤ e.nw) (hwords : EncReads supply s e.cur (seed :: raw))
    (hend : RunEnds supply s continuesLiteral e.nw raw.length (e.cur + (raw.length + 1)))
    (hready : q.sink.readyFor (10 + 8 * raw.length) = true) :
    burst (encStepFrom supply) (encLrunSteps raw.length) (encAt s e q) =
      .moves (encAt s { e with W := seed, T := 0xFF#8, k := 0, cnt := 0, scan := e.cur + (raw.length + 1),
                               cur := e.cur + (raw.length + 1), st := .fetch }
        (puts q (0xFF#8 :: bytesOfWord seed ++ BitVec.ofNat 8 raw.length :: bytesOfWords raw))) := by
  have hindex : e.cur + 1 + raw.length = e.cur + (raw.length + 1) := by omega
  obtain ⟨htagReady, hready⟩ := readyFor_puts (as := [0xFF#8]) (n := 9 + 8 * raw.length)
    (by rwa [show [0xFF#8].length + (9 + 8 * raw.length) = 10 + 8 * raw.length by simp; omega])
  obtain ⟨hseedReady, hready⟩ := readyFor_puts (as := bytesOfWord seed) (n := 1 + 8 * raw.length)
    (by rwa [show (bytesOfWord seed).length + (1 + 8 * raw.length) = 9 + 8 * raw.length by simp; omega])
  obtain ⟨hcountReady, hcopyReady⟩ := readyFor_puts (as := [BitVec.ofNat 8 raw.length]) (n := 8 * raw.length) hready
  have hfetch := encStep_fetch (q := q) hst (by omega) hbase hwords.1.1
  rw [hseed] at hfetch
  have htag := encStep_tagOut (supply := supply) (s := s)
    (e := { e with W := seed, T := 0xFF#8, cur := e.cur + 1, st := .tagOut }) rfl htagReady
  simp only [encTagOut, if_true, show ¬ (0xFF#8 = 0x00#8) by decide, if_false] at htag
  have hseedRun := encRuns_seed (supply := supply) (s := s) 7
    (e := { e with W := seed, T := 0xFF#8, k := 0, cur := e.cur + 1, st := .seed }) rfl rfl (by simpa using hseedReady)
  have hzero : (0 : BitVec 8).toNat + raw.length = raw.length := Nat.zero_add _
  have hscan := encRuns_lscan (supply := supply) (s := s) raw
    (e := { e with W := seed, T := 0xFF#8, k := 7, cnt := 0, scan := e.cur + 1, cur := e.cur + 1, st := .lscan })
    rfl hbase (by rw [hzero]; exact hraw) (by dsimp only; omega) hpass hwords.2
    (by dsimp only; rwa [hzero, hindex]) hcountReady
  dsimp only at hscan
  rw [hzero, hindex] at hscan
  have hhead := burst_trans (burst_cons hfetch (burst_cons htag hseedRun)) hscan
  have hsteps : encLrunSteps raw.length = 7 + 1 + 1 + 1 + (raw.length + 1) + 8 * raw.length := by
    rw [encLrunSteps]
  rw [hsteps]
  cases raw with
  | nil => simpa using hhead
  | cons v raw =>
    rw [if_neg (by simp)] at hhead
    have hcnt : (BitVec.ofNat 8 (v :: raw).length).toNat = (v :: raw).length := Nat.mod_eq_of_lt (by omega)
    have hcopy := encRuns_lcopy (supply := supply) (s := s) (v :: raw)
      (e := { e with W := seed, T := 0xFF#8, k := 0, cnt := BitVec.ofNat 8 (v :: raw).length,
                     scan := e.cur + ((v :: raw).length + 1), cur := e.cur + 1, st := .lcopy })
      rfl hbase rfl (List.cons_ne_nil _ _) hcnt hwords.2 hcopyReady
    dsimp only at hcopy
    rw [hindex] at hcopy
    refine (burst_trans hhead hcopy).trans ?_
    simp

end EncRuns

end Sys2Proof.Proofs
end

section
/-! ENC's instruction rules (R120-R122), and ENC over a whole input (R113, R117): record by record, as `pack` goes. -/

namespace Sys2Proof.Proofs

open Sys2Proof Sys2Proof.Machine

/-! ### The operands as ENC's input -/

/-- The operands of a record are what ENC reads from its cursor on. -/
theorem encReads_encSupply (i : Instr) (s : State) : EncReads (encSupply i s) s s.enc.cur (recordWords i) :=
  encReads_of_getElem _ fun j hj => by
    have hsupply : encSupply i s (s.enc.cur + j) = some (recordWords i)[j] := by
      rw [encSupply, if_pos (Nat.le_add_right _ _), Nat.add_sub_cancel_left, List.getElem?_eq_getElem hj]
    simp [encWord, encByte, hsupply]

/-- Past the operands ENC reads the source buffer. -/
theorem encWord_past_operands (i : Instr) (s : State) {j : Nat} (hj : (recordWords i).length ≤ j) :
    encWord (encSupply i s) s (s.enc.cur + j) = memReadWord s (s.enc.base + 8 * (s.enc.cur + j)) := by
  have hsupply : encSupply i s (s.enc.cur + j) = none := by
    rw [encSupply, if_pos (Nat.le_add_right _ _), Nat.add_sub_cancel_left, List.getElem?_eq_none hj]
  simp only [encWord, hsupply]

theorem enc_atRecord {e : Enc} (hst : e.st = .fetch) (hcur : e.cur < e.nw) : e.atRecord = true := by
  simp [Enc.atRecord, hst, hcur]

/-- A record executed by ENC is a run of its FSM on the operands. -/
theorem exec_record_enc {i : Instr} {s t : State} (hrec : i.isRecord = true) (hturn : s.turn = .enc)
    (hst : s.enc.st = .fetch) (hcur : s.enc.cur < s.enc.nw)
    (hrun : burst (encStepFrom (encSupply i s)) (recordSteps .enc i) s = .moves t) : exec i s = .next t := by
  rw [exec_of_record hrec, hturn]
  simp only [runRecord, encRecord_of_atRecord (enc_atRecord hst hcur), hrun, BlockStep.outcome_moves]

/-- Settles O39: `encRuns_sparseRecord` on the word the operands place. -/
theorem encSparseEmitsTagAndBytes : Obligations.EncSparseEmitsTagAndBytes := by
  unfold Obligations.EncSparseEmitsTagAndBytes
  intro s w hturn hst hcur h0 hF hready
  have hreads := encReads_encSupply (.sparse (tagGen w) (compact w)) s
  rw [recordWords, place_compact] at hreads
  refine exec_record_enc rfl hturn hst hcur ?_
  have hrun := encRuns_sparseRecord (q := s.encPort) h0 hF hst hcur rfl hreads.1.1 hready
  rw [encAt_self] at hrun
  refine hrun.trans ?_
  simp [encAt, puts, Nat.add_comm]

theorem runEnds_of_operands {test : Word → Bool} {s : State} (i : Instr) {nw count n : Nat}
    (hn : n = (recordWords i).length)
    (hend : count = Config.runMax ∨ s.enc.cur + n = nw ∨
      ∃ v, memReadWord s (s.enc.base + 8 * (s.enc.cur + n)) = .ok v ∧ test v = false) :
    RunEnds (encSupply i s) s test nw count (s.enc.cur + n) := by
  rw [RunEnds, encWord_past_operands i s hn.ge]
  exact hend

/-- Settles O40: `encRuns_zrunRecord` on the zero words of the operand. -/
theorem encZrunEmitsCount : Obligations.EncZrunEmitsCount := by
  unfold Obligations.EncZrunEmitsCount
  intro s n hturn hst hcur hend hready
  have hreads := encReads_encSupply (.zrun n) s
  refine exec_record_enc rfl hturn hst (by omega) ?_
  have hend' : RunEnds (encSupply (.zrun n) s) s isZeroWord s.enc.nw n.toNat (s.enc.cur + (n.toNat + 1)) := by
    refine runEnds_of_operands _ (by simp [recordWords, zrunWords]) ?_
    refine hend.imp (congrArg BitVec.toNat) (.imp_right fun ⟨v, hread, hv⟩ => ⟨v, hread, ?_⟩)
    exact Bool.eq_false_iff.mpr (mt (isZeroWord_iff v).mp hv)
  have hrun := encRuns_zrunRecord (q := s.encPort) hst rfl hcur hreads hend' hready
  rwa [encAt_self] at hrun

/-- Settles O41: `encRuns_lrunRecord` on the words of the operands. -/
theorem encLrunEmitsWordsVerbatim : Obligations.EncLrunEmitsWordsVerbatim := by
  unfold Obligations.EncLrunEmitsWordsVerbatim
  intro s seed raw hturn hst hseed hpass hraw hcur hend hready
  refine exec_record_enc rfl hturn hst (by omega) ?_
  have hend' : RunEnds (encSupply (.lrun seed raw) s) s continuesLiteral s.enc.nw raw.length
      (s.enc.cur + (raw.length + 1)) := runEnds_of_operands _ rfl hend
  have hrun := encRuns_lrunRecord (q := s.encPort) hst rfl hseed hpass hraw hcur
    (encReads_encSupply (.lrun seed raw) s) hend' hready
  rw [encAt_self] at hrun
  refine hrun.trans ?_
  have hlength : (0xFF#8 :: bytesOfWord seed ++ BitVec.ofNat 8 raw.length :: bytesOfWords raw).length =
      10 + 8 * raw.length := length_encodeRecord_lrun seed raw
  rw [encAt, puts, hlength]

/-! ### A whole input (R100, R113, R117) -/

/-- A run ends at its cap, at the end of the words, or before a word that fails the test. -/
theorem runLength_ends (test : Word → Bool) (cap : Nat) (ws : List Word) :
    runLength test cap ws = cap ∨ runLength test cap ws = ws.length ∨
      ∃ v, ws[runLength test cap ws]? = some v ∧ test v = false := by
  induction cap, ws using runLength.induct test with
  | case1 ws => exact .inl rfl
  | case2 cap => exact .inr (.inl rfl)
  | case3 cap w ws hw ih =>
    rw [runLength, if_pos hw]
    exact ih.imp (congrArg (· + 1)) (.imp (congrArg (· + 1)) id)
  | case4 cap w ws hw =>
    rw [runLength, if_neg hw]
    exact .inr (.inr ⟨w, rfl, Bool.eq_false_iff.mpr hw⟩)

theorem encReads_getElem? {supply : Nat → Option Word} {s : State} {ws : List Word} : ∀ {i j : Nat} {v : Word},
    EncReads supply s i ws → ws[j]? = some v → encWord supply s (i + j) = .ok v := by
  induction ws with
  | nil => exact fun _ h => nomatch h
  | cons w ws ih =>
    intro i j v hreads hv
    cases j with
    | zero => cases hv; exact hreads.1.1
    | succ j =>
      have hindex : i + (j + 1) = i + 1 + j := by omega
      rw [hindex]
      exact ih hreads.2 hv

/-- Where ENC's scan of the words `ws` after a first word ends. -/
theorem runEnds_runLength {supply : Nat → Option Word} {s : State} {test : Word → Bool} {ws : List Word} {i nw : Nat}
    (hreads : EncReads supply s (i + 1) ws) (hnw : i + (ws.length + 1) = nw) :
    RunEnds supply s test nw (runLength test Config.runMax ws) (i + (runLength test Config.runMax ws + 1)) := by
  have hindex : i + (runLength test Config.runMax ws + 1) = i + 1 + runLength test Config.runMax ws := by omega
  refine (runLength_ends test Config.runMax ws).imp_right (.imp (fun hall => ?_) fun ⟨v, hget, hv⟩ => ⟨v, ?_, hv⟩)
  · rw [hall, hnw]
  · rw [hindex]
    exact encReads_getElem? hreads hget

/-- ENC has encoded the record `i`: back in E_FETCH past its words, its bytes delivered, in at most 11 steps a word. -/
def EncodesRecord (supply : Nat → Option Word) (s : State) (e : Enc) (q : Port Byte) (i : Instr) : Prop :=
  ∃ (n : Nat) (e' : Enc), burst (encStepFrom supply) n (encAt s e q) = .moves (encAt s e' (puts q (encodeRecord i))) ∧
    n ≤ 11 * (recordWords i).length ∧ e'.st = .fetch ∧ e'.base = e.base ∧ e'.nw = e.nw ∧
    e'.cur = e.cur + (recordWords i).length

/-- The next record of the words left is the one `pack` writes, and ENC encodes it. -/
theorem encodesRecord_next {supply : Nat → Option Word} {s : State} {e : Enc} {q : Port Byte} (w : Word)
    (ws : List Word) (hst : e.st = .fetch) (hbase : e.base = s.enc.base)
    (hreads : EncReads supply s e.cur (w :: ws)) (hnw : e.cur + (ws.length + 1) = e.nw) :
    ∃ i rest, PacksRecord (w :: ws) i rest ∧
      (q.sink.readyFor (encodeRecord i).length = true → EncodesRecord supply s e q i) := by
  by_cases h0 : tagGen w = 0x00#8
  · refine ⟨_, _, packsRecord_zrun ws h0, fun hready => ?_⟩
    have hle : zrunLength ws ≤ ws.length := runLength_le_length _ _ ws
    have hcap : zrunLength ws ≤ 255 := runLength_le_cap isZeroWord Config.runMax ws
    have hcount : (BitVec.ofNat 8 (zrunLength ws)).toNat = zrunLength ws := Nat.mod_eq_of_lt (by omega)
    have hwords := (packsRecord_zrun ws h0).words
    have hprefix := ((encReads_append _ _ _).mp (hwords ▸ hreads)).1
    have hend := runEnds_runLength (test := isZeroWord) hreads.2 hnw
    rw [← hcount] at hle
    refine ⟨_, _, encRuns_zrunRecord hst hbase (by omega) hprefix (by rw [hcount]; exact hend) hready, ?_, rfl, rfl,
      rfl, by simp [recordWords, zrunWords]⟩
    simp [encZrunSteps, recordWords, zrunWords]
    omega
  · by_cases hF : tagGen w = 0xFF#8
    · refine ⟨_, _, packsRecord_lrun ws hF, fun hready => ?_⟩
      have hle : lrunLength ws ≤ ws.length := runLength_le_length _ _ ws
      have hcap : lrunLength ws ≤ 255 := runLength_le_cap continuesLiteral Config.runMax ws
      have hlength := length_take_lrunLength ws
      have hwords := (packsRecord_lrun ws hF).words
      have hprefix := ((encReads_append _ _ _).mp (hwords ▸ hreads)).1
      have hend := runEnds_runLength (test := continuesLiteral) hreads.2 hnw
      rw [length_encodeRecord_lrun] at hready
      refine ⟨_, _, encRuns_lrunRecord hst hbase hF (forall_mem_take_runLength _ _ _) (by omega) (by omega) hprefix
        (by rw [hlength]; exact hend) hready, ?_, rfl, rfl, rfl, rfl⟩
      simp only [encLrunSteps, recordWords, List.length_cons]
      omega
    · refine ⟨_, _, packsRecord_sparse ws h0 hF, fun hready => ?_⟩
      have hcount := popCount_lt_eight hF
      rw [encodeRecord, List.length_cons, length_compact, Nat.add_comm] at hready
      refine ⟨_, _, encRuns_sparseRecord h0 hF hst (by omega) hbase hreads.1.1 hready, ?_, rfl, rfl, rfl, rfl⟩
      simp only [encSparseSteps, recordWords, List.length_singleton]
      omega

/-- ENC over the words that are left encodes what `pack` writes for them, in at most 11 steps a word. -/
theorem encRuns_pack {supply : Nat → Option Word} {s : State} (n : Nat) : ∀ {e : Enc} {q : Port Byte} {ws : List Word},
    ws.length ≤ n → e.st = .fetch → e.base = s.enc.base → EncReads supply s e.cur ws →
    e.cur + ws.length = e.nw → q.sink.readyFor (packFuel n ws).length = true →
    ∃ (k : Nat) (e' : Enc), burst (encStepFrom supply) k (encAt s e q) = .moves (encAt s e' (puts q (packFuel n ws))) ∧
      k ≤ 11 * ws.length ∧ e'.st = .fetch ∧ e'.cur = e'.nw := by
  induction n with
  | zero =>
    intro e q ws hlen hst _ _ hnw _
    cases List.length_eq_zero_iff.mp (Nat.le_zero.mp hlen)
    exact ⟨0, e, by simp [packFuel], Nat.zero_le _, hst, hnw⟩
  | succ n ih =>
    intro e q ws hlen hst hbase hreads hnw hready
    cases ws with
    | nil => exact ⟨0, e, by simp [packFuel], Nat.zero_le _, hst, hnw⟩
    | cons w ws =>
      obtain ⟨i, rest, hi, hencodes⟩ := encodesRecord_next (q := q) w ws hst hbase hreads hnw
      rw [hi.bytes] at hready ⊢
      rw [List.length_append] at hready
      obtain ⟨hfirst, hrest⟩ := readyFor_puts hready
      obtain ⟨k, e', hrun, hk, hst', hbase', hnw', hcur'⟩ := hencodes hfirst
      have hpos := length_recordWords_pos hi.isRecord
      have hlength : (w :: ws).length = (recordWords i).length + rest.length := by rw [hi.words, List.length_append]
      have hreads' := ((encReads_append _ _ _).mp (hi.words ▸ hreads)).2
      rw [← hcur'] at hreads'
      obtain ⟨k', e'', hrun', hk', hdone⟩ := ih (by omega) hst' (hbase'.trans hbase) hreads' (by omega) hrest
      refine ⟨k + k', e'', ?_, by omega, hdone⟩
      rw [burst_trans hrun hrun', puts_puts]

/-- The bytes of a word that is read whole are read one by one (R52, R53). -/
theorem memReadByte_of_memReadWord {s : State} {a : Nat} {w : Word} (h : memReadWord s a = .ok w) {k : Nat}
    (hk : k < 8) : memReadByte s (a + k) = .ok (lane w k) := by
  cases hread : memRead s a 8 with
  | error f => rw [memReadWord, hread] at h; cases h
  | ok bs =>
    rw [memReadWord, hread] at h
    cases h
    obtain ⟨hlen, hget⟩ := memRead_ok hread
    obtain ⟨hin, hbyte⟩ := hget k hk
    rw [List.getElem?_eq_getElem (by omega)] at hbyte
    have hone : memRead s (a + k) 1 = .ok [bs[k]] :=
      (memRead_succ_ok_iff s (a + k) 0 _).mpr ⟨hin, _, [], hbyte, rfl, rfl⟩
    rw [memReadByte, hone, lane_wordOfBytes _ _ hk, List.getD_eq_getElem?_getD, List.getElem?_eq_getElem (by omega)]
    rfl

theorem encReads_of_wordsAt {s : State} {ws : List Word} (h : WordsAt s s.enc.base ws) :
    EncReads (fun _ => none) s 0 ws :=
  encReads_of_getElem ws fun j hj => by
    rw [Nat.zero_add]
    exact ⟨h j hj, fun k hk => memReadByte_of_memReadWord (h j hj) hk⟩

/-- R106 at the end of the input. -/
theorem encStep_complete {supply : Nat → Option Word} {s : State} {e : Enc} {q : Port Byte} (hst : e.st = .fetch)
    (hcur : e.cur = e.nw) : encStepFrom supply (encAt s e q) =
      .moves (encAt s { e with st := .idle } (q.respond (.pack .ok))) := by
  have hst' : (encAt s e q).enc.st = .fetch := hst
  have hcur' : (encAt s e q).enc.cur = (encAt s e q).enc.nw := hcur
  simp only [encStepFrom, hst', if_pos hcur', State.commitEnc, encComplete, Port.commit_none]
  rfl

/-- Settles O42: the run of `encRuns_pack`, and the step that completes it. -/
theorem encoderEmitsPack : Obligations.EncoderEmitsPack := by
  unfold Obligations.EncoderEmitsPack
  intro s ws hst hcur hnw hwords hready
  have hreads := encReads_of_wordsAt hwords
  rw [← hcur] at hreads
  obtain ⟨k, e, hrun, hk, hst', hcur'⟩ := encRuns_pack (q := s.encPort) ws.length le_rfl hst rfl hreads
    (by omega) hready
  rw [encAt_self] at hrun
  have hdone := burst_trans hrun (burst_one (encStep_complete hst' hcur'))
  exact ⟨_, burst_of_waits hdone rfl (Nat.succ_le_succ hk), rfl, rfl, rfl⟩

end Sys2Proof.Proofs
end

section
/-! Words put together byte by byte (R133, R137, R140, R142), and the end of a packed input inside a record (R82). -/

namespace Sys2Proof.Proofs

open Sys2Proof Sys2Proof.Machine

/-! ### Words byte by byte -/

theorem getD_concat {xs : List Byte} {b : Byte} {i : Nat} :
    (xs ++ [b]).getD i 0 = if xs.length = i then b else xs.getD i 0 := by
  rcases Nat.lt_trichotomy i xs.length with hlt | heq | hgt
  · simp [List.getElem?_append_left hlt, hlt.ne']
  · simp [heq]
  · have hout : ¬ xs.length = i := hgt.ne
    simp only [List.getD_eq_getElem?_getD, hout, if_false]
    rw [List.getElem?_eq_none (by simp; omega), List.getElem?_eq_none hgt.le]

/-- The next literal byte goes to the next set bit (R133). -/
theorem setLane_place {b : Byte} {xs : List Byte} (h : xs.length < popCount b) (c : Byte) :
    setLane (place b xs) (pos b xs.length) c = place b (xs ++ [c]) := by
  refine word_ext_lanes _ _ fun i hi => ?_
  rw [lane_setLane _ _ hi, lane_place _ _ hi, lane_place _ _ hi, getD_concat]
  by_cases hbit : b.getLsbD i = true
  · have hpos : pos b xs.length = i ↔ xs.length = rank b i := by
      constructor
      · rintro rfl
        exact (rank_pos h).symm
      · exact fun hrank => (eq_pos_of_rank h hbit hrank.symm).symm
    simp only [hpos, hbit, if_true]
  · have hne : pos b xs.length ≠ i := by
      rintro rfl
      exact hbit (getLsbD_pos h)
    simp [hne, hbit]

@[simp] theorem place_nil (b : Byte) : place b [] = 0 := by
  refine word_ext_lanes _ _ fun i hi => ?_
  rw [lane_place _ _ hi, lane_zero]
  simp

/-- The word with its first bytes replaced. -/
def overwrite (w : Word) (xs : List Byte) : Word := wordOfBytes (xs ++ (bytesOfWord w).drop xs.length)

theorem lane_overwrite (w : Word) (xs : List Byte) {i : Nat} (hi : i < 8) :
    lane (overwrite w xs) i = if i < xs.length then xs.getD i 0 else lane w i := by
  rw [overwrite, lane_wordOfBytes _ _ hi]
  split
  case isTrue hlt => simp [List.getElem?_append_left hlt]
  case isFalse hge =>
    have hindex : xs.length + (i - xs.length) = i := by omega
    rw [List.getD_eq_getElem?_getD, List.getElem?_append_right (by omega), List.getElem?_drop, hindex]
    simp [bytesOfWord, hi]

@[simp] theorem overwrite_nil (w : Word) : overwrite w [] = w :=
  word_ext_lanes _ _ fun i hi => by simp [lane_overwrite _ _ hi]

theorem setLane_overwrite (w : Word) (xs : List Byte) (c : Byte) :
    setLane (overwrite w xs) xs.length c = overwrite w (xs ++ [c]) := by
  refine word_ext_lanes _ _ fun i hi => ?_
  rw [lane_setLane _ _ hi, lane_overwrite _ _ hi, lane_overwrite _ _ hi, getD_concat, List.length_append,
    List.length_singleton]
  rcases Nat.lt_trichotomy i xs.length with hlt | heq | hgt
  · simp [hlt, hlt.ne', Nat.lt_succ_of_lt hlt]
  · simp [heq]
  · have hin : ¬ i < xs.length + 1 := by omega
    simp [hin, hgt.ne, hgt.not_gt]

/-- Bytes collected into an empty word (R140). -/
theorem overwrite_zero (xs : List Byte) : overwrite 0 xs = wordOfBytes xs := by
  refine word_ext_lanes _ _ fun i hi => ?_
  rw [lane_overwrite _ _ hi, lane_wordOfBytes _ _ hi, lane_zero]
  split
  · rfl
  · rw [List.getD_eq_getElem?_getD, List.getElem?_eq_none (by omega)]
    rfl

/-- What stays in the register when the last byte of a raw word is emitted without being stored (R142). -/
theorem overwrite_take_seven (v w : Word) : overwrite v ((bytesOfWord w).take 7) = setLane w 7 (lane v 7) := by
  refine word_ext_lanes _ _ fun i hi => ?_
  rw [lane_overwrite _ _ hi, lane_setLane _ _ hi]
  by_cases h7 : 7 = i
  · simp [← h7]
  · have hlt : i < 7 := by omega
    simp [h7, hlt, bytesOfWord]

@[simp] theorem setLane_lane_self (w : Word) (i : Nat) : setLane w i (lane w i) = w := by
  refine word_ext_lanes _ _ fun j hj => ?_
  rw [lane_setLane _ _ hj]
  split
  case isTrue h => rw [h]
  case isFalse => rfl

/-! ### The end of the input inside a record (R82) -/

/-- A byte list that ends inside its first record: the bytes, the words complete before its end, and the raw bytes of
the literal word it ends in. -/
inductive Truncated : List Byte → List Word → List Byte → Prop
  | zrun : Truncated [0x00#8] [] []
  | sparse {b : Byte} {xs : List Byte} (h0 : b ≠ 0x00#8) (hF : b ≠ 0xFF#8) (hshort : xs.length < popCount b) :
      Truncated (b :: xs) [] []
  | seed {xs : List Byte} (hshort : xs.length ≤ 8) : Truncated (0xFF#8 :: xs) [] []
  | raw {seed : Word} {n : Byte} {ws : List Word} {ys : List Byte} (hmore : ws.length < n.toNat)
      (hshort : ys.length < 8) : Truncated (0xFF#8 :: (bytesOfWord seed ++ n :: (bytesOfWords ws ++ ys))) (seed :: ws) ys

/-- A byte list is its whole words and an incomplete rest. -/
theorem exists_words_append (bs : List Byte) :
    ∃ ws ys, bs = bytesOfWords ws ++ ys ∧ ws.length = bs.length / 8 ∧ ys.length < 8 := by
  have hwhole : (bs.take (8 * (bs.length / 8))).length = 8 * (bs.length / 8) := by simp; omega
  refine ⟨wordsOfBytes (bs.take (8 * (bs.length / 8))), bs.drop (8 * (bs.length / 8)), ?_, length_wordsOfBytes hwhole,
    by simp; omega⟩
  rw [bytesOfWords_wordsOfBytes _ _ hwhole, List.take_append_drop]

/-- A nonempty byte list begins with a whole record, or ends inside its first (R82). -/
theorem decodes_or_truncated (b : Byte) (r : List Byte) :
    (∃ i rest, decodeRecord (b :: r) = .ok (i, rest)) ∨ ∃ ws ys, Truncated (b :: r) ws ys := by
  by_cases h0 : b = 0x00#8
  · subst h0
    cases r with
    | nil => exact .inr ⟨_, _, .zrun⟩
    | cons n rest => exact .inl ⟨_, _, rfl⟩
  · by_cases hF : b = 0xFF#8
    · subst hF
      cases hr : r.drop 8 with
      | nil => exact .inr ⟨_, _, .seed (List.drop_eq_nil_iff.mp hr)⟩
      | cons n raw =>
        by_cases hcomplete : raw.length < 8 * n.toNat
        · obtain ⟨ws, ys, rfl, hws, hys⟩ := exists_words_append raw
          have hseed : (r.take 8).length = 8 := by
            have hlen := congrArg List.length hr
            simp at hlen ⊢
            omega
          have hsplit : r = bytesOfWord (wordOfBytes (r.take 8)) ++ n :: (bytesOfWords ws ++ ys) := by
            rw [bytesOfWord_wordOfBytes _ hseed, ← hr, List.take_append_drop]
          rw [hsplit]
          exact .inr ⟨_, _, .raw (by simp at hcomplete; omega) hys⟩
        · exact .inl ⟨_, _, by simp [decodeRecord, hr, hcomplete]; exact ⟨rfl, rfl⟩⟩
    · by_cases hcomplete : r.length < popCount b
      · exact .inr ⟨_, _, .sparse h0 hF hcomplete⟩
      · exact .inl ⟨_, _, by simp [decodeRecord, h0, hF, hcomplete]; exact ⟨rfl, rfl⟩⟩

theorem drop_seed_append (seed : Word) (rest : List Byte) : (bytesOfWord seed ++ rest).drop 8 = rest :=
  List.drop_left' (length_bytesOfWord seed)

theorem take_seed_append (seed : Word) (rest : List Byte) : (bytesOfWord seed ++ rest).take 8 = bytesOfWord seed :=
  List.take_left' (length_bytesOfWord seed)

/-- `unpack` of an input that ends inside its first record (R130). -/
theorem unpackFuel_of_truncated {bytes ys : List Byte} {ws : List Word} (h : Truncated bytes ws ys) (fuel : Nat)
    (acc : List Word) : unpackFuel (fuel + 1) bytes acc = (acc ++ ws, .trunc) := by
  cases h with
  | zrun => simp [unpackFuel]
  | sparse h0 hF hshort => simp [unpackFuel, h0, hF, hshort]
  | seed hshort => simp [unpackFuel, List.drop_eq_nil_of_le hshort]
  | @raw seed n ws ys hmore hshort =>
    have hcount : min n.toNat ((bytesOfWords ws ++ ys).length / 8) = ws.length := by simp; omega
    have hwhole : (bytesOfWords ws ++ ys).take (8 * ws.length) = bytesOfWords ws :=
      List.take_left' (length_bytesOfWords ws)
    simp only [unpackFuel, show ¬ (0xFF#8 = 0x00#8) by decide, if_false, if_true, drop_seed_append, take_seed_append,
      hcount, hmore, hwhole, wordOfBytes_bytesOfWord, wordsOfBytes_bytesOfWords, List.append_assoc,
      List.singleton_append]

/-- What `unpack` has emitted before does not change what it emits. -/
theorem unpackFuel_acc (n : Nat) : ∀ (bytes : List Byte) (acc : List Word), bytes.length ≤ n →
    unpackFuel n bytes acc = (acc ++ (unpackFuel n bytes []).1, (unpackFuel n bytes []).2) := by
  induction n with
  | zero => intro bytes acc _; simp [unpackFuel]
  | succ n ih =>
    intro bytes acc hlen
    cases bytes with
    | nil => simp
    | cons b r =>
      rcases decodes_or_truncated b r with ⟨i, rest, hdec⟩ | ⟨ws, ys, htrunc⟩
      · obtain ⟨-, hbytes⟩ := recordDecodingIsExact Config.exampleParams _ _ _ hdec
        have hpos := length_encodeRecord_pos (isRecord_of_decodeRecord hdec)
        have hlength := congrArg List.length hbytes
        rw [List.length_append] at hlength
        have hrest : rest.length ≤ n := by omega
        rw [unpackFuel_of_decodeRecord hdec, unpackFuel_of_decodeRecord hdec, ih _ _ hrest,
          ih _ ([] ++ recordWords i) hrest]
        simp
      · rw [unpackFuel_of_truncated htrunc, unpackFuel_of_truncated htrunc]
        rfl

end Sys2Proof.Proofs
end

section
/-! DEC decodes a record (R145-R147): the runs of its FSM, state by state, on the bytes it reads, complete or cut off by
the end of the input. -/

namespace Sys2Proof.Proofs

open Sys2Proof Sys2Proof.Machine

/-- The state with DEC's registers and port replaced. -/
def decAt (s : State) (d : Dec) (q : Port Word) : State := { s with dec := d, decPort := q }

theorem decAt_self (s : State) : decAt s s.dec s.decPort = s := rfl

/-- The byte DEC reads at an offset of its input. -/
def decByteAt (supply : Nat → Option Byte) (s : State) (i : Nat) : Except Fault Byte :=
  decByte supply (decAt s { s.dec with pos := i } s.decPort)

/-- DEC reads the bytes `bs` from offset `i` on. -/
def DecReads (supply : Nat → Option Byte) (s : State) : Nat → List Byte → Prop
  | _, [] => True
  | i, b :: bs => decByteAt supply s i = .ok b ∧ DecReads supply s (i + 1) bs

section DecRuns

variable {supply : Nat → Option Byte} {s : State} {d : Dec} {q : Port Word}

theorem decReads_append (as bs : List Byte) : ∀ i, DecReads supply s i (as ++ bs) ↔
    DecReads supply s i as ∧ DecReads supply s (i + as.length) bs := by
  induction as with
  | nil => intro i; simp [DecReads]
  | cons a as ih =>
    intro i
    have hindex : i + (a :: as).length = i + 1 + as.length := by rw [List.length_cons]; omega
    simp only [List.cons_append, DecReads, ih, hindex, and_assoc]

theorem decReads_of_getElem (bs : List Byte) : ∀ {i : Nat},
    (∀ j, ∀ h : j < bs.length, decByteAt supply s (i + j) = .ok bs[j]) → DecReads supply s i bs := by
  induction bs with
  | nil => exact fun _ => trivial
  | cons b bs ih =>
    intro i h
    refine ⟨h 0 (Nat.succ_pos _), ih fun j hj => ?_⟩
    have hindex : i + 1 + j = i + (j + 1) := by omega
    rw [hindex]
    exact h (j + 1) (Nat.succ_lt_succ hj)

theorem decReads_take {bs : List Byte} {i : Nat} (h : DecReads supply s i bs) (n : Nat) :
    DecReads supply s i (bs.take n) := by
  rw [← List.take_append_drop n bs] at h
  exact ((decReads_append _ _ _).mp h).1

/-- What DEC reads depends on its registers by the base and the offset alone. -/
theorem decByte_decAt (hbase : d.base = s.dec.base) : decByte supply (decAt s d q) = decByteAt supply s d.pos := by
  have hread := fun d q => memRead_congr s (decAt s d q) rfl rfl
  have hregs : ∀ d q, (decAt s d q).dec = d := fun _ _ => rfl
  simp only [decByteAt, decByte, memReadByte, hread, hregs, hbase]

theorem commitDec_emit {r : Dec} {w : Word} (hready : q.sink.readyFor 1 = true) :
    (decAt s d q).commitDec { regs := r, emit := some w, resp := none } = .moves (decAt s r (puts q [w])) := by
  have hcommit : (decAt s d q).decPort.commit (some w) none = some (puts q [w]) := commit_emit hready w
  simp only [State.commitDec, hcommit]
  rfl

theorem commitDec_silent {r : Dec} :
    (decAt s d q).commitDec { regs := r, emit := none, resp := none } = .moves (decAt s r q) := by
  have hcommit : (decAt s d q).decPort.commit none none = some q := commit_silent q
  simp only [State.commitDec, hcommit]
  rfl

/-- A consuming step inside the input is its rule on the byte read. -/
theorem decConsume_read {b : Byte} (hbase : d.base = s.dec.base) (hpos : d.pos < d.len)
    (hread : decByteAt supply s d.pos = .ok b) (atEnd : Effect Dec Word) (rule : Dec → Byte → Effect Dec Word) :
    decConsume supply (decAt s d q) atEnd rule = (decAt s d q).commitDec (rule d.advance b) := by
  have hpos' : ¬ (decAt s d q).dec.pos = (decAt s d q).dec.len := hpos.ne
  rw [decConsume, if_neg hpos', (decByte_decAt hbase).trans hread]
  rfl

/-! ### The end of the input (R143) -/

/-- DEC after it has truncated: `ST_TRUNC` latched, idle (R143, R202). -/
def truncated (d : Dec) : Dec := { d with last := .trunc, st := .idle }

theorem decStep_truncate (hend : d.pos = d.len)
    (hst : d.st = .sparse ∨ d.st = .zcount ∨ d.st = .seed ∨ d.st = .lcount ∨ d.st = .lraw) :
    decStepFrom supply (decAt s d q) = .moves (decAt s (truncated d) (q.respond (.unpack .trunc))) :=
  (decStepFrom_inRecord_of_exhausted hend hst supply).trans (commitDec_of_emit_none _ rfl)

/-! ### The tag (R136) -/

theorem decStep_tag {b : Byte} (hst : d.st = .tag) (hbase : d.base = s.dec.base) (hpos : d.pos < d.len)
    (hread : decByteAt supply s d.pos = .ok b) :
    decStepFrom supply (decAt s d q) = .moves (decAt s (decTag d.advance b).regs q) := by
  have hst' : (decAt s d q).dec.st = .tag := hst
  simp only [decStepFrom, hst', decConsume_read hbase hpos hread]
  exact commitDec_silent

theorem decTag_sparse {b : Byte} (h0 : b ≠ 0x00#8) (hF : b ≠ 0xFF#8) (d : Dec) :
    (decTag d b).regs = { d with T := b, W := 0, k := 0, st := .sparse } := by
  simp [decTag, h0, hF]

theorem decTag_lrun (d : Dec) : (decTag d 0xFF#8).regs = { d with T := 0xFF#8, W := 0, k := 0, st := .seed } := rfl

theorem decTag_zrun (d : Dec) : (decTag d 0x00#8).regs = { d with T := 0x00#8, st := .zcount } := rfl

/-! ### SPARSE (R137, R145) -/

theorem decStep_sparse {b : Byte} (hst : d.st = .sparse) (hbase : d.base = s.dec.base) (hpos : d.pos < d.len)
    (hread : decByteAt supply s d.pos = .ok b) :
    decStepFrom supply (decAt s d q) = (decAt s d q).commitDec (decSparse d.advance b) := by
  have hst' : (decAt s d q).dec.st = .sparse := hst
  simp only [decStepFrom, hst', decConsume_read hbase hpos hread]

/-- D_SPARSE places literal bytes, short of the last. -/
theorem decRuns_sparse (bs : List Byte) : ∀ {d : Dec} {xs : List Byte}, d.st = .sparse → d.base = s.dec.base →
    d.W = place d.T xs → d.k.toNat = xs.length → xs.length + bs.length < popCount d.T → popCount d.T < 8 →
    DecReads supply s d.pos bs → d.pos + bs.length ≤ d.len →
    burst (decStepFrom supply) bs.length (decAt s d q) =
      .moves (decAt s { d with W := place d.T (xs ++ bs), k := BitVec.ofNat 3 (xs ++ bs).length,
                               pos := d.pos + bs.length } q) := by
  induction bs with
  | nil =>
    intro d xs hst hbase hW hk _ _ _ _
    rw [List.append_nil, ← hW, ofNat_of_toNat hk]
    rfl
  | cons b bs ih =>
    intro d xs hst hbase hW hk hcount hlt hreads hpos
    simp only [List.length_cons] at hcount hpos ⊢
    have hstep := decStep_sparse (q := q) hst hbase (by omega) hreads.1
    have hmore : ¬ d.advance.k.toNat + 1 = popCount d.advance.T := by
      show ¬ d.k.toNat + 1 = popCount d.T
      omega
    have hnext : (d.k + 1).toNat = d.k.toNat + 1 := toNat_succ_of_lt (by omega)
    have hplace : setLane d.W (pos d.T d.k.toNat) b = place d.T (xs ++ [b]) := by
      rw [hW, hk, setLane_place (by omega)]
    simp only [decSparse, hmore, if_false] at hstep
    have hrun := ih (d := { d with pos := d.pos + 1, W := setLane d.W (pos d.T d.k.toNat) b, k := d.k + 1 })
      (xs := xs ++ [b]) hst hbase hplace (by dsimp only; rw [hnext, hk]; simp)
      (by dsimp only; simp; omega) hlt hreads.2 (by dsimp only; omega)
    have hindex : d.pos + 1 + bs.length = d.pos + (bs.length + 1) := by omega
    dsimp only at hrun
    rw [List.append_assoc, List.singleton_append, hindex] at hrun
    exact burst_cons (hstep.trans commitDec_silent) hrun

/-- R145: a whole SPARSE record. -/
theorem decRuns_sparseRecord {b : Byte} {lits : List Byte} (h0 : b ≠ 0x00#8) (hF : b ≠ 0xFF#8)
    (hlits : lits.length = popCount b) (hst : d.st = .tag) (hbase : d.base = s.dec.base)
    (hreads : DecReads supply s d.pos (b :: lits)) (hpos : d.pos + (1 + popCount b) ≤ d.len)
    (hready : q.sink.readyFor 1 = true) :
    burst (decStepFrom supply) (decSparseSteps b) (decAt s d q) =
      .moves (decAt s { d with T := b, W := place b lits.dropLast, k := BitVec.ofNat 3 (popCount b - 1),
                               pos := d.pos + (1 + popCount b), st := .tag } (puts q [place b lits])) := by
  have hcount := popCount_pos h0
  have hlt := popCount_lt_eight hF
  have hne : lits ≠ [] := List.ne_nil_of_length_pos (by omega)
  obtain ⟨init, last, rfl⟩ : ∃ init last, lits = init ++ [last] := ⟨_, _, (List.dropLast_append_getLast hne).symm⟩
  have hinit : init.length + 1 = popCount b := by simpa using hlits
  obtain ⟨hreadInit, hreadLast⟩ := (decReads_append init [last] (d.pos + 1)).mp hreads.2
  have htag := decStep_tag (q := q) hst hbase (by omega) hreads.1
  rw [decTag_sparse h0 hF] at htag
  have hbytes := decRuns_sparse (supply := supply) (s := s) (q := q) init
    (d := { d with pos := d.pos + 1, T := b, W := 0, k := 0, st := .sparse }) (xs := []) rfl hbase
    (place_nil b).symm rfl (by dsimp only; simp; omega) hlt hreadInit (by dsimp only; omega)
  rw [List.nil_append] at hbytes
  have hk : (BitVec.ofNat 3 init.length).toNat = init.length := Nat.mod_eq_of_lt (by omega)
  have hlast := decStep_sparse (q := q) (supply := supply) (s := s)
    (d := { d with pos := d.pos + 1 + init.length, T := b, W := place b init, k := BitVec.ofNat 3 init.length,
                   st := .sparse }) rfl hbase (by dsimp only; omega) hreadLast.1
  simp only [decSparse, Dec.advance, hk, hinit, if_true, setLane_place (show init.length < popCount b by omega)]
    at hlast
  have hrun := burst_trans (burst_cons htag hbytes) (burst_one (hlast.trans (commitDec_emit hready)))
  have hsteps : decSparseSteps b = init.length + 1 + 1 := by rw [decSparseSteps]; omega
  have hindex : d.pos + 1 + init.length + 1 = d.pos + (1 + popCount b) := by omega
  have hcountdown : popCount b - 1 = init.length := by omega
  rw [hsteps, hrun, List.dropLast_concat, hindex, hcountdown]

/-- R145: the input ends inside a SPARSE record. -/
theorem decRuns_sparseTruncated {b : Byte} {xs : List Byte} (h0 : b ≠ 0x00#8) (hF : b ≠ 0xFF#8)
    (hshort : xs.length < popCount b) (hst : d.st = .tag) (hbase : d.base = s.dec.base)
    (hreads : DecReads supply s d.pos (b :: xs)) (hpos : d.pos + (1 + xs.length) = d.len) :
    burst (decStepFrom supply) (xs.length + 2) (decAt s d q) =
      .moves (decAt s (truncated { d with T := b, W := place b xs, k := BitVec.ofNat 3 xs.length, pos := d.len })
        (q.respond (.unpack .trunc))) := by
  have hlt := popCount_lt_eight hF
  have hindex : d.pos + 1 + xs.length = d.len := by omega
  have htag := decStep_tag (q := q) hst hbase (by omega) hreads.1
  rw [decTag_sparse h0 hF] at htag
  have hbytes := decRuns_sparse (supply := supply) (s := s) (q := q) xs
    (d := { d with pos := d.pos + 1, T := b, W := 0, k := 0, st := .sparse }) (xs := []) rfl hbase
    (place_nil b).symm rfl (by dsimp only; simpa using hshort) hlt hreads.2 (by dsimp only; omega)
  rw [List.nil_append] at hbytes
  dsimp only at hbytes
  rw [hindex] at hbytes
  exact burst_trans (m := xs.length + 1) (burst_cons htag hbytes) (burst_one (decStep_truncate rfl (.inl rfl)))

/-! ### ZRUN (R138, R139, R146) -/

theorem decStep_zcount {n : Byte} (hst : d.st = .zcount) (hbase : d.base = s.dec.base) (hpos : d.pos < d.len)
    (hread : decByteAt supply s d.pos = .ok n) :
    decStepFrom supply (decAt s d q) = .moves (decAt s (decZcount d.advance n).regs q) := by
  have hst' : (decAt s d q).dec.st = .zcount := hst
  simp only [decStepFrom, hst', decConsume_read hbase hpos hread]
  exact commitDec_silent

theorem decStep_zemit (hst : d.st = .zemit) (hready : q.sink.readyFor 1 = true) :
    decStepFrom supply (decAt s d q) = .moves (decAt s (decZemit d).regs (puts q [0])) := by
  have hst' : (decAt s d q).dec.st = .zemit := hst
  simp only [decStepFrom, hst']
  exact commitDec_emit hready

/-- D_ZEMIT emits the zero words that are left. -/
theorem decRuns_zemit (n : Nat) : ∀ {d : Dec} {q : Port Word}, d.st = .zemit → d.rem.toNat = n + 1 →
    q.sink.readyFor (n + 1) = true →
    burst (decStepFrom supply) (n + 1) (decAt s d q) =
      .moves (decAt s { d with rem := 0, st := .tag } (puts q (List.replicate (n + 1) 0))) := by
  induction n with
  | zero =>
    intro d q hst hrem hready
    have hone : d.rem = 1 := (eq_one_iff_toNat (by decide)).mpr hrem
    have hstep := decStep_zemit (supply := supply) (s := s) hst hready
    simp only [decZemit, hone, if_true] at hstep
    exact burst_one hstep
  | succ n ih =>
    intro d q hst hrem hready
    have hmore : ¬ d.rem = 1 := mt (eq_one_iff_toNat (by decide)).mp (by omega)
    have hpred : (d.rem - 1).toNat = n + 1 := by rw [toNat_pred_of_pos (by omega)]; omega
    obtain ⟨hone, hrest⟩ := readyFor_puts (as := [(0 : Word)]) (n := n + 1) (by rwa [Nat.add_comm] at hready)
    have hstep := decStep_zemit (supply := supply) (s := s) hst hone
    simp only [decZemit, hmore, if_false] at hstep
    have hrun := ih (d := { d with rem := d.rem - 1, st := .zemit }) rfl hpred hrest
    rw [puts_puts, List.singleton_append, ← List.replicate_succ] at hrun
    exact burst_cons hstep hrun

/-- R146: a whole ZRUN record. -/
theorem decRuns_zrunRecord {n : Byte} (hst : d.st = .tag) (hbase : d.base = s.dec.base)
    (hreads : DecReads supply s d.pos [0x00#8, n]) (hpos : d.pos + 2 ≤ d.len)
    (hready : q.sink.readyFor (n.toNat + 1) = true) :
    burst (decStepFrom supply) (decZrunSteps n) (decAt s d q) =
      .moves (decAt s { d with T := 0, rem := 0, pos := d.pos + 2, st := .tag }
        (puts q (List.replicate (n.toNat + 1) 0))) := by
  have htag := decStep_tag (q := q) hst hbase (by omega) hreads.1
  rw [decTag_zrun] at htag
  have hcount := decStep_zcount (q := q) (supply := supply) (s := s)
    (d := { d with pos := d.pos + 1, T := 0x00#8, st := .zcount }) rfl hbase (by dsimp only; omega) hreads.2.1
  have hzeros := decRuns_zemit (supply := supply) (s := s) n.toNat
    (d := { d with pos := d.pos + 1 + 1, T := 0x00#8, rem := n.setWidth 9 + 1, st := .zemit }) rfl
    (toNat_setWidth_succ n) hready
  exact (congrArg (burst _ · _) (Nat.add_comm 2 _)).trans (burst_cons htag (burst_cons hcount hzeros))

/-- R146: the input ends before the count. -/
theorem decRuns_zrunTruncated (hst : d.st = .tag) (hbase : d.base = s.dec.base)
    (hreads : DecReads supply s d.pos [0x00#8]) (hpos : d.pos + 1 = d.len) :
    burst (decStepFrom supply) 2 (decAt s d q) =
      .moves (decAt s (truncated { d with T := 0, pos := d.len }) (q.respond (.unpack .trunc))) := by
  have htag := decStep_tag (q := q) hst hbase (by omega) hreads.1
  rw [decTag_zrun, Dec.advance] at htag
  dsimp only at htag
  rw [hpos] at htag
  exact burst_cons htag (burst_one (decStep_truncate rfl (.inr (.inl rfl))))

/-! ### LRUN (R140-R142, R147) -/

theorem decStep_seed {b : Byte} (hst : d.st = .seed) (hbase : d.base = s.dec.base) (hpos : d.pos < d.len)
    (hread : decByteAt supply s d.pos = .ok b) :
    decStepFrom supply (decAt s d q) = .moves (decAt s (decSeed d.advance b).regs q) := by
  have hst' : (decAt s d q).dec.st = .seed := hst
  simp only [decStepFrom, hst', decConsume_read hbase hpos hread]
  exact commitDec_silent

theorem decStep_lraw {b : Byte} (hst : d.st = .lraw) (hbase : d.base = s.dec.base) (hpos : d.pos < d.len)
    (hread : decByteAt supply s d.pos = .ok b) :
    decStepFrom supply (decAt s d q) = (decAt s d q).commitDec (decLraw d.advance b) := by
  have hst' : (decAt s d q).dec.st = .lraw := hst
  simp only [decStepFrom, hst', decConsume_read hbase hpos hread]

/-- A state that collects bytes into the lanes of `W` from `k` on does so, short of the eighth: D_SEED and D_LRAW. -/
theorem decRuns_collect {st : DecSt} {w : Word}
    (hstep : ∀ {d : Dec} {b : Byte}, d.st = st → d.base = s.dec.base → d.pos < d.len → d.k.toNat < 7 →
      decByteAt supply s d.pos = .ok b → decStepFrom supply (decAt s d q) =
        .moves (decAt s { d with pos := d.pos + 1, W := setLane d.W d.k.toNat b, k := d.k + 1 } q))
    (bs : List Byte) : ∀ {d : Dec} {xs : List Byte}, d.st = st → d.base = s.dec.base → d.W = overwrite w xs →
    d.k.toNat = xs.length → xs.length + bs.length < 8 → DecReads supply s d.pos bs → d.pos + bs.length ≤ d.len →
    burst (decStepFrom supply) bs.length (decAt s d q) =
      .moves (decAt s { d with W := overwrite w (xs ++ bs), k := BitVec.ofNat 3 (xs ++ bs).length,
                               pos := d.pos + bs.length } q) := by
  induction bs with
  | nil =>
    intro d xs _ _ hW hk _ _ _
    rw [List.append_nil, ← hW, ofNat_of_toNat hk]
    rfl
  | cons b bs ih =>
    intro d xs hst hbase hW hk hcount hreads hpos
    simp only [List.length_cons] at hcount hpos ⊢
    have hfirst := hstep hst hbase (by omega) (by omega) hreads.1
    have hnext : (d.k + 1).toNat = d.k.toNat + 1 := toNat_succ_of_lt (by omega)
    have hplace : setLane d.W d.k.toNat b = overwrite w (xs ++ [b]) := by rw [hW, hk, setLane_overwrite]
    have hrun := ih (d := { d with pos := d.pos + 1, W := setLane d.W d.k.toNat b, k := d.k + 1 })
      (xs := xs ++ [b]) hst hbase hplace (by dsimp only; rw [hnext, hk]; simp) (by simp; omega) hreads.2
      (by dsimp only; omega)
    have hindex : d.pos + 1 + bs.length = d.pos + (bs.length + 1) := by omega
    dsimp only at hrun
    rw [List.append_assoc, List.singleton_append, hindex] at hrun
    exact burst_cons hfirst hrun

theorem decStep_seed_collects {b : Byte} (hst : d.st = .seed) (hbase : d.base = s.dec.base) (hpos : d.pos < d.len)
    (hk : d.k.toNat < 7) (hread : decByteAt supply s d.pos = .ok b) :
    decStepFrom supply (decAt s d q) =
      .moves (decAt s { d with pos := d.pos + 1, W := setLane d.W d.k.toNat b, k := d.k + 1 } q) := by
  have hmore : ¬ d.advance.k.toNat = 7 := hk.ne
  rw [decStep_seed hst hbase hpos hread]
  simp only [decSeed, hmore, if_false]
  rfl

theorem decStep_lraw_collects {b : Byte} (hst : d.st = .lraw) (hbase : d.base = s.dec.base) (hpos : d.pos < d.len)
    (hk : d.k.toNat < 7) (hread : decByteAt supply s d.pos = .ok b) :
    decStepFrom supply (decAt s d q) =
      .moves (decAt s { d with pos := d.pos + 1, W := setLane d.W d.k.toNat b, k := d.k + 1 } q) := by
  have hmore : ¬ d.advance.k.toNat = 7 := hk.ne
  rw [decStep_lraw hst hbase hpos hread]
  simp only [decLraw, hmore, if_false]
  exact commitDec_silent

/-- The eight bytes of a word: seven, and the last. -/
theorem bytesOfWord_eq_take_append (w : Word) : bytesOfWord w = (bytesOfWord w).take 7 ++ [lane w 7] := by
  rw [← drop_bytesOfWord_eight w, ← drop_bytesOfWord w (by decide), List.take_append_drop]

theorem length_take_seven (w : Word) : ((bytesOfWord w).take 7).length = 7 := by simp

/-- The tag of an LRUN and fewer than eight bytes of its seed. -/
theorem decRuns_seedPart {xs : List Byte} (hshort : xs.length < 8) (hst : d.st = .tag) (hbase : d.base = s.dec.base)
    (hreads : DecReads supply s d.pos (0xFF#8 :: xs)) (hpos : d.pos + (1 + xs.length) ≤ d.len) :
    burst (decStepFrom supply) (xs.length + 1) (decAt s d q) =
      .moves (decAt s { d with T := 0xFF#8, W := wordOfBytes xs, k := BitVec.ofNat 3 xs.length,
                               pos := d.pos + (1 + xs.length), st := .seed } q) := by
  have htag := decStep_tag (q := q) hst hbase (by omega) hreads.1
  rw [decTag_lrun] at htag
  have hbytes := decRuns_collect (supply := supply) (s := s) (q := q) (w := 0) decStep_seed_collects xs
    (d := { d with pos := d.pos + 1, T := 0xFF#8, W := 0, k := 0, st := .seed }) (xs := []) rfl hbase
    (overwrite_nil 0).symm rfl (by simpa using hshort) hreads.2 (by dsimp only; omega)
  have hindex : d.pos + 1 + xs.length = d.pos + (1 + xs.length) := by omega
  dsimp only at hbytes
  rw [List.nil_append, overwrite_zero, hindex] at hbytes
  exact burst_cons htag hbytes

/-- The tag of an LRUN and its whole seed. -/
theorem decRuns_seedWhole {seed : Word} (hst : d.st = .tag) (hbase : d.base = s.dec.base)
    (hreads : DecReads supply s d.pos (0xFF#8 :: bytesOfWord seed)) (hpos : d.pos + 9 ≤ d.len) :
    burst (decStepFrom supply) 9 (decAt s d q) =
      .moves (decAt s { d with T := 0xFF#8, W := seed, k := 7, pos := d.pos + 9, st := .lcount } q) := by
  rw [bytesOfWord_eq_take_append] at hreads
  obtain ⟨hreadPart, hreadLast⟩ := (decReads_append (0xFF#8 :: (bytesOfWord seed).take 7) [lane seed 7] d.pos).mp hreads
  have hseven := length_take_seven seed
  rw [List.length_cons, hseven] at hreadLast
  have hpart := decRuns_seedPart (q := q) (by rw [hseven]; decide) hst hbase hreadPart (by rw [hseven]; omega)
  rw [hseven] at hpart
  have hlast := decStep_seed (q := q) (supply := supply) (s := s)
    (d := { d with T := 0xFF#8, W := wordOfBytes ((bytesOfWord seed).take 7), k := BitVec.ofNat 3 7,
                   pos := d.pos + (1 + 7), st := .seed }) rfl hbase (by dsimp only; omega) hreadLast.1
  have hword : setLane (wordOfBytes ((bytesOfWord seed).take 7)) 7 (lane seed 7) = seed := by
    have hset := setLane_overwrite 0 ((bytesOfWord seed).take 7) (lane seed 7)
    rw [hseven, overwrite_zero, overwrite_zero, ← bytesOfWord_eq_take_append, wordOfBytes_bytesOfWord] at hset
    exact hset
  have hk : (BitVec.ofNat 3 7).toNat = 7 := rfl
  simp only [decSeed, Dec.advance, hk, if_true, hword] at hlast
  exact burst_trans hpart (burst_one hlast)

theorem decStep_lcount {n : Byte} (hst : d.st = .lcount) (hbase : d.base = s.dec.base) (hpos : d.pos < d.len)
    (hread : decByteAt supply s d.pos = .ok n) (hready : q.sink.readyFor 1 = true) :
    decStepFrom supply (decAt s d q) = .moves (decAt s (decLcount d.advance n).regs (puts q [d.W])) := by
  have hst' : (decAt s d q).dec.st = .lcount := hst
  simp only [decStepFrom, hst', decConsume_read hbase hpos hread]
  exact commitDec_emit hready

/-- The state in which DEC has `r` raw words of a literal run to come (R141, R142). -/
def rawState (r : Nat) : DecSt := if r = 0 then .tag else .lraw

theorem rawState_pos {r : Nat} (h : 0 < r) : rawState r = .lraw := if_neg h.ne'

/-- The eighth byte of a raw word is emitted with it and not stored (R142). -/
theorem decStep_lraw_emits {b : Byte} {r : Nat} (hst : d.st = .lraw) (hbase : d.base = s.dec.base) (hpos : d.pos < d.len)
    (hk : d.k.toNat = 7) (hrem : d.rem.toNat = r + 1) (hread : decByteAt supply s d.pos = .ok b)
    (hready : q.sink.readyFor 1 = true) :
    decStepFrom supply (decAt s d q) =
      .moves (decAt s { d with k := 0, rem := BitVec.ofNat 9 r, pos := d.pos + 1, st := rawState r }
        (puts q [setLane d.W 7 b])) := by
  have hk' : d.advance.k.toNat = 7 := hk
  have hpred : d.advance.rem - 1 = BitVec.ofNat 9 r := by
    show d.rem - 1 = _
    refine (ofNat_of_toNat ?_).symm
    rw [toNat_pred_of_pos (by omega), hrem]
    rfl
  have hone : d.advance.rem = 1 ↔ r = 0 := by
    show d.rem = 1 ↔ _
    rw [eq_one_iff_toNat (by decide), hrem]
    omega
  rw [decStep_lraw hst hbase hpos hread]
  simp only [decLraw, hk', if_true, hpred, hone]
  exact commitDec_emit hready

/-- D_LRAW copies one raw word; its last byte is emitted without being stored. -/
theorem decRuns_lraw_word {w : Word} {r : Nat} (hst : d.st = .lraw) (hbase : d.base = s.dec.base) (hk : d.k = 0)
    (hrem : d.rem.toNat = r + 1) (hreads : DecReads supply s d.pos (bytesOfWord w)) (hpos : d.pos + 8 ≤ d.len)
    (hready : q.sink.readyFor 1 = true) :
    burst (decStepFrom supply) 8 (decAt s d q) =
      .moves (decAt s { d with W := setLane w 7 (lane d.W 7), k := 0, rem := BitVec.ofNat 9 r, pos := d.pos + 8,
                               st := rawState r } (puts q [w])) := by
  rw [bytesOfWord_eq_take_append] at hreads
  obtain ⟨hreadPart, hreadLast⟩ := (decReads_append ((bytesOfWord w).take 7) [lane w 7] d.pos).mp hreads
  have hseven := length_take_seven w
  rw [hseven] at hreadLast
  have hpart := decRuns_collect (supply := supply) (s := s) (q := q) (w := d.W) decStep_lraw_collects
    ((bytesOfWord w).take 7) (d := d) (xs := []) hst hbase (overwrite_nil _).symm (by rw [hk]; rfl)
    (by rw [hseven]; decide) hreadPart (by rw [hseven]; omega)
  rw [List.nil_append, hseven, overwrite_take_seven] at hpart
  have hlast := decStep_lraw_emits (q := q) (supply := supply) (s := s) (r := r)
    (d := { d with W := setLane w 7 (lane d.W 7), k := BitVec.ofNat 3 7, pos := d.pos + 7 }) hst hbase
    (by dsimp only; omega) rfl hrem hreadLast.1 hready
  have hword : setLane (setLane w 7 (lane d.W 7)) 7 (lane w 7) = w := by
    refine word_ext_lanes _ _ fun i hi => ?_
    rw [lane_setLane _ _ hi, lane_setLane _ _ hi]
    split
    case isTrue h => rw [h]
    case isFalse => rfl
  rw [hword] at hlast
  exact burst_trans hpart (burst_one hlast)

/-- D_LRAW copies raw words, with `r` more to come after them. -/
theorem decRuns_lraw (ws : List Word) : ∀ {d : Dec} {q : Port Word} {r : Nat}, d.st = rawState (ws.length + r) →
    d.base = s.dec.base → d.k = 0 → d.rem.toNat = ws.length + r → DecReads supply s d.pos (bytesOfWords ws) →
    d.pos + 8 * ws.length ≤ d.len → q.sink.readyFor ws.length = true →
    burst (decStepFrom supply) (8 * ws.length) (decAt s d q) =
      .moves (decAt s { d with W := setLane (ws.getLastD d.W) 7 (lane d.W 7), k := 0, rem := BitVec.ofNat 9 r,
                               pos := d.pos + 8 * ws.length, st := rawState r } (puts q ws)) := by
  induction ws with
  | nil =>
    intro d q r hst _ hk hrem _ _ _
    simp only [List.length_nil, Nat.zero_add] at hst hrem
    rw [List.getLastD_nil, setLane_lane_self, ofNat_of_toNat hrem, ← hst, puts_nil, ← hk]
    rfl
  | cons w ws ih =>
    intro d q r hst hbase hk hrem hreads hpos hready
    simp only [List.length_cons] at hst hrem hpos hready ⊢
    rw [bytesOfWords_cons] at hreads
    obtain ⟨hreadWord, hreadRest⟩ := (decReads_append _ _ _).mp hreads
    rw [length_bytesOfWord] at hreadRest
    obtain ⟨hone, hrest⟩ := readyFor_puts (as := [w]) (n := ws.length) (by rwa [Nat.add_comm] at hready)
    have hfirst := decRuns_lraw_word (hst.trans (rawState_pos (by omega))) hbase hk
      (show d.rem.toNat = ws.length + r + 1 by omega) hreadWord (by omega) hone
    have hrem' : (BitVec.ofNat 9 (ws.length + r)).toNat = ws.length + r := by
      have hlt := d.rem.isLt
      exact Nat.mod_eq_of_lt (by omega)
    have hrun := ih (d := { d with W := setLane w 7 (lane d.W 7), k := 0, rem := BitVec.ofNat 9 (ws.length + r),
                                   pos := d.pos + 8, st := rawState (ws.length + r) })
      rfl hbase rfl hrem' hreadRest (by dsimp only; omega) hrest
    have hlane : lane (setLane w 7 (lane d.W 7)) 7 = lane d.W 7 := by rw [lane_setLane _ _ (by decide), if_pos rfl]
    have hlast : setLane (ws.getLastD (setLane w 7 (lane d.W 7))) 7 (lane d.W 7) =
        setLane ((w :: ws).getLastD d.W) 7 (lane d.W 7) := by
      cases ws with
      | nil =>
        have hself := setLane_lane_self (setLane w 7 (lane d.W 7)) 7
        rwa [hlane] at hself
      | cons v ws => rfl
    have hindex : d.pos + 8 + 8 * ws.length = d.pos + 8 * (ws.length + 1) := by omega
    have hsteps : 8 * (ws.length + 1) = 8 + 8 * ws.length := by omega
    dsimp only at hrun
    rw [hlane, hlast, puts_puts, List.singleton_append, hindex] at hrun
    rw [hsteps, burst_trans hfirst hrun, ← hsteps]

/-- The tag, the seed, the count and raw words of an LRUN, with `r` more raw words to come. -/
theorem decRuns_lrunWords {seed : Word} {n : Byte} {ws : List Word} {r : Nat} (hcount : n.toNat = ws.length + r)
    (hst : d.st = .tag) (hbase : d.base = s.dec.base)
    (hreads : DecReads supply s d.pos (0xFF#8 :: (bytesOfWord seed ++ n :: bytesOfWords ws)))
    (hpos : d.pos + (10 + 8 * ws.length) ≤ d.len) (hready : q.sink.readyFor (ws.length + 1) = true) :
    burst (decStepFrom supply) (decLrunSteps ws.length) (decAt s d q) =
      .moves (decAt s { d with T := 0xFF#8, W := setLane (ws.getLastD seed) 7 (lane seed 7), k := 0,
                               rem := BitVec.ofNat 9 r, pos := d.pos + (10 + 8 * ws.length), st := rawState r }
        (puts q (seed :: ws))) := by
  have hn := n.isLt
  obtain ⟨hreadSeed, hreadRest⟩ := (decReads_append (0xFF#8 :: bytesOfWord seed) _ d.pos).mp hreads
  rw [List.length_cons, length_bytesOfWord] at hreadRest
  obtain ⟨hone, hrest⟩ := readyFor_puts (as := [seed]) (n := ws.length) (by rwa [Nat.add_comm] at hready)
  have hseed := decRuns_seedWhole (q := q) hst hbase hreadSeed (by omega)
  have hlcount := decStep_lcount (q := q) (supply := supply) (s := s)
    (d := { d with T := 0xFF#8, W := seed, k := 7, pos := d.pos + 9, st := .lcount }) rfl hbase
    (by dsimp only; omega) hreadRest.1 hone
  have hwidth : (n.setWidth 9).toNat = ws.length + r := by
    rw [BitVec.toNat_setWidth, hcount]
    exact Nat.mod_eq_of_lt (by omega)
  have hstart : (if n = 0 then DecSt.tag else .lraw) = rawState (ws.length + r) := by
    have hzero : n = 0 ↔ ws.length + r = 0 := by
      rw [← hcount]
      exact BitVec.toNat_inj.symm
    simp only [hzero, rawState]
  simp only [decLcount, Dec.advance, hstart] at hlcount
  have hraw := decRuns_lraw (supply := supply) (s := s) ws
    (d := { d with T := 0xFF#8, W := seed, k := 0, rem := n.setWidth 9, pos := d.pos + 9 + 1,
                   st := rawState (ws.length + r) }) rfl hbase rfl hwidth hreadRest.2 (by dsimp only; omega) hrest
  have hindex : d.pos + 9 + 1 + 8 * ws.length = d.pos + (10 + 8 * ws.length) := by omega
  dsimp only at hraw
  rw [puts_puts, List.singleton_append, hindex] at hraw
  exact burst_trans (burst_trans hseed (burst_one hlcount)) hraw

/-- R147: the input ends in the seed or before the count. -/
theorem decRuns_seedTruncated {xs : List Byte} (hshort : xs.length ≤ 8) (hst : d.st = .tag)
    (hbase : d.base = s.dec.base) (hreads : DecReads supply s d.pos (0xFF#8 :: xs))
    (hpos : d.pos + (1 + xs.length) = d.len) :
    burst (decStepFrom supply) (xs.length + 2) (decAt s d q) =
      .moves (decAt s (truncated { d with T := 0xFF#8, W := wordOfBytes xs, k := BitVec.ofNat 3 (min xs.length 7),
                                          pos := d.len }) (q.respond (.unpack .trunc))) := by
  by_cases hwhole : xs.length = 8
  · have hbytes : bytesOfWord (wordOfBytes xs) = xs := bytesOfWord_wordOfBytes xs hwhole
    rw [← hbytes] at hreads
    have hseed := decRuns_seedWhole (q := q) hst hbase hreads (by omega)
    have hindex : d.pos + 9 = d.len := by omega
    rw [hindex] at hseed
    rw [hwhole]
    exact burst_trans (m := 9) hseed (burst_one (decStep_truncate rfl (.inr (.inr (.inr (.inl rfl))))))
  · have hpart := decRuns_seedPart (q := q) (by omega) hst hbase hreads hpos.le
    have hmin : min xs.length 7 = xs.length := by omega
    rw [hpos] at hpart
    rw [hmin]
    exact burst_trans (m := xs.length + 1) hpart (burst_one (decStep_truncate rfl (.inr (.inr (.inl rfl)))))

/-- R147: the input ends in the raw bytes. -/
theorem decRuns_rawTruncated {seed : Word} {n : Byte} {ws : List Word} {ys : List Byte} (hmore : ws.length < n.toNat)
    (hshort : ys.length < 8) (hst : d.st = .tag) (hbase : d.base = s.dec.base)
    (hreads : DecReads supply s d.pos (0xFF#8 :: (bytesOfWord seed ++ n :: (bytesOfWords ws ++ ys))))
    (hpos : d.pos + (10 + 8 * ws.length) + ys.length = d.len) (hready : q.sink.readyFor (ws.length + 1) = true) :
    burst (decStepFrom supply) (decLrunSteps ws.length + ys.length + 1) (decAt s d q) =
      .moves (decAt s (truncated { d with
          T := 0xFF#8, W := overwrite (setLane (ws.getLastD seed) 7 (lane seed 7)) ys, k := BitVec.ofNat 3 ys.length,
          rem := BitVec.ofNat 9 (n.toNat - ws.length), pos := d.len })
        ((puts q (seed :: ws)).respond (.unpack .trunc))) := by
  have hsplit : (0xFF#8 :: (bytesOfWord seed ++ n :: (bytesOfWords ws ++ ys))) =
      (0xFF#8 :: (bytesOfWord seed ++ n :: bytesOfWords ws)) ++ ys := by simp
  rw [hsplit] at hreads
  obtain ⟨hreadWords, hreadRest⟩ := (decReads_append _ _ _).mp hreads
  have hlength : (0xFF#8 :: (bytesOfWord seed ++ n :: bytesOfWords ws)).length = 10 + 8 * ws.length := by
    simp
    omega
  rw [hlength] at hreadRest
  have hwords := decRuns_lrunWords (q := q) (r := n.toNat - ws.length) (by omega) hst hbase hreadWords (by omega) hready
  rw [rawState_pos (by omega)] at hwords
  have hpart := decRuns_collect (supply := supply) (s := s) (q := puts q (seed :: ws))
    (w := setLane (ws.getLastD seed) 7 (lane seed 7)) decStep_lraw_collects ys
    (d := { d with T := 0xFF#8, W := setLane (ws.getLastD seed) 7 (lane seed 7), k := 0,
                   rem := BitVec.ofNat 9 (n.toNat - ws.length), pos := d.pos + (10 + 8 * ws.length), st := .lraw })
    (xs := []) rfl hbase (overwrite_nil _).symm rfl (by simpa using hshort) hreadRest (by dsimp only; omega)
  dsimp only at hpart
  rw [List.nil_append, hpos] at hpart
  exact burst_trans (burst_trans hwords hpart) (burst_one (decStep_truncate rfl (.inr (.inr (.inr (.inr rfl))))))

end DecRuns

end Sys2Proof.Proofs
end

section
/-! DEC's instruction rules (R145-R147), and DEC over a whole input (R150, R151): record by record, as `unpack` goes. -/

namespace Sys2Proof.Proofs

open Sys2Proof Sys2Proof.Machine

/-! ### The operands as DEC's input -/

/-- The operands of a record are what DEC reads from its cursor on. -/
theorem decReads_decSupply (i : Instr) (s : State) : DecReads (decSupply i s) s s.dec.pos (encodeRecord i) :=
  decReads_of_getElem _ fun j hj => by
    have hsupply : decSupply i s (s.dec.pos + j) = some (encodeRecord i)[j] := by
      rw [decSupply, if_pos (Nat.le_add_right _ _), Nat.add_sub_cancel_left, List.getElem?_eq_getElem hj]
    simp [decByteAt, decByte, decAt, hsupply]

theorem dec_atRecord {d : Dec} (hst : d.st = .tag) (hpos : d.pos < d.len) : d.atRecord = true := by
  simp [Dec.atRecord, hst, hpos]

/-- A record executed by DEC is a run of its FSM on the operands. -/
theorem exec_record_dec {i : Instr} {s t : State} (hrec : i.isRecord = true) (hturn : s.turn = .dec)
    (hst : s.dec.st = .tag) (hpos : s.dec.pos < s.dec.len)
    (hrun : burst (decStepFrom (decSupply i s)) (recordSteps .dec i) s = .moves t) : exec i s = .next t := by
  rw [exec_of_record hrec, hturn]
  simp only [runRecord, decRecord_of_atRecord (dec_atRecord hst hpos), hrun, BlockStep.outcome_moves]

/-- Idle, DEC has no step. -/
theorem decStep_idle {supply : Nat → Option Byte} {s : State} {d : Dec} {q : Port Word} (hst : d.st = .idle) :
    decStepFrom supply (decAt s d q) = .waits := by
  have hst' : (decAt s d q).dec.st = .idle := hst
  simp only [decStepFrom, hst']

/-- A record cut off by the end of the input is a shorter run, which leaves DEC idle. -/
theorem exec_truncated_dec {i : Instr} {s : State} {k : Nat} {d : Dec} {q : Port Word} (hrec : i.isRecord = true)
    (hturn : s.turn = .dec) (hst : s.dec.st = .tag) (hpos : s.dec.pos < s.dec.len)
    (hrun : burst (decStepFrom (decSupply i s)) k (decAt s s.dec s.decPort) = .moves (decAt s (truncated d) q))
    (hk : k ≤ recordSteps .dec i) : exec i s = .next (decAt s (truncated d) q) :=
  exec_record_dec hrec hturn hst hpos (burst_of_waits hrun (decStep_idle rfl) hk)

/-- Settles O43: `decRuns_sparseRecord` and `decRuns_sparseTruncated` on the operands. -/
theorem decSparseEmitsPlacedWord : Obligations.DecSparseEmitsPlacedWord := by
  unfold Obligations.DecSparseEmitsPlacedWord
  intro s t lits hturn hst h0 hF hlits hpos
  have hreads := decReads_decSupply (.sparse t lits) s
  constructor
  · intro hwhole hready
    exact exec_record_dec rfl hturn hst hpos (decRuns_sparseRecord h0 hF hlits hst rfl hreads hwhole hready)
  · intro hshort
    have hlength : (lits.take (s.dec.len - (s.dec.pos + 1))).length = s.dec.len - (s.dec.pos + 1) := by simp; omega
    have hrun := decRuns_sparseTruncated (q := s.decPort) (xs := lits.take (s.dec.len - (s.dec.pos + 1))) h0 hF
      (by omega) hst rfl ⟨hreads.1, decReads_take hreads.2 _⟩ (by omega)
    rw [hlength] at hrun
    refine exec_truncated_dec rfl hturn hst hpos hrun ?_
    simp only [recordSteps, decSparseSteps]
    omega

/-- Settles O44: `decRuns_zrunRecord` and `decRuns_zrunTruncated` on the operand. -/
theorem decZrunEmitsZeroWords : Obligations.DecZrunEmitsZeroWords := by
  unfold Obligations.DecZrunEmitsZeroWords
  intro s n hturn hst hpos
  have hreads := decReads_decSupply (.zrun n) s
  constructor
  · intro hwhole hready
    have hrun := decRuns_zrunRecord (q := s.decPort) hst rfl hreads hwhole hready
    rw [puts, List.length_replicate] at hrun
    exact exec_record_dec rfl hturn hst hpos hrun
  · intro hshort
    have hrun := decRuns_zrunTruncated (q := s.decPort) hst rfl (decReads_take hreads 1) (by omega)
    exact exec_truncated_dec rfl hturn hst hpos hrun (Nat.le_add_right _ _)

theorem bytesOfWords_append (vs ws : List Word) : bytesOfWords (vs ++ ws) = bytesOfWords vs ++ bytesOfWords ws :=
  List.flatMap_append

/-- The words of an LRUN up to a place inside one of its raw words. -/
theorem bytesOfWords_split {raw : List Word} {m : Nat} (hm : m < raw.length) (w : Word) (r : Nat) :
    bytesOfWords raw = bytesOfWords (raw.take m) ++ (bytesOfWord (raw.getD m w)).take r ++
      ((bytesOfWord (raw.getD m w)).drop r ++ bytesOfWords (raw.drop (m + 1))) := by
  have hword : raw.getD m w = raw[m] := by simp [hm]
  have hsplit : raw = raw.take m ++ raw[m] :: raw.drop (m + 1) := by
    rw [← List.drop_eq_getElem_cons hm, List.take_append_drop]
  conv_lhs => rw [hsplit]
  rw [hword, bytesOfWords_append, bytesOfWords_cons, List.append_assoc (bytesOfWords _),
    ← List.append_assoc (List.take r _), List.take_append_drop]

/-- Settles O45: `decRuns_lrunWords`, `decRuns_seedTruncated` and `decRuns_rawTruncated` on the operands. -/
theorem decLrunEmitsSeedAndRawWords : Obligations.DecLrunEmitsSeedAndRawWords := by
  unfold Obligations.DecLrunEmitsSeedAndRawWords
  intro s seed raw hturn hst hraw hpos
  have hreads : DecReads (decSupply (.lrun seed raw) s) s s.dec.pos
      (0xFF#8 :: (bytesOfWord seed ++ BitVec.ofNat 8 raw.length :: bytesOfWords raw)) :=
    decReads_decSupply (.lrun seed raw) s
  have hcount : (BitVec.ofNat 8 raw.length).toNat = raw.length := Nat.mod_eq_of_lt (by omega)
  refine ⟨fun hwhole hready => ?_, fun hshort => ?_, fun m r hlen hr hm hready => ?_⟩
  · exact exec_record_dec rfl hturn hst hpos (decRuns_lrunWords (r := 0) hcount hst rfl hreads hwhole hready)
  · have hseed := (decReads_append (bytesOfWord seed) _ _).mp hreads.2
    have hlength : ((bytesOfWord seed).take (s.dec.len - (s.dec.pos + 1))).length = s.dec.len - (s.dec.pos + 1) := by
      simp
      omega
    have hrun := decRuns_seedTruncated (q := s.decPort) (xs := (bytesOfWord seed).take (s.dec.len - (s.dec.pos + 1)))
      (by omega) hst rfl ⟨hreads.1, decReads_take hseed.1 _⟩ (by omega)
    rw [hlength] at hrun
    refine exec_truncated_dec rfl hturn hst hpos hrun ?_
    simp only [recordSteps, decLrunSteps]
    omega
  · have hwords : (raw.take m).length = m := by simp; omega
    have hbytes : ((bytesOfWord (raw.getD m seed)).take r).length = r := by simp; omega
    have hsplit : (0xFF#8 :: (bytesOfWord seed ++ BitVec.ofNat 8 raw.length :: bytesOfWords raw)) =
        (0xFF#8 :: (bytesOfWord seed ++ BitVec.ofNat 8 raw.length ::
          (bytesOfWords (raw.take m) ++ (bytesOfWord (raw.getD m seed)).take r))) ++
        ((bytesOfWord (raw.getD m seed)).drop r ++ bytesOfWords (raw.drop (m + 1))) := by
      rw [bytesOfWords_split hm seed r]
      simp only [List.append_assoc, List.cons_append]
    rw [hsplit] at hreads
    have hrun := decRuns_rawTruncated (q := s.decPort) (ws := raw.take m) (ys := (bytesOfWord (raw.getD m seed)).take r)
      (n := BitVec.ofNat 8 raw.length) (by omega) (by omega) hst rfl
      ((decReads_append _ _ _).mp hreads).1 (by omega) (by rwa [hwords])
    rw [hwords, hbytes, hcount, overwrite, hbytes, puts, List.length_cons, hwords] at hrun
    refine exec_truncated_dec rfl hturn hst hpos hrun ?_
    simp only [recordSteps, decLrunSteps]
    omega

/-! ### A whole input (R130, R150, R151) -/

section WholeInput

variable {supply : Nat → Option Byte} {s : State} {d : Dec} {q : Port Word}

/-- DEC decodes a whole record at its cursor, in at most as many steps as the record has bytes and words. -/
theorem decRuns_record {i : Instr} {p : Params} (hrec : i.isRecord = true) (hwf : i.wellFormed p = true)
    (hst : d.st = .tag) (hbase : d.base = s.dec.base) (hreads : DecReads supply s d.pos (encodeRecord i))
    (hpos : d.pos + (encodeRecord i).length ≤ d.len) (hready : q.sink.readyFor (recordWords i).length = true) :
    ∃ (k : Nat) (d' : Dec), burst (decStepFrom supply) k (decAt s d q) = .moves (decAt s d' (puts q (recordWords i))) ∧
      k ≤ (encodeRecord i).length + (recordWords i).length ∧ d'.st = .tag ∧ d'.base = d.base ∧ d'.len = d.len ∧
      d'.pos = d.pos + (encodeRecord i).length := by
  cases i with
  | zrun n =>
    rw [recordWords, List.length_replicate] at hready
    refine ⟨_, _, decRuns_zrunRecord hst hbase hreads hpos hready, ?_, rfl, rfl, rfl, rfl⟩
    simp [decZrunSteps, encodeRecord, recordWords, zrunWords]
  | lrun seed raw =>
    have hlength := length_encodeRecord_lrun seed raw
    have hraw : raw.length ≤ Config.runMax := by simpa [Instr.wellFormed] using hwf
    have hcount : (BitVec.ofNat 8 raw.length).toNat = raw.length := Nat.mod_eq_of_lt (Nat.lt_succ_of_le hraw)
    rw [hlength] at hpos ⊢
    refine ⟨_, _, decRuns_lrunWords (r := 0) hcount hst hbase hreads hpos hready, ?_, rfl, rfl, rfl, rfl⟩
    simp [decLrunSteps]
  | sparse t lits =>
    simp only [Instr.wellFormed, Bool.and_eq_true, bne_iff_ne, beq_iff_eq] at hwf
    obtain ⟨⟨h0, hF⟩, hlits⟩ := hwf
    have hlength : (encodeRecord (.sparse t lits)).length = 1 + popCount t := by
      rw [encodeRecord, List.length_cons, hlits, Nat.add_comm]
    rw [hlength] at hpos ⊢
    exact ⟨_, _, decRuns_sparseRecord h0 hF hlits hst hbase hreads hpos hready, Nat.le_add_right _ _, rfl, rfl, rfl, rfl⟩
  | _ => cases hrec

/-- DEC has ended its command: the words and the status delivered, the status latched, idle. -/
def DecEnds (supply : Nat → Option Byte) (s : State) (d : Dec) (q : Port Word) (bound : Nat) (ws : List Word)
    (status : Status) : Prop :=
  ∃ (k : Nat) (d' : Dec), burst (decStepFrom supply) k (decAt s d q) =
      .moves (decAt s d' ((puts q ws).respond (.unpack status))) ∧
    k ≤ bound ∧ d'.st = .idle ∧ d'.last = status

theorem decEnds_silent {k bound : Nat} {d' : Dec} {status : Status}
    (hrun : burst (decStepFrom supply) k (decAt s d q) = .moves (decAt s d' (q.respond (.unpack status))))
    (hk : k ≤ bound) (hst : d'.st = .idle) (hlast : d'.last = status) : DecEnds supply s d q bound [] status :=
  ⟨k, d', by rw [hrun, puts_nil], hk, hst, hlast⟩

/-- DEC over an input that ends inside the record at its cursor. -/
theorem decRuns_truncated {bytes ys : List Byte} {ws : List Word} (h : Truncated bytes ws ys) (hst : d.st = .tag)
    (hbase : d.base = s.dec.base) (hreads : DecReads supply s d.pos bytes) (hpos : d.pos + bytes.length = d.len)
    (hready : q.sink.readyFor ws.length = true) :
    DecEnds supply s d q (bytes.length + ws.length + 1) ws .trunc := by
  cases h with
  | zrun =>
    exact decEnds_silent (decRuns_zrunTruncated hst hbase hreads hpos) le_rfl rfl rfl
  | sparse h0 hF hshort =>
    rw [List.length_cons] at hpos
    exact decEnds_silent (decRuns_sparseTruncated h0 hF hshort hst hbase hreads (by omega)) le_rfl rfl rfl
  | seed hshort =>
    rw [List.length_cons] at hpos
    exact decEnds_silent (decRuns_seedTruncated hshort hst hbase hreads (by omega)) le_rfl rfl rfl
  | @raw seed n ws ys hmore hshort =>
    have hlength : (0xFF#8 :: (bytesOfWord seed ++ n :: (bytesOfWords ws ++ ys))).length =
        10 + 8 * ws.length + ys.length := by
      simp
      omega
    rw [hlength] at hpos ⊢
    refine ⟨_, _, decRuns_rawTruncated hmore hshort hst hbase hreads (by omega) hready, ?_, rfl, rfl⟩
    simp only [decLrunSteps]
    omega

/-- R144: the input is exhausted at a record boundary. -/
theorem decRuns_exhausted (hst : d.st = .tag) (hpos : d.pos = d.len) (bound : Nat) :
    DecEnds supply s d q (bound + 1) [] .ok :=
  decEnds_silent (burst_one ((decStepFrom_tag_of_exhausted hpos hst supply).trans (commitDec_of_emit_none _ rfl)))
    (Nat.le_add_left 1 bound) rfl rfl

/-- DEC over the bytes that are left emits the words `unpack` finds in them and responds with its status. -/
theorem decRuns_unpack (n : Nat) : ∀ {d : Dec} {q : Port Word} {bytes : List Byte}, bytes.length ≤ n → d.st = .tag →
    d.base = s.dec.base → DecReads supply s d.pos bytes → d.pos + bytes.length = d.len →
    q.sink.readyFor (unpackFuel n bytes []).1.length = true →
    DecEnds supply s d q (bytes.length + (unpackFuel n bytes []).1.length + 1) (unpackFuel n bytes []).1
      (unpackFuel n bytes []).2 := by
  induction n with
  | zero =>
    intro d q bytes hlen hst _ _ hpos _
    cases List.length_eq_zero_iff.mp (Nat.le_zero.mp hlen)
    exact decRuns_exhausted hst hpos _
  | succ n ih =>
    intro d q bytes hlen hst hbase hreads hpos hready
    cases bytes with
    | nil => exact decRuns_exhausted hst hpos _
    | cons b r =>
      rcases decodes_or_truncated b r with ⟨i, rest, hdec⟩ | ⟨ws, ys, htrunc⟩
      · obtain ⟨hwf, hbytes⟩ := recordDecodingIsExact Config.exampleParams _ _ _ hdec
        have hrec := isRecord_of_decodeRecord hdec
        have hfirst := length_encodeRecord_pos hrec
        have hlength := congrArg List.length hbytes
        rw [List.length_append] at hlength
        have hrest : rest.length ≤ n := by omega
        rw [unpackFuel_of_decodeRecord hdec, List.nil_append, unpackFuel_acc n rest _ hrest] at hready ⊢
        rw [List.length_append] at hready ⊢
        obtain ⟨hreadyRecord, hreadyRest⟩ := readyFor_puts hready
        rw [← hbytes] at hreads
        obtain ⟨hreadRecord, hreadRest⟩ := (decReads_append _ _ _).mp hreads
        obtain ⟨k, d', hrun, hk, hst', hbase', hlen', hpos'⟩ :=
          decRuns_record hrec hwf hst hbase hreadRecord (by omega) hreadyRecord
        rw [← hpos'] at hreadRest
        obtain ⟨k', d'', hrun', hk', hdone⟩ :=
          ih hrest hst' (hbase'.trans hbase) hreadRest (by omega) hreadyRest
        refine ⟨k + k', d'', ?_, by omega, hdone⟩
        rw [burst_trans hrun hrun', puts_puts]
      · rw [unpackFuel_of_truncated htrunc, List.nil_append] at hready ⊢
        exact decRuns_truncated htrunc hst hbase hreads hpos hready

end WholeInput

theorem decReads_of_bytesAt {s : State} {p : List Byte} (h : BytesAt s s.dec.base p) :
    DecReads (fun _ => none) s 0 p :=
  decReads_of_getElem p fun j hj => by
    rw [Nat.zero_add]
    exact h j hj

/-- Settles O48: the run of `decRuns_unpack`. -/
theorem decoderEmitsUnpack : Obligations.DecoderEmitsUnpack := by
  unfold Obligations.DecoderEmitsUnpack
  intro s p hst hpos hlen hbytes hready
  have hreads := decReads_of_bytesAt hbytes
  rw [← hpos] at hreads
  obtain ⟨k, d, hrun, hk, hidle, hlast⟩ := decRuns_unpack (q := s.decPort) p.length le_rfl hst rfl hreads
    (by omega) hready
  rw [decAt_self] at hrun
  exact ⟨_, burst_of_waits hrun (decStep_idle hidle) hk, rfl, hidle, hlast, rfl⟩

end Sys2Proof.Proofs
end

section
/-! The work of one transaction (R180): every step takes from a measure of the bytes that are missing and of the tokens
that may be pulled before them. -/

namespace Sys2Proof.Proofs

open Sys2Proof Sys2Proof.Machine

/-- The tokens that words of together `m` bytes, or the last of them in part, can take: ten a word at most (R90). -/
def tokensOf (m : Nat) : Nat := 10 * ((m + 7) / 8)

/-- The tokens an SRD may pull, besides raw bytes it passes through, before `m` more bytes are delivered. -/
def pullsLeft (r : Srd) (m : Nat) : Nat :=
  match r.st with
  | .tag => tokensOf m
  | .bytes => tokensOf m - (1 + r.idx.toNat)
  | .zeroCount => tokensOf m - 1
  | .emitZeros => tokensOf (m - r.rem.toNat)
  | .litWord => tokensOf m - (1 + r.idx.toNat)
  | .litCount => tokensOf m - 9
  | .emitWord => tokensOf (m - (8 - r.idx.toNat))
  | .emitLiterals => tokensOf m
  | .done => 0
  | .error => 0

/-- The steps an SRD may take before its transaction ends. -/
def workLeft (r : Srd) : Nat := if r.busy then r.K - r.n + pullsLeft r (r.K - r.n) else 0

section PullsLeft

variable {r : Srd}

theorem pullsLeft_tag (h : r.st = .tag) (m : Nat) : pullsLeft r m = tokensOf m := by simp only [pullsLeft, h]

theorem pullsLeft_bytes (h : r.st = .bytes) (m : Nat) : pullsLeft r m = tokensOf m - (1 + r.idx.toNat) := by
  simp only [pullsLeft, h]

theorem pullsLeft_zeroCount (h : r.st = .zeroCount) (m : Nat) : pullsLeft r m = tokensOf m - 1 := by
  simp only [pullsLeft, h]

theorem pullsLeft_emitZeros (h : r.st = .emitZeros) (m : Nat) : pullsLeft r m = tokensOf (m - r.rem.toNat) := by
  simp only [pullsLeft, h]

theorem pullsLeft_litWord (h : r.st = .litWord) (m : Nat) : pullsLeft r m = tokensOf m - (1 + r.idx.toNat) := by
  simp only [pullsLeft, h]

theorem pullsLeft_litCount (h : r.st = .litCount) (m : Nat) : pullsLeft r m = tokensOf m - 9 := by
  simp only [pullsLeft, h]

theorem pullsLeft_emitWord (h : r.st = .emitWord) (m : Nat) : pullsLeft r m = tokensOf (m - (8 - r.idx.toNat)) := by
  simp only [pullsLeft, h]

theorem pullsLeft_emitLiterals (h : r.st = .emitLiterals) (m : Nat) : pullsLeft r m = tokensOf m := by
  simp only [pullsLeft, h]

theorem pullsLeft_le (r : Srd) (m : Nat) : pullsLeft r m ≤ tokensOf m := by
  unfold pullsLeft tokensOf
  split <;> omega

/-- A word's tokens are spent on it: without its 8 bytes, ten fewer are left. -/
theorem tokensOf_sub_eight {m : Nat} (hm : 1 ≤ m) : tokensOf (m - 8) + 10 = tokensOf m := by
  unfold tokensOf
  omega

theorem tokensOf_mono {m n : Nat} (h : m ≤ n) : tokensOf m ≤ tokensOf n := by
  unfold tokensOf
  omega

variable {m : Nat}

theorem pullsLeft_srdEmitZeros (h : SrdFsmInv r) (hst : r.st = .emitZeros) (m : Nat) :
    pullsLeft (srdEmitZeros r).1 (m - 1) = pullsLeft r m := by
  obtain ⟨hpos, -⟩ := h.emitZeros hst
  rw [pullsLeft_emitZeros hst]
  by_cases hone : r.rem = 1
  · have hrem : r.rem.toNat = 1 := by rw [hone]; rfl
    rw [pullsLeft_tag (by simp only [srdEmitZeros, hone, if_true]), hrem]
  · have hpred : (srdEmitZeros r).1.rem.toNat = r.rem.toNat - 1 := toNat_pred_of_pos hpos
    rw [pullsLeft_emitZeros (by simp only [srdEmitZeros, hone, if_false]), hpred]
    congr 1
    omega

theorem pullsLeft_srdEmitWord (hst : r.st = .emitWord) (m : Nat) :
    pullsLeft (srdEmitWord r).1 (m - 1) = pullsLeft r m := by
  rw [pullsLeft_emitWord hst]
  by_cases hlast : r.idx.toNat = 7
  · by_cases hrem : r.rem = 0
    · rw [pullsLeft_tag (by simp only [srdEmitWord, hlast, hrem, if_true]), hlast]
    · rw [pullsLeft_emitLiterals (by simp only [srdEmitWord, hlast, hrem, if_true, if_false]), hlast]
  · have hlt := r.idx.isLt
    have hidx : (srdEmitWord r).1.idx.toNat = r.idx.toNat + 1 := by
      simp only [srdEmitWord, hlast, if_false]
      exact toNat_succ_of_lt (by omega)
    rw [pullsLeft_emitWord (by simp only [srdEmitWord, hlast, if_false, hst]), hidx]
    congr 1
    omega

theorem pullsLeft_srdEmitLiterals (b : Byte) (m : Nat) : pullsLeft (srdEmitLiterals r b).1 m ≤ tokensOf m :=
  pullsLeft_le _ _

/-- A step that emits nothing on a byte takes from the tokens that are left. -/
theorem pullsLeft_srdTag (b : Byte) (hst : r.st = .tag) (hm : 1 ≤ m) :
    pullsLeft (srdTag r b).1 m < pullsLeft r m := by
  have htokens := tokensOf_sub_eight hm
  rw [pullsLeft_tag hst, srdTag]
  split_ifs
  · rw [pullsLeft_zeroCount rfl]; omega
  · rw [pullsLeft_litWord rfl]; omega
  · rw [pullsLeft_bytes rfl]; omega

theorem pullsLeft_srdBytes (h : SrdFsmInv r) (hst : r.st = .bytes) (b : Byte) (hm : 1 ≤ m) :
    pullsLeft (srdBytes r b).1 m < pullsLeft r m := by
  obtain ⟨-, hcount, hidx, -⟩ := h.bytes hst
  have htokens := tokensOf_sub_eight hm
  rw [pullsLeft_bytes hst]
  by_cases hlast : r.idx.toNat + 1 = popCount r.T
  · have hword : (srdBytes r b).1.idx = 0 := by simp only [srdBytes, hlast, if_true]
    rw [pullsLeft_emitWord (by simp only [srdBytes, hlast, if_true]), hword]
    show tokensOf (m - 8) < _
    omega
  · have hnext : (srdBytes r b).1.idx.toNat = r.idx.toNat + 1 := by
      simp only [srdBytes, hlast, if_false]
      exact toNat_succ_of_lt (by omega)
    rw [pullsLeft_bytes (by simp only [srdBytes, hlast, if_false, hst]), hnext]
    omega

theorem pullsLeft_srdZeroCount (hst : r.st = .zeroCount) (b : Byte) (hm : 1 ≤ m) :
    pullsLeft (srdZeroCount r b).1 m < pullsLeft r m := by
  have htokens := tokensOf_sub_eight hm
  have hrem : (srdZeroCount r b).1.rem.toNat = 8 * (b.toNat + 1) := toNat_zeroCount b
  have hle : tokensOf (m - 8 * (b.toNat + 1)) ≤ tokensOf (m - 8) := tokensOf_mono (by omega)
  rw [pullsLeft_zeroCount hst, pullsLeft_emitZeros rfl, hrem]
  omega

theorem pullsLeft_srdLitWord (hst : r.st = .litWord) (b : Byte) (hm : 1 ≤ m) :
    pullsLeft (srdLitWord r b).1 m < pullsLeft r m := by
  have htokens := tokensOf_sub_eight hm
  have hlt := r.idx.isLt
  rw [pullsLeft_litWord hst]
  by_cases hlast : r.idx.toNat = 7
  · rw [pullsLeft_litCount (by simp only [srdLitWord, hlast, if_true])]
    omega
  · have hnext : (srdLitWord r b).1.idx.toNat = r.idx.toNat + 1 := by
      simp only [srdLitWord, hlast, if_false]
      exact toNat_succ_of_lt (by omega)
    rw [pullsLeft_litWord (by simp only [srdLitWord, hlast, if_false, hst]), hnext]
    omega

theorem pullsLeft_srdLitCount (hst : r.st = .litCount) (b : Byte) (hm : 1 ≤ m) :
    pullsLeft (srdLitCount r b).1 m < pullsLeft r m := by
  have htokens := tokensOf_sub_eight hm
  rw [pullsLeft_litCount hst, pullsLeft_emitWord rfl]
  show tokensOf (m - 8) < _
  omega

/-- Every rule but the terminal ones takes from the bytes that are missing and the tokens that are left. -/
theorem work_decreases {r' : Srd} {src rest : List Token} {item : Option Byte} (h : SrdFsmInv r)
    (hrule : SrdRuleCase r src r' item rest) (hterm : r'.isTerminal = false) (hm : 1 ≤ m) :
    m - item.toList.length + pullsLeft r' (m - item.toList.length) < m + pullsLeft r m := by
  cases hrule with
  | emitZeros hst => exact (pullsLeft_srdEmitZeros h hst m).symm ▸ Nat.add_lt_add_right (Nat.sub_lt hm Nat.one_pos) _
  | emitWord hst => exact (pullsLeft_srdEmitWord hst m).symm ▸ Nat.add_lt_add_right (Nat.sub_lt hm Nat.one_pos) _
  | emitLiterals hst =>
    rw [pullsLeft_emitLiterals hst]
    exact Nat.add_lt_add_of_lt_of_le (Nat.sub_lt hm Nat.one_pos)
      ((pullsLeft_srdEmitLiterals _ _).trans (tokensOf_mono (Nat.sub_le _ _)))
  | tag hst => exact Nat.add_lt_add_left (pullsLeft_srdTag _ hst hm) m
  | bytes hst => exact Nat.add_lt_add_left (pullsLeft_srdBytes h hst _ hm) m
  | zeroCount hst => exact Nat.add_lt_add_left (pullsLeft_srdZeroCount hst _ hm) m
  | litWord hst => exact Nat.add_lt_add_left (pullsLeft_srdLitWord hst _ hm) m
  | litCount hst => exact Nat.add_lt_add_left (pullsLeft_srdLitCount hst _ hm) m
  | eof hst =>
    unfold srdOnEnd at hterm
    split at hterm <;> cases hterm
  | err hst => cases hterm

end PullsLeft

/-- Every step of a transaction takes from its work. -/
theorem workLeft_unitStep {p : Params} {u v : SrdUnit} (h : SrdInv p u.regs) (hstep : srdUnitStep u = some v) :
    workLeft v.regs < workLeft u.regs := by
  obtain ⟨hbusy, r, item, src, q, hrule, -, rfl⟩ := srdUnitStep_some u v hstep
  have hcase := srdRuleCase_of_rule hrule
  obtain ⟨hK, hn, -⟩ := srdRule_frame hcase
  have hroom := (h.busy hbusy).1
  by_cases hopen : (r.counting item).finish.busy = true
  · have hterm : r.isTerminal = false := by
      rw [finish_busy] at hopen
      simp only [Bool.and_eq_true, Bool.not_eq_true'] at hopen
      rw [← counting_isTerminal r item]
      exact hopen.1.2
    have hwork := work_decreases (m := u.regs.K - u.regs.n) (.of_srdInv h) hcase hterm (by omega)
    have hpulls : ∀ m, pullsLeft (r.counting item).finish m = pullsLeft r m := by
      intro m
      unfold Srd.finish Srd.counting
      split_ifs <;> rfl
    rw [workLeft, workLeft, if_pos hopen, if_pos hbusy, hpulls, finish_n, finish_K, counting_n, counting_K, hn, hK,
      ← Nat.sub_sub]
    exact hwork
  · rw [workLeft, workLeft, if_neg hopen, if_pos hbusy]
    omega

/-- A unit with no more work left than steps has no step after them. -/
theorem srdUnitStep_burst_of_workLeft_le {p : Params} (k : Nat) : ∀ {u : SrdUnit}, SrdInv p u.regs →
    workLeft u.regs ≤ k → srdUnitStep (srdUnitBurst k u) = none := by
  induction k with
  | zero =>
    intro u h hwork
    rw [srdUnitBurst]
    cases hstep : srdUnitStep u with
    | none => rfl
    | some v =>
      have hless := workLeft_unitStep h hstep
      omega
  | succ k ih =>
    intro u h hwork
    cases hstep : srdUnitStep u with
    | none => rw [srdUnitBurst_of_no_step hstep, hstep]
    | some v =>
      have hless := workLeft_unitStep h hstep
      simp only [srdUnitBurst, hstep]
      exact ih (srdInv_unitStep h hstep) (by omega)

theorem src_srdUnitStep_le {u v : SrdUnit} (hstep : srdUnitStep u = some v) : u.src.length ≤ v.src.length + 1 := by
  obtain ⟨-, r, item, src, q, hrule, -, rfl⟩ := srdUnitStep_some u v hstep
  rcases srdRule_src hrule with rfl | rfl
  · exact Nat.le_succ _
  · rw [List.length_drop]; omega

theorem src_srdUnitBurst_le (k : Nat) : ∀ u : SrdUnit, u.src.length ≤ (srdUnitBurst k u).src.length + k := by
  induction k with
  | zero => exact fun u => le_rfl
  | succ k ih =>
    intro u
    cases hstep : srdUnitStep u with
    | none => rw [srdUnitBurst_of_no_step hstep]; omega
    | some v =>
      have hone := src_srdUnitStep_le hstep
      have hrest := ih v
      simp only [srdUnitBurst, hstep]
      omega

/-- An open transaction ends, or waits for the source or the consumer, within the bound of R180. -/
theorem workLeft_le_workBound {r : Srd} (hn : r.n = 0) : workLeft r ≤ workBound r.K := by
  have hpulls := pullsLeft_le r r.K
  unfold workLeft workBound
  unfold tokensOf at hpulls
  rw [hn, Nat.sub_zero]
  split <;> omega

/-- Settles O56: the work left at the start is within the bound, and every step takes from it. -/
theorem sreadWorkIsBounded : Obligations.SreadWorkIsBounded := by
  unfold Obligations.SreadWorkIsBounded
  intro p u h _ hn
  exact ⟨srdUnitStep_burst_of_workLeft_le _ h (workLeft_le_workBound hn), src_srdUnitBurst_le _ u⟩

end Sys2Proof.Proofs
end

section
/-! Runs of SRD's step rule, record by record (R165-R173, R175-R177), and what they are on a unit with an open
transaction (R163, R164). -/

namespace Sys2Proof.Proofs

open Sys2Proof Sys2Proof.Machine

/-! ### The rule does not see the transaction -/

/-- SRD's registers with those of a transaction replaced. -/
def inTransaction (r : Srd) (K n : Nat) (busy : Bool) : Srd := { r with K := K, n := n, busy := busy }

theorem inTransaction_self {r : Srd} (h : r.busy = true) : inTransaction r r.K r.n true = r := by
  rw [← h]
  rfl

section InTransaction

variable (r : Srd) (K n : Nat) (busy : Bool)

@[simp] theorem inTransaction_isTerminal : (inTransaction r K n busy).isTerminal = r.isTerminal := rfl

theorem srdTag_inTransaction (b : Byte) :
    srdTag (inTransaction r K n busy) b = (inTransaction (srdTag r b).1 K n busy, (srdTag r b).2) := by
  unfold srdTag
  split_ifs <;> rfl

theorem srdBytes_inTransaction (b : Byte) :
    srdBytes (inTransaction r K n busy) b = (inTransaction (srdBytes r b).1 K n busy, (srdBytes r b).2) := by
  by_cases hlast : r.idx.toNat + 1 = popCount r.T
  · simp only [srdBytes, inTransaction, hlast, if_true]
  · simp only [srdBytes, inTransaction, hlast, if_false]

theorem srdLitWord_inTransaction (b : Byte) :
    srdLitWord (inTransaction r K n busy) b = (inTransaction (srdLitWord r b).1 K n busy, (srdLitWord r b).2) := by
  by_cases hlast : r.idx.toNat = 7
  · simp only [srdLitWord, inTransaction, hlast, if_true]
  · simp only [srdLitWord, inTransaction, hlast, if_false]

theorem srdEmitWord_inTransaction :
    srdEmitWord (inTransaction r K n busy) = (inTransaction (srdEmitWord r).1 K n busy, (srdEmitWord r).2) := by
  by_cases hlast : r.idx.toNat = 7
  · simp only [srdEmitWord, inTransaction, hlast, if_true]
    rfl
  · simp only [srdEmitWord, inTransaction, hlast, if_false]

theorem srdOnByte_inTransaction (b : Byte) : srdOnByte (inTransaction r K n busy) b =
    (srdOnByte r b).map fun x => (inTransaction x.1 K n busy, x.2) := by
  have hst : (inTransaction r K n busy).st = r.st := rfl
  cases h : r.st <;> simp only [srdOnByte, hst, h, Option.map_some, Option.map_none]
  case tag => rw [srdTag_inTransaction]
  case bytes => rw [srdBytes_inTransaction]
  case litWord => rw [srdLitWord_inTransaction]
  case zeroCount => rfl
  case litCount => rfl
  case emitLiterals => rfl

/-- The rule of a consuming state on a byte. -/
theorem srdRule_byte_of_consuming {r : Srd} (h : Consuming r.st) (b : Byte) (rest : List Token) :
    srdRule r (.byte b :: rest) = (srdOnByte r b).map fun x => (x.1, x.2, rest) := by
  rcases h with h | h | h | h | h | h <;> simp only [srdRule, h]

/-- The rule of a consuming state on `End` (R165). -/
theorem srdRule_eof_of_consuming {r : Srd} (h : Consuming r.st) (rest : List Token) :
    srdRule r (.eof :: rest) = some (srdOnEnd r, none, rest) := by
  rcases h with h | h | h | h | h | h <;> simp only [srdRule, h]

theorem srdOnEnd_inTransaction : srdOnEnd (inTransaction r K n busy) = inTransaction (srdOnEnd r) K n busy := by
  have hst : (inTransaction r K n busy).st = r.st := rfl
  unfold srdOnEnd
  rw [hst]
  split <;> rfl

/-- The registers of the transaction play no part in a step rule. -/
theorem srdRule_inTransaction (src : List Token) : srdRule (inTransaction r K n busy) src =
    (srdRule r src).map fun x => (inTransaction x.1 K n busy, x.2) := by
  have hst : (inTransaction r K n busy).st = r.st := rfl
  have hconsuming : Consuming r.st → srdRule (inTransaction r K n busy) src =
      (srdRule r src).map fun x => (inTransaction x.1 K n busy, x.2) := by
    intro h
    have h' : Consuming (inTransaction r K n busy).st := h
    rcases src with _ | ⟨b | _ | e, rest⟩
    · rw [srdRule_of_no_token h, srdRule_of_no_token h', Option.map_none]
    · rw [srdRule_byte_of_consuming h, srdRule_byte_of_consuming h', srdOnByte_inTransaction, Option.map_map,
        Option.map_map]
      rfl
    · rw [srdRule_eof_of_consuming h, srdRule_eof_of_consuming h', srdOnEnd_inTransaction, Option.map_some]
    · rw [srdRule_err_of_consuming h, srdRule_err_of_consuming h', Option.map_some]
      rfl
  unfold Consuming at hconsuming
  cases h : r.st
  case emitZeros => simp only [srdRule, hst, h, Option.map_some]; rfl
  case emitWord => simp only [srdRule, hst, h, srdEmitWord_inTransaction, Option.map_some]
  case done => simp only [srdRule, hst, h, Option.map_none]
  case error => simp only [srdRule, hst, h, Option.map_none]
  all_goals exact hconsuming (by simp [h])

end InTransaction

/-! ### Runs of the rule -/

/-- `k` steps of SRD's rule, with the bytes they emit. -/
inductive Runs : Nat → Srd → List Token → List Byte → Srd → List Token → Prop
  | refl {r : Srd} {src : List Token} : Runs 0 r src [] r src
  | step {k : Nat} {r r₁ r' : Srd} {src src₁ src' : List Token} {item : Option Byte} {out : List Byte}
      (hrule : srdRule r src = some (r₁, item, src₁)) (hrest : Runs k r₁ src₁ out r' src') :
      Runs (k + 1) r src (item.toList ++ out) r' src'

section Runs

variable {r r₁ r' : Srd} {src src₁ src' : List Token} {out out₁ : List Byte} {k k₁ : Nat}

theorem Runs.silent (hrule : srdRule r src = some (r₁, none, src₁)) (hrest : Runs k r₁ src₁ out r' src') :
    Runs (k + 1) r src out r' src' := .step hrule hrest

theorem Runs.emit {b : Byte} (hrule : srdRule r src = some (r₁, some b, src₁)) (hrest : Runs k r₁ src₁ out r' src') :
    Runs (k + 1) r src (b :: out) r' src' := .step hrule hrest

theorem Runs.trans (h : Runs k₁ r src out₁ r₁ src₁) (h' : Runs k r₁ src₁ out r' src') :
    Runs (k₁ + k) r src (out₁ ++ out) r' src' := by
  induction h with
  | refl => rwa [Nat.zero_add]
  | step hrule _ ih =>
    rw [Nat.add_right_comm, List.append_assoc]
    exact .step hrule (ih h')

/-- A run whose last step emits a byte. -/
inductive RunsToByte : Nat → Srd → List Token → List Byte → Srd → List Token → Prop
  | intro {k : Nat} {r r₁ r' : Srd} {src src₁ src' : List Token} {b : Byte} {out : List Byte}
      (hruns : Runs k r src out r₁ src₁) (hrule : srdRule r₁ src₁ = some (r', some b, src')) :
      RunsToByte (k + 1) r src (out ++ [b]) r' src'

theorem RunsToByte.runs (h : RunsToByte k r src out r' src') : Runs k r src out r' src' := by
  obtain ⟨hruns, hrule⟩ := h
  exact hruns.trans (.emit hrule .refl)

theorem RunsToByte.after (h : Runs k₁ r src out₁ r₁ src₁) (h' : RunsToByte k r₁ src₁ out r' src') :
    RunsToByte (k₁ + k) r src (out₁ ++ out) r' src' := by
  obtain ⟨hruns, hrule⟩ := h'
  rw [← List.append_assoc]
  exact .intro (h.trans hruns) hrule

/-- A run does not start in a terminal state if it does not end in one. -/
theorem Runs.not_terminal (h : Runs k r src out r' src') (hend : r'.isTerminal = false) : r.isTerminal = false := by
  cases h with
  | refl => exact hend
  | step hrule _ =>
    rw [isTerminal_eq_false_iff]
    constructor
    · intro hst
      simp only [srdRule, hst] at hrule
      cases hrule
    · intro hst
      simp only [srdRule, hst] at hrule
      cases hrule

/-! ### A run in an open transaction (R163, R164) -/

variable {K n : Nat} {q : Port Byte}

/-- A step in an open transaction: the rule, the byte counted, and the completion check. -/
theorem unitStep_inTransaction {item : Option Byte} (hrule : srdRule r src = some (r₁, item, src₁)) :
    srdUnitStep ⟨inTransaction r K n true, src, q⟩ =
      (q.commit item (srdCompletion (inTransaction r₁ K (n + item.toList.length) true))).map fun p =>
        ⟨(inTransaction r₁ K (n + item.toList.length) true).finish, src₁, p⟩ := by
  have hcounting : (inTransaction r₁ K n true).counting item = inTransaction r₁ K (n + item.toList.length) true := by
    cases item <;> rfl
  have hbusy : (inTransaction r K n true).busy = true := rfl
  simp only [srdUnitStep, hbusy, if_true, srdRule_inTransaction, hrule, Option.map_some, hcounting]

/-- The completion check of a transaction short of its end. -/
theorem srdCompletion_of_open (hterm : r.isTerminal = false) (hroom : n < K) :
    srdCompletion (inTransaction r K n true) = none ∧
      (inTransaction r K n true).finish = inTransaction r K n true := by
  have hnone : srdCompletion (inTransaction r K n true) = none := by
    have hroom' : ¬ (inTransaction r K n true).n = (inTransaction r K n true).K := hroom.ne
    simp only [srdCompletion, inTransaction_isTerminal, hterm, hroom', if_false, Bool.false_eq_true]
  exact ⟨hnone, by simp [Srd.finish, hnone]⟩

/-- The completion check when the buffer is full (R163). -/
theorem srdCompletion_of_full (hterm : r.isTerminal = false) :
    srdCompletion (inTransaction r K K true) = some (.sread K .ok none) ∧
      (inTransaction r K K true).finish = inTransaction r K K false := by
  have hsome : srdCompletion (inTransaction r K K true) = some (.sread K .ok none) := by
    have hfull : (inTransaction r K K true).n = (inTransaction r K K true).K := rfl
    simp only [srdCompletion, inTransaction_isTerminal, hterm, hfull, if_true, if_false, Bool.false_eq_true]
    rfl
  exact ⟨hsome, by simp [Srd.finish, hsome]; rfl⟩

theorem unitStep_silent (hrule : srdRule r src = some (r₁, none, src₁)) (hterm : r₁.isTerminal = false)
    (hroom : n < K) : srdUnitStep ⟨inTransaction r K n true, src, q⟩ = some ⟨inTransaction r₁ K n true, src₁, q⟩ := by
  obtain ⟨hnone, hfinish⟩ := srdCompletion_of_open hterm hroom
  simp only [unitStep_inTransaction hrule, Option.toList_none, List.length_nil, Nat.add_zero, hnone, hfinish,
    commit_silent, Option.map_some]

/-- The port after a byte of a transaction, with the response if it fills the buffer. -/
def deliver (q : Port Byte) (bs : List Byte) (K n : Nat) : Port Byte :=
  { puts q bs with resp := q.resp ++ if n = K then [.sread K .ok none] else [] }

theorem deliver_of_ne (h : n ≠ K) (bs : List Byte) : deliver q bs K n = puts q bs := by
  rw [deliver, if_neg h, List.append_nil]
  rfl

theorem unitStep_emits {b : Byte} (hrule : srdRule r src = some (r₁, some b, src₁)) (hterm : r₁.isTerminal = false)
    (hroom : n + 1 ≤ K) (hready : q.sink.readyFor 1 = true) :
    srdUnitStep ⟨inTransaction r K n true, src, q⟩ =
      some ⟨inTransaction r₁ K (n + 1) (decide (n + 1 ≠ K)), src₁, deliver q [b] K (n + 1)⟩ := by
  rw [unitStep_inTransaction hrule]
  have hcount : n + (some b).toList.length = n + 1 := rfl
  rw [hcount]
  by_cases hfull : n + 1 = K
  · obtain ⟨hsome, hfinish⟩ := srdCompletion_of_full (K := K) hterm
    rw [hfull, hsome, hfinish, Port.commit_some q b _ ((ready_iff_readyFor _).mpr hready), deliver, if_pos rfl]
    simp [puts, take_eq_takeMany]
  · obtain ⟨hnone, hfinish⟩ := srdCompletion_of_open hterm (Nat.lt_of_le_of_ne hroom hfull)
    rw [hnone, hfinish, commit_emit hready, deliver_of_ne hfull]
    simp [hfull]

theorem srdUnitBurst_of_step {u v : SrdUnit} (hstep : srdUnitStep u = some v) (k : Nat) :
    srdUnitBurst (k + 1) u = srdUnitBurst k v := by
  simp only [srdUnitBurst, hstep]

/-- A run that does not fill the buffer, in an open transaction. -/
theorem burst_of_runs (h : Runs k r src out r' src') : ∀ {n : Nat} {q : Port Byte} (m : Nat), r'.isTerminal = false →
    n + out.length < K → q.sink.readyFor out.length = true →
    srdUnitBurst (k + m) ⟨inTransaction r K n true, src, q⟩ =
      srdUnitBurst m ⟨inTransaction r' K (n + out.length) true, src', puts q out⟩ := by
  induction h with
  | refl =>
    intro n q m _ _ _
    simp
  | @step k r r₁ r' src src₁ src' item out hrule hrest ih =>
    intro n q m hterm hroom hready
    have hterm₁ := hrest.not_terminal hterm
    rw [Nat.add_right_comm]
    cases item with
    | none =>
      rw [srdUnitBurst_of_step (unitStep_silent hrule hterm₁ (Nat.lt_of_le_of_lt (Nat.le_add_right _ _) hroom))]
      exact ih m hterm hroom hready
    | some b =>
      simp only [Option.toList_some, List.singleton_append, List.length_cons] at hroom hready ⊢
      obtain ⟨hone, hmore⟩ := readyFor_puts (as := [b]) (n := out.length) (by rwa [Nat.add_comm] at hready)
      have hopen : n + 1 ≠ K := by omega
      have hcount : n + 1 + out.length = n + (out.length + 1) := by omega
      have hstep := unitStep_emits (n := n) (K := K) hrule hterm₁ (by omega) hone
      rw [deliver_of_ne hopen, decide_eq_true hopen] at hstep
      rw [srdUnitBurst_of_step hstep, ih m hterm (by omega) hmore, puts_puts, List.singleton_append, hcount]

/-- A run that ends in a byte and does not go past the buffer's end: the transaction responds if it is full. -/
theorem burst_of_runsToByte (h : RunsToByte k r src out r' src') (hterm : r'.isTerminal = false)
    (hroom : n + out.length ≤ K) (hready : q.sink.readyFor out.length = true) :
    srdUnitBurst k ⟨inTransaction r K n true, src, q⟩ =
      ⟨inTransaction r' K (n + out.length) (decide (n + out.length ≠ K)), src', deliver q out K (n + out.length)⟩ := by
  obtain @⟨k, _, r₁, _, _, src₁, _, b, out, hruns, hrule⟩ := h
  rw [List.length_append, List.length_singleton] at hroom hready ⊢
  have hterm₁ : r₁.isTerminal = false := (Runs.emit hrule .refl).not_terminal hterm
  obtain ⟨hinit, hlast⟩ := readyFor_puts hready
  rw [burst_of_runs hruns 1 hterm₁ (by omega) hinit]
  have hstep := unitStep_emits (n := n + out.length) (q := puts q out) hrule hterm hroom hlast
  rw [srdUnitBurst_of_step hstep, srdUnitBurst, deliver, puts_puts]
  rfl

end Runs

/-! ### The rules on a byte -/

section Rules

variable {r : Srd} {b : Byte} {src : List Token}

theorem srdRule_tag (hst : r.st = .tag) : srdRule r (.byte b :: src) = some ((srdTag r b).1, none, src) := by
  simp [srdRule, srdOnByte, hst, ← srdTag_emits_none r b]

theorem srdRule_bytes (hst : r.st = .bytes) : srdRule r (.byte b :: src) = some ((srdBytes r b).1, none, src) := by
  simp [srdRule, srdOnByte, hst, ← srdBytes_emits_none r b]

theorem srdRule_zeroCount (hst : r.st = .zeroCount) :
    srdRule r (.byte b :: src) = some ((srdZeroCount r b).1, none, src) := by
  simp [srdRule, srdOnByte, hst, srdZeroCount]

theorem srdRule_litWord (hst : r.st = .litWord) :
    srdRule r (.byte b :: src) = some ((srdLitWord r b).1, none, src) := by
  simp [srdRule, srdOnByte, hst, ← srdLitWord_emits_none r b]

theorem srdRule_litCount (hst : r.st = .litCount) :
    srdRule r (.byte b :: src) = some ((srdLitCount r b).1, none, src) := by
  simp [srdRule, srdOnByte, hst, srdLitCount]

theorem srdRule_emitLiterals (hst : r.st = .emitLiterals) :
    srdRule r (.byte b :: src) = some ((srdEmitLiterals r b).1, some b, src) := by
  simp [srdRule, srdOnByte, hst, srdEmitLiterals]

theorem srdRule_emitWord (hst : r.st = .emitWord) :
    srdRule r src = some ((srdEmitWord r).1, some (lane r.SCR r.idx.toNat), src) := by
  simp [srdRule, hst, srdEmitWord]

theorem srdRule_emitZeros (hst : r.st = .emitZeros) : srdRule r src = some ((srdEmitZeros r).1, some 0, src) := by
  simp [srdRule, hst, srdEmitZeros]

theorem srdTag_sparse (h0 : b ≠ 0x00#8) (hF : b ≠ 0xFF#8) (r : Srd) :
    (srdTag r b).1 = { r with T := b, SCR := 0, idx := 0, st := .bytes } := by
  simp [srdTag, h0, hF]

theorem srdTag_lrun (r : Srd) : (srdTag r 0xFF#8).1 = { r with SCR := 0, idx := 0, st := .litWord } := rfl

end Rules

end Sys2Proof.Proofs
end

section
/-! SRD decodes a record (R175-R177): the runs of its rule on the record's tokens, and the four instruction rules. -/

namespace Sys2Proof.Proofs

open Sys2Proof Sys2Proof.Machine

/-- The state in which SRD has `m` pending bytes of a run to deliver, the given one while there are any. -/
def pendingState (st : SrdSt) (m : Nat) : SrdSt := if m = 0 then .tag else st

theorem pendingState_pos {st : SrdSt} {m : Nat} (h : 0 < m) : pendingState st m = st := if_neg h.ne'

theorem setLane_wordOfBytes (xs : List Byte) (c : Byte) :
    setLane (wordOfBytes xs) xs.length c = wordOfBytes (xs ++ [c]) := by
  rw [← overwrite_zero, ← overwrite_zero, setLane_overwrite]

section SrdRuns

variable {src : List Token}

/-- S_BYTES places literal bytes, short of the last (R167). -/
theorem runs_bytes (bs : List Byte) : ∀ {r : Srd} {xs : List Byte}, r.st = .bytes → r.SCR = place r.T xs →
    r.idx.toNat = xs.length → xs.length + bs.length < popCount r.T → popCount r.T < 8 →
    Runs bs.length r (bs.map Token.byte ++ src) []
      { r with SCR := place r.T (xs ++ bs), idx := BitVec.ofNat 3 (xs ++ bs).length } src := by
  induction bs with
  | nil =>
    intro r xs _ hSCR hidx _ _
    rw [List.append_nil, ← hSCR, ofNat_of_toNat hidx]
    exact .refl
  | cons b bs ih =>
    intro r xs hst hSCR hidx hcount hlt
    simp only [List.length_cons] at hcount
    have hmore : ¬ r.idx.toNat + 1 = popCount r.T := by omega
    have hnext : (r.idx + 1).toNat = r.idx.toNat + 1 := toNat_succ_of_lt (by omega)
    have hplace : setLane r.SCR (pos r.T r.idx.toNat) b = place r.T (xs ++ [b]) := by
      rw [hSCR, hidx, setLane_place (by omega)]
    have hrule := srdRule_bytes (b := b) (src := bs.map Token.byte ++ src) hst
    simp only [srdBytes, hmore, if_false, hplace] at hrule
    have hrun := ih (r := { r with SCR := place r.T (xs ++ [b]), idx := r.idx + 1 }) (xs := xs ++ [b]) hst rfl
      (by dsimp only; rw [hnext, hidx]; simp) (by dsimp only; simp; omega) hlt
    dsimp only at hrun
    rw [List.append_assoc, List.singleton_append] at hrun
    exact .silent hrule hrun

variable {r : Srd}

/-- The tag of a SPARSE record and literal bytes short of its last. -/
theorem runs_sparsePart {b : Byte} {xs : List Byte} (h0 : b ≠ 0x00#8) (hF : b ≠ 0xFF#8)
    (hshort : xs.length < popCount b) (hst : r.st = .tag) :
    Runs (xs.length + 1) r ((b :: xs).map Token.byte ++ src) []
      { r with T := b, SCR := place b xs, idx := BitVec.ofNat 3 xs.length, st := .bytes } src := by
  have htag := srdRule_tag (b := b) (src := xs.map Token.byte ++ src) hst
  rw [srdTag_sparse h0 hF] at htag
  have hrun := runs_bytes (src := src) xs (r := { r with T := b, SCR := 0, idx := 0, st := .bytes }) (xs := []) rfl
    (place_nil b).symm rfl (by simpa using hshort) (popCount_lt_eight hF)
  exact .silent htag hrun

/-- The tag of a SPARSE record and all its literal bytes. -/
theorem runs_sparseWhole {b : Byte} {lits : List Byte} (h0 : b ≠ 0x00#8) (hF : b ≠ 0xFF#8)
    (hlits : lits.length = popCount b) (hst : r.st = .tag) :
    Runs (1 + popCount b) r ((b :: lits).map Token.byte ++ src) []
      { r with T := b, SCR := place b lits, idx := 0, rem := 0, st := .emitWord } src := by
  have hcount := popCount_pos h0
  have hlt := popCount_lt_eight hF
  have hne : lits ≠ [] := List.ne_nil_of_length_pos (by omega)
  obtain ⟨init, last, rfl⟩ : ∃ init last, lits = init ++ [last] := ⟨_, _, (List.dropLast_append_getLast hne).symm⟩
  have hinit : init.length + 1 = popCount b := by simpa using hlits
  have hpart := runs_sparsePart (src := Token.byte last :: src) h0 hF (by omega : init.length < popCount b) hst
  have hidx : (BitVec.ofNat 3 init.length).toNat = init.length := Nat.mod_eq_of_lt (by omega)
  have hlast := srdRule_bytes (b := last) (src := src)
    (r := { r with T := b, SCR := place b init, idx := BitVec.ofNat 3 init.length, st := .bytes }) rfl
  simp only [srdBytes, hidx, hinit, if_true, setLane_place (show init.length < popCount b by omega)] at hlast
  have hrun := hpart.trans (.silent hlast .refl)
  have hsteps : 1 + popCount b = init.length + 1 + 1 := by omega
  rw [hsteps]
  simpa using hrun

/-- S_EMIT_WORD delivers the first bytes of the scratch, short of the last (R172). -/
theorem runs_emitWord (j : Nat) (hst : r.st = .emitWord) (hidx : r.idx = 0) (hj : j ≤ 7) :
    Runs j r src ((bytesOfWord r.SCR).take j) { r with idx := BitVec.ofNat 3 j } src := by
  induction j with
  | zero =>
    have hself : { r with idx := BitVec.ofNat 3 0 } = r := by
      rw [show BitVec.ofNat 3 0 = r.idx from hidx.symm]
    rw [hself]
    exact .refl
  | succ j ih =>
    have hindex : (BitVec.ofNat 3 j).toNat = j := Nat.mod_eq_of_lt (by omega)
    have hrule := srdRule_emitWord (r := { r with idx := BitVec.ofNat 3 j }) (src := src) hst
    have hmore : ¬ j = 7 := by omega
    have hnext : BitVec.ofNat 3 j + 1 = BitVec.ofNat 3 (j + 1) := (BitVec.ofNat_add ..).symm
    simp only [srdEmitWord, hindex, hmore, if_false, hnext] at hrule
    have hlt : j < (bytesOfWord r.SCR).length := by rw [length_bytesOfWord]; omega
    have hlane : (bytesOfWord r.SCR)[j] = lane r.SCR j := by simp [bytesOfWord]
    rw [← List.take_append_getElem hlt, hlane]
    exact (ih (by omega)).trans (.emit hrule .refl)

/-- S_EMIT_WORD delivers the eight bytes of the scratch. -/
theorem runs_emitWord_whole {m : Nat} (hst : r.st = .emitWord) (hidx : r.idx = 0) (hrem : r.rem.toNat = m) :
    RunsToByte 8 r src (bytesOfWord r.SCR) { r with idx := 0, st := pendingState .emitLiterals m } src := by
  have hrule := srdRule_emitWord (r := { r with idx := BitVec.ofNat 3 7 }) (src := src) hst
  have hindex : (BitVec.ofNat 3 7).toNat = 7 := rfl
  have hzero : r.rem = 0 ↔ m = 0 := by
    rw [← hrem, ← BitVec.toNat_inj]
    rfl
  simp only [srdEmitWord, hindex, if_true, hzero] at hrule
  rw [bytesOfWord_eq_take_append]
  exact .intro (runs_emitWord 7 hst hidx le_rfl) hrule

/-- S_EMIT_ZEROS with `m + 1` bytes pending delivers one (R169). -/
theorem srdRule_emitZeros_pending {m : Nat} (hst : r.st = .emitZeros) (hrem : r.rem.toNat = m + 1) :
    srdRule r src =
      some ({ r with rem := BitVec.ofNat 12 m, st := pendingState .emitZeros m }, some 0, src) := by
  have hone : r.rem = 1 ↔ m = 0 := by
    rw [eq_one_iff_toNat (by decide), hrem]
    omega
  have hpred : r.rem - 1 = BitVec.ofNat 12 m := by
    refine (ofNat_of_toNat ?_).symm
    rw [toNat_pred_of_pos (by omega), hrem]
    rfl
  rw [srdRule_emitZeros hst]
  simp only [srdEmitZeros, hone, hpred]
  rfl

/-- S_EMIT_ZEROS delivers zero bytes, with `m` more to come. -/
theorem runs_emitZeros (j : Nat) : ∀ {r : Srd} {m : Nat}, r.st = .emitZeros → r.rem.toNat = j + 1 + m →
    RunsToByte (j + 1) r src (List.replicate (j + 1) 0)
      { r with rem := BitVec.ofNat 12 m, st := pendingState .emitZeros m } src := by
  induction j with
  | zero =>
    intro r m hst hrem
    exact .intro .refl (srdRule_emitZeros_pending hst (by omega))
  | succ j ih =>
    intro r m hst hrem
    have hlt := r.rem.isLt
    have hpending : (BitVec.ofNat 12 (j + 1 + m)).toNat = j + 1 + m := Nat.mod_eq_of_lt (by omega)
    have hrule := srdRule_emitZeros_pending (src := src) (m := j + 1 + m) hst (by omega)
    rw [pendingState_pos (by omega)] at hrule
    have hrun := ih (r := { r with rem := BitVec.ofNat 12 (j + 1 + m), st := .emitZeros }) rfl hpending
    have hsteps : j + 1 + 1 = 1 + (j + 1) := by omega
    rw [List.replicate_succ, hsteps]
    exact .after (.emit hrule .refl) hrun

/-- S_EMIT_LITERALS with `m + 1` bytes pending passes one through (R173). -/
theorem srdRule_emitLiterals_pending {b : Byte} {m : Nat} (hst : r.st = .emitLiterals) (hrem : r.rem.toNat = m + 1) :
    srdRule r (.byte b :: src) =
      some ({ r with rem := BitVec.ofNat 12 m, st := pendingState .emitLiterals m }, some b, src) := by
  have hone : r.rem = 1 ↔ m = 0 := by
    rw [eq_one_iff_toNat (by decide), hrem]
    omega
  have hpred : r.rem - 1 = BitVec.ofNat 12 m := by
    refine (ofNat_of_toNat ?_).symm
    rw [toNat_pred_of_pos (by omega), hrem]
    rfl
  rw [srdRule_emitLiterals hst]
  simp only [srdEmitLiterals, hone, hpred]
  rfl

/-- After a run that ends in a byte, S_EMIT_LITERALS passes raw bytes through, with `m` more to come. -/
theorem RunsToByte.emitLiterals (bs : List Byte) : ∀ {k m : Nat} {r r₁ : Srd} {src₀ : List Token} {out : List Byte},
    r₁.st = pendingState .emitLiterals (bs.length + m) → r₁.rem.toNat = bs.length + m →
    RunsToByte k r src₀ out r₁ (bs.map Token.byte ++ src) → RunsToByte (k + bs.length) r src₀ (out ++ bs)
      { r₁ with rem := BitVec.ofNat 12 m, st := pendingState .emitLiterals m } src := by
  induction bs with
  | nil =>
    intro k m r r₁ src₀ out hst hrem h
    rw [List.length_nil, Nat.zero_add] at hst hrem
    rw [List.append_nil, ofNat_of_toNat hrem, ← hst]
    exact h
  | cons b bs ih =>
    intro k m r r₁ src₀ out hst hrem h
    rw [List.length_cons] at hst hrem
    have hlt := r₁.rem.isLt
    have hpending : (BitVec.ofNat 12 (bs.length + m)).toNat = bs.length + m := Nat.mod_eq_of_lt (by omega)
    have hrule := srdRule_emitLiterals_pending (b := b) (src := bs.map Token.byte ++ src)
      (hst.trans (pendingState_pos (by omega))) (show r₁.rem.toNat = bs.length + m + 1 by omega)
    have hrun := ih (m := m)
      (r₁ := { r₁ with rem := BitVec.ofNat 12 (bs.length + m), st := pendingState .emitLiterals (bs.length + m) }) rfl
      hpending (.intro h.runs hrule)
    have hsteps : k + 1 + bs.length = k + (b :: bs).length := by rw [List.length_cons]; omega
    rw [List.append_assoc, List.singleton_append, hsteps] at hrun
    exact hrun

/-- S_LIT_WORD collects seed bytes, short of the eighth (R170). -/
theorem runs_litWord (bs : List Byte) : ∀ {r : Srd} {xs : List Byte}, r.st = .litWord → r.SCR = wordOfBytes xs →
    r.idx.toNat = xs.length → xs.length + bs.length < 8 →
    Runs bs.length r (bs.map Token.byte ++ src) []
      { r with SCR := wordOfBytes (xs ++ bs), idx := BitVec.ofNat 3 (xs ++ bs).length } src := by
  induction bs with
  | nil =>
    intro r xs _ hSCR hidx _
    rw [List.append_nil, ← hSCR, ofNat_of_toNat hidx]
    exact .refl
  | cons b bs ih =>
    intro r xs hst hSCR hidx hcount
    simp only [List.length_cons] at hcount
    have hmore : ¬ r.idx.toNat = 7 := by omega
    have hnext : (r.idx + 1).toNat = r.idx.toNat + 1 := toNat_succ_of_lt (by omega)
    have hplace : setLane r.SCR r.idx.toNat b = wordOfBytes (xs ++ [b]) := by rw [hSCR, hidx, setLane_wordOfBytes]
    have hrule := srdRule_litWord (b := b) (src := bs.map Token.byte ++ src) hst
    simp only [srdLitWord, hmore, if_false, hplace] at hrule
    have hrun := ih (r := { r with SCR := wordOfBytes (xs ++ [b]), idx := r.idx + 1 }) (xs := xs ++ [b]) hst rfl
      (by dsimp only; rw [hnext, hidx]; simp) (by simp; omega)
    dsimp only at hrun
    rw [List.append_assoc, List.singleton_append] at hrun
    exact .silent hrule hrun

/-- The tag of an LRUN and fewer than eight bytes of its seed. -/
theorem runs_seedPart {xs : List Byte} (hshort : xs.length < 8) (hst : r.st = .tag) :
    Runs (xs.length + 1) r ((0xFF#8 :: xs).map Token.byte ++ src) []
      { r with SCR := wordOfBytes xs, idx := BitVec.ofNat 3 xs.length, st := .litWord } src := by
  have htag := srdRule_tag (b := 0xFF#8) (src := xs.map Token.byte ++ src) hst
  rw [srdTag_lrun] at htag
  have hrun := runs_litWord (src := src) xs (r := { r with SCR := 0, idx := 0, st := .litWord }) (xs := []) rfl
    ((overwrite_nil 0).symm.trans (overwrite_zero [])) rfl (by simpa using hshort)
  exact .silent htag hrun

/-- The tag of an LRUN and its whole seed. -/
theorem runs_seedWhole {seed : Word} (hst : r.st = .tag) :
    Runs 9 r ((0xFF#8 :: bytesOfWord seed).map Token.byte ++ src) []
      { r with SCR := seed, idx := 0, st := .litCount } src := by
  have hseven := length_take_seven seed
  have hpart := runs_seedPart (src := Token.byte (lane seed 7) :: src) (by rw [hseven]; decide) hst
  have hlast := srdRule_litWord (b := lane seed 7) (src := src)
    (r := { r with SCR := wordOfBytes ((bytesOfWord seed).take 7), idx := BitVec.ofNat 3 7, st := .litWord }) rfl
  have hword := setLane_wordOfBytes ((bytesOfWord seed).take 7) (lane seed 7)
  rw [hseven, ← bytesOfWord_eq_take_append, wordOfBytes_bytesOfWord] at hword
  have hidx : (BitVec.ofNat 3 7).toNat = 7 := rfl
  simp only [srdLitWord, hidx, if_true, hword] at hlast
  rw [hseven] at hpart
  rw [bytesOfWord_eq_take_append]
  simpa using hpart.trans (.silent hlast .refl)

/-- The tag, the seed and the count of an LRUN: the seed is about to be emitted, the raw bytes are pending. -/
theorem runs_lrunHead {seed : Word} {n : Byte} (hst : r.st = .tag) :
    Runs 10 r ((0xFF#8 :: (bytesOfWord seed ++ [n])).map Token.byte ++ src) []
      { r with SCR := seed, idx := 0, rem := 8 * n.setWidth 12, st := .emitWord } src := by
  have hseed := runs_seedWhole (src := Token.byte n :: src) (seed := seed) hst
  have hcount : srdRule { r with SCR := seed, idx := 0, st := .litCount } (Token.byte n :: src) =
      some ({ r with SCR := seed, idx := 0, rem := 8 * n.setWidth 12, st := .emitWord }, none, src) :=
    srdRule_litCount rfl
  simpa using hseed.trans (.silent hcount .refl)

/-- The tag and the count of a ZRUN: its zero bytes are pending. -/
theorem runs_zrunHead {n : Byte} (hst : r.st = .tag) :
    Runs 2 r ([0x00#8, n].map Token.byte ++ src) []
      { r with rem := 8 * (n.setWidth 12 + 1), st := .emitZeros } src :=
  .silent (srdRule_tag hst) (.silent (srdRule_zeroCount rfl) .refl)

/-! ### Whole records -/

theorem runs_sparseRecord {b : Byte} {lits : List Byte} (h0 : b ≠ 0x00#8) (hF : b ≠ 0xFF#8)
    (hlits : lits.length = popCount b) (hst : r.st = .tag) :
    RunsToByte (srdSparseSteps b) r ((b :: lits).map Token.byte ++ src) (bytesOfWord (place b lits))
      { r with T := b, SCR := place b lits, idx := 0, rem := 0, st := .tag } src :=
  .after (runs_sparseWhole h0 hF hlits hst) (runs_emitWord_whole (m := 0) rfl rfl rfl)

/-- `j + 1` zero bytes of a ZRUN, with `m` more to come. -/
theorem runs_zrunBytes {n : Byte} {j m : Nat} (hcount : 8 * (n.toNat + 1) = j + 1 + m) (hst : r.st = .tag) :
    RunsToByte (2 + (j + 1)) r ([0x00#8, n].map Token.byte ++ src) (List.replicate (j + 1) 0)
      { r with rem := BitVec.ofNat 12 m, st := pendingState .emitZeros m } src :=
  .after (runs_zrunHead hst) (runs_emitZeros j
    (r := { r with rem := 8 * (n.setWidth 12 + 1), st := .emitZeros }) rfl ((toNat_zeroCount n).trans hcount))

/-- The seed of an LRUN and raw bytes, with `m` more to come. -/
theorem runs_lrunBytes {seed : Word} {n : Byte} {bs : List Byte} {m : Nat} (hcount : 8 * n.toNat = bs.length + m)
    (hst : r.st = .tag) :
    RunsToByte (18 + bs.length) r ((0xFF#8 :: (bytesOfWord seed ++ n :: bs)).map Token.byte ++ src)
      (bytesOfWord seed ++ bs)
      { r with SCR := seed, idx := 0, rem := BitVec.ofNat 12 m, st := pendingState .emitLiterals m } src := by
  have hrem : (8 * n.setWidth 12).toNat = bs.length + m := (toNat_litCount n).trans hcount
  have hhead := runs_lrunHead (src := bs.map Token.byte ++ src) (seed := seed) (n := n) hst
  have hseed := runs_emitWord_whole (src := bs.map Token.byte ++ src)
    (r := { r with SCR := seed, idx := 0, rem := 8 * n.setWidth 12, st := .emitWord }) rfl rfl hrem
  have hsrc : (0xFF#8 :: (bytesOfWord seed ++ n :: bs)).map Token.byte ++ src =
      (0xFF#8 :: (bytesOfWord seed ++ [n])).map Token.byte ++ (bs.map Token.byte ++ src) := by simp
  rw [hsrc]
  exact (RunsToByte.after hhead hseed).emitLiterals bs rfl hrem

end SrdRuns

/-! ### The instruction rules -/

theorem overlay_of_bytes (bs : List Byte) (rest : List Token) :
    overlay bs (bs.map Token.byte ++ rest) = bs.map Token.byte ++ rest := by
  induction bs with
  | nil => unfold overlay; rfl
  | cons b bs ih => rw [List.map_cons, List.cons_append, overlay, ih]

theorem srdUnitBurst_add (m n : Nat) : ∀ u : SrdUnit, srdUnitBurst (m + n) u = srdUnitBurst n (srdUnitBurst m u) := by
  induction m with
  | zero => intro u; rw [Nat.zero_add]; rfl
  | succ m ih =>
    intro u
    rw [Nat.add_right_comm]
    cases hstep : srdUnitStep u with
    | none => simp only [srdUnitBurst_of_no_step hstep]
    | some v => rw [srdUnitBurst_of_step hstep, srdUnitBurst_of_step hstep, ih]

/-- A record whose tokens are available, executed by an SRD at a record boundary, is a burst of its unit. -/
theorem exec_record_srd {i : Instr} {s : State} {j : Nat} {u : SrdUnit} {rest : List Token} {v : SrdUnit}
    (hrec : i.isRecord = true) (hturn : s.turn = .srd j) (hu : s.srd[j]? = some u) (hst : u.regs.st = .tag)
    (hbusy : u.regs.busy = true) (hsrc : u.src = (encodeRecord i).map Token.byte ++ rest)
    (hrun : srdUnitBurst (recordSteps (.srd j) i)
      ⟨inTransaction u.regs u.regs.K u.regs.n true, (encodeRecord i).map Token.byte ++ rest, u.port⟩ = v) :
    exec i s = .next (s.setSrd j v) := by
  have hat : u.regs.atRecord = true := by simp [Srd.atRecord, hst, hbusy]
  rw [inTransaction_self hbusy] at hrun
  rw [exec_of_record hrec, hturn]
  simp only [runRecord, srdRecord, hu, hat, if_true, hsrc, overlay_of_bytes, hrun, BlockStep.outcome_moves]

/-- Settles O49: `runs_sparseRecord` in the open transaction. -/
theorem srdSparseDeliversPlacedWord : Obligations.SrdSparseDeliversPlacedWord := by
  unfold Obligations.SrdSparseDeliversPlacedWord
  intro s j u t lits rest hturn hu hst hbusy h0 hF hlits hsrc hroom hready
  have hlength := length_bytesOfWord (place t lits)
  have hrun := burst_of_runsToByte (n := u.regs.n) (K := u.regs.K) (q := u.port)
    (runs_sparseRecord (src := rest) h0 hF hlits hst) rfl (by rwa [hlength]) (by rwa [hlength])
  rw [hlength, deliver, puts, hlength] at hrun
  exact exec_record_srd rfl hturn hu hst hbusy hsrc hrun

/-- Settles O50: `runs_zrunBytes` with nothing to come, in the open transaction. -/
theorem srdZrunDeliversZeroBytes : Obligations.SrdZrunDeliversZeroBytes := by
  unfold Obligations.SrdZrunDeliversZeroBytes
  intro s j u n rest hturn hu hst hbusy hsrc hroom hready
  have hcount : 8 * (n.toNat + 1) = 8 * n.toNat + 7 + 1 + 0 := by omega
  have hrecord := runs_zrunBytes (src := rest) hcount hst
  rw [← Nat.add_zero (8 * n.toNat + 7 + 1), ← hcount] at hrecord
  have hrun := burst_of_runsToByte (n := u.regs.n) (K := u.regs.K) (q := u.port) hrecord rfl
    (by rwa [List.length_replicate]) (by rwa [List.length_replicate])
  rw [deliver, puts, List.length_replicate] at hrun
  exact exec_record_srd rfl hturn hu hst hbusy hsrc hrun

/-- Settles O51: `runs_zrunBytes` up to the end of the buffer, and no step after it. -/
theorem srdZrunSuspendsInMidRun : Obligations.SrdZrunSuspendsInMidRun := by
  unfold Obligations.SrdZrunSuspendsInMidRun
  intro s j u n rest hturn hu hst hbusy hsrc hroom hlong hready
  obtain ⟨i, hi⟩ : ∃ i, u.regs.K - u.regs.n = i + 1 := ⟨u.regs.K - u.regs.n - 1, by omega⟩
  have hlength : (List.replicate (i + 1) (0 : Byte)).length = u.regs.K - u.regs.n := by rw [List.length_replicate, hi]
  have hfull : u.regs.n + (u.regs.K - u.regs.n) = u.regs.K := by omega
  have hrecord := runs_zrunBytes (src := rest) (n := n) (j := i)
    (m := u.regs.n + 8 * (n.toNat + 1) - u.regs.K) (by omega) hst
  rw [pendingState_pos (by omega)] at hrecord
  have hrun := burst_of_runsToByte (n := u.regs.n) (K := u.regs.K) (q := u.port) hrecord rfl
    (by rw [hlength]; omega) (by rwa [hlength])
  have hdone : decide (u.regs.K ≠ u.regs.K) = false := by simp
  rw [hlength, hfull, deliver, if_pos rfl, puts, hlength, ← hi, hdone] at hrun
  have hsteps : recordSteps (.srd j) (.zrun n) =
      2 + (u.regs.K - u.regs.n) + (8 * (n.toNat + 1) - (u.regs.K - u.regs.n)) := by
    simp only [recordSteps, srdZrunSteps]
    omega
  refine exec_record_srd rfl hturn hu hst hbusy hsrc ?_
  rw [hsteps, srdUnitBurst_add]
  exact (congrArg (srdUnitBurst _) hrun).trans (srdUnitBurst_of_no_step (srdUnitStep_of_not_busy rfl) _)

/-- Settles O52: `runs_lrunBytes` with nothing to come, in the open transaction. -/
theorem srdLrunDeliversSeedAndRawBytes : Obligations.SrdLrunDeliversSeedAndRawBytes := by
  unfold Obligations.SrdLrunDeliversSeedAndRawBytes
  intro s j u seed raw rest hturn hu hst hbusy hraw hsrc hroom hready
  have hcount : 8 * (BitVec.ofNat 8 raw.length).toNat = (bytesOfWords raw).length + 0 := by
    rw [length_bytesOfWords, BitVec.toNat_ofNat, Nat.mod_eq_of_lt (by omega), Nat.add_zero]
  have hlength : (bytesOfWord seed ++ bytesOfWords raw).length = 8 * (raw.length + 1) := by simp; omega
  have hrun := burst_of_runsToByte (n := u.regs.n) (K := u.regs.K) (q := u.port)
    (runs_lrunBytes (src := rest) (seed := seed) hcount hst) rfl (by rwa [hlength]) (by rwa [hlength])
  rw [hlength, deliver, puts, hlength, length_bytesOfWords] at hrun
  exact exec_record_srd rfl hturn hu hst hbusy hsrc hrun

end Sys2Proof.Proofs
end

section
/-! What a transaction delivers (R163, R164, R181): the run of SRD's rule up to the bytes asked for, or to where no
step is left, whatever the transactions it is cut into. -/

namespace Sys2Proof.Proofs

open Sys2Proof Sys2Proof.Machine

/-- SRD's rule run until `m` bytes are out or no step is left: the bytes, and the registers and the source then. -/
inductive Delivers : Nat → Srd → List Token → List Byte → Srd → List Token → Prop
  | full {r : Srd} {src : List Token} : Delivers 0 r src [] r src
  | stop {m : Nat} {r : Srd} {src : List Token} (hstop : srdRule r src = none) : Delivers m r src [] r src
  | silent {m : Nat} {r r₁ r' : Srd} {src src₁ src' : List Token} {out : List Byte}
      (hrule : srdRule r src = some (r₁, none, src₁)) (hrest : Delivers (m + 1) r₁ src₁ out r' src') :
      Delivers (m + 1) r src out r' src'
  | emit {m : Nat} {r r₁ r' : Srd} {src src₁ src' : List Token} {b : Byte} {out : List Byte}
      (hrule : srdRule r src = some (r₁, some b, src₁)) (hrest : Delivers m r₁ src₁ out r' src') :
      Delivers (m + 1) r src (b :: out) r' src'

section Delivers

variable {r r' r'' : Srd} {src src' src'' : List Token} {out out' : List Byte} {m n : Nat}

/-- Two deliveries one after the other are one of the summed size. -/
theorem Delivers.trans (h : Delivers m r src out r' src') (h' : Delivers n r' src' out' r'' src'') :
    Delivers (m + n) r src (out ++ out') r'' src'' := by
  induction h with
  | full => rwa [Nat.zero_add]
  | stop hstop =>
    cases h' with
    | full => exact .stop hstop
    | stop => exact .stop hstop
    | silent hrule => exact absurd (hstop.symm.trans hrule) nofun
    | emit hrule => exact absurd (hstop.symm.trans hrule) nofun
  | silent hrule _ ih =>
    rw [Nat.add_right_comm]
    exact .silent hrule (by rw [Nat.add_right_comm]; exact ih h')
  | emit hrule _ ih =>
    rw [Nat.add_right_comm]
    exact .emit hrule (ih h')

/-- What is delivered, and where that leaves SRD, is determined. -/
theorem Delivers.unique (h : Delivers m r src out r' src') : ∀ {out' r'' src''}, Delivers m r src out' r'' src'' →
    out = out' ∧ r' = r'' ∧ src' = src'' := by
  induction h with
  | full =>
    intro out' r'' src'' h'
    cases h' with
    | full => exact ⟨rfl, rfl, rfl⟩
    | stop => exact ⟨rfl, rfl, rfl⟩
  | stop hstop =>
    intro out' r'' src'' h'
    cases h' with
    | full => exact ⟨rfl, rfl, rfl⟩
    | stop => exact ⟨rfl, rfl, rfl⟩
    | silent hrule => exact absurd (hstop.symm.trans hrule) nofun
    | emit hrule => exact absurd (hstop.symm.trans hrule) nofun
  | silent hrule _ ih =>
    intro out' r'' src'' h'
    cases h' with
    | stop hstop => exact absurd (hstop.symm.trans hrule) nofun
    | silent hrule' hrest' =>
      cases hrule.symm.trans hrule'
      exact ih hrest'
    | emit hrule' => exact absurd (hrule.symm.trans hrule') nofun
  | emit hrule _ ih =>
    intro out' r'' src'' h'
    cases h' with
    | stop hstop => exact absurd (hstop.symm.trans hrule) nofun
    | silent hrule' => exact absurd (hrule.symm.trans hrule') nofun
    | emit hrule' hrest' =>
      cases hrule.symm.trans hrule'
      obtain ⟨rfl, hr, hsrc⟩ := ih hrest'
      exact ⟨rfl, hr, hsrc⟩

theorem Delivers.fsmInv (h : Delivers m r src out r' src') (hinv : SrdFsmInv r) : SrdFsmInv r' := by
  induction h with
  | full => exact hinv
  | stop => exact hinv
  | silent hrule _ ih => exact ih (srdFsmInv_rule hinv (srdRuleCase_of_rule hrule))
  | emit hrule _ ih => exact ih (srdFsmInv_rule hinv (srdRuleCase_of_rule hrule))

/-- In a terminal state the rule gives no step (R174). -/
theorem srdRule_of_terminal (hterm : r.isTerminal = true) (src : List Token) : srdRule r src = none := by
  rcases (isTerminal_iff r).mp hterm with hst | hst <;> simp only [srdRule, hst]

/-- A rule that emits a byte does not lead into a terminal state. -/
theorem not_terminal_of_emits {r₁ : Srd} {b : Byte} {src₁ : List Token}
    (hrule : srdRule r src = some (r₁, some b, src₁)) : r₁.isTerminal = false := by
  rw [isTerminal_eq_false_iff]
  cases srdRuleCase_of_rule hrule with
  | emitZeros hst =>
    simp only [srdEmitZeros]
    split_ifs <;> simp
  | emitWord hst =>
    simp only [srdEmitWord]
    split_ifs <;> simp [hst]
  | emitLiterals hst =>
    simp only [srdEmitLiterals]
    split_ifs <;> simp

/-- A delivery of all the bytes asked for ends with the last of them, short of a terminal state. -/
theorem Delivers.not_terminal (h : Delivers m r src out r' src') (hm : 1 ≤ m) (hfull : out.length = m) :
    r'.isTerminal = false := by
  induction h with
  | full => cases hm
  | stop => exact absurd (hfull.trans_ge hm) nofun
  | silent _ _ ih => exact ih hm hfull
  | @emit m _ _ _ _ _ _ _ _ hrule hrest ih =>
    have hlength := Nat.succ.inj hfull
    cases m with
    | zero =>
      cases hrest with
      | full => exact not_terminal_of_emits hrule
      | stop => exact not_terminal_of_emits hrule
    | succ m => exact ih (Nat.succ_pos m) hlength

end Delivers

/-! ### One transaction -/

section Transaction

variable {r : Srd} {src : List Token} {q : Port Byte} {K : Nat}

theorem commit_always (hsink : q.sink = .always) (item : Option Byte) (resp : Option Response) :
    q.commit item resp = some { q with out := q.out ++ item.toList, resp := q.resp ++ resp.toList } := by
  cases item with
  | none => simp [Port.commit_none]
  | some b => rw [Port.commit_some q b resp (by rw [hsink]; rfl), hsink]; simp [Sink.take, ← hsink]

/-- The unit of a transaction that has delivered `n` bytes, the last of them `out`: ended if it is complete (R163). -/
def settled (r : Srd) (K n : Nat) (src : List Token) (q : Port Byte) (out : List Byte) : SrdUnit :=
  { regs := (inTransaction r K n true).finish, src := src
    port := { q with out := q.out ++ out, resp := q.resp ++ (srdCompletion (inTransaction r K n true)).toList } }

theorem settled_settled_port {r r' : Srd} {n n' : Nat} {src src' : List Token} {xs ys : List Byte}
    (hopen : srdCompletion (inTransaction r K n true) = none) :
    settled r' K n' src' (settled r K n src q xs).port ys = settled r' K n' src' q (xs ++ ys) := by
  simp [settled, hopen]

/-- Short of its end a transaction stays open. -/
theorem settled_of_open {n : Nat} (hterm : r.isTerminal = false) (hroom : n < K) (out : List Byte) :
    settled r K n src q out = ⟨inTransaction r K n true, src, (settled r K n src q out).port⟩ := by
  rw [settled, (srdCompletion_of_open hterm hroom).2]

theorem settled_nil_of_open {n : Nat} (hterm : r.isTerminal = false) (hroom : n < K) :
    settled r K n src q [] = ⟨inTransaction r K n true, src, q⟩ := by
  obtain ⟨hnone, hfinish⟩ := srdCompletion_of_open hterm hroom
  simp [settled, hnone, hfinish]

/-- An ended transaction has no step. -/
theorem srdUnitStep_settled {n : Nat} (hend : r.isTerminal = true ∨ n = K) (out : List Byte) :
    srdUnitStep (settled r K n src q out) = none := by
  refine srdUnitStep_of_not_busy ?_
  rw [settled, finish_busy]
  rcases hend with hterm | hfull
  · simp [hterm]
  · simp [inTransaction, hfull]

theorem unitStep_always {r₁ : Srd} {src₁ : List Token} {item : Option Byte} {n : Nat} (hsink : q.sink = .always)
    (hrule : srdRule r src = some (r₁, item, src₁)) :
    srdUnitStep ⟨inTransaction r K n true, src, q⟩ =
      some (settled r₁ K (n + item.toList.length) src₁ q item.toList) := by
  rw [unitStep_inTransaction hrule, commit_always hsink]
  rfl

/-- With a consumer that accepts, an open transaction waits for the source alone. -/
theorem srdRule_of_waits {n : Nat} (hsink : q.sink = .always)
    (hwaits : srdUnitStep ⟨inTransaction r K n true, src, q⟩ = none) : srdRule r src = none := by
  cases hrule : srdRule r src with
  | none => rfl
  | some x => exact absurd ((unitStep_always hsink hrule).symm.trans hwaits) nofun

/-- A step, and then the bytes that are still missing. -/
theorem Delivers.step {r₁ r' : Srd} {src₁ src' : List Token} {item : Option Byte} {out : List Byte} {m : Nat}
    (hrule : srdRule r src = some (r₁, item, src₁)) (hm : 1 ≤ m)
    (hrest : Delivers (m - item.toList.length) r₁ src₁ out r' src') :
    Delivers m r src (item.toList ++ out) r' src' := by
  obtain ⟨m, rfl⟩ := Nat.exists_eq_add_of_le' hm
  cases item with
  | none => exact .silent hrule hrest
  | some b => exact .emit hrule hrest

/-- A burst that leaves no step is a delivery of the bytes that are missing. -/
theorem delivers_of_burst (N : Nat) : ∀ {r : Srd} {n : Nat} {src : List Token} {q : Port Byte}, r.isTerminal = false →
    n < K → q.sink = .always → srdUnitStep (srdUnitBurst N ⟨inTransaction r K n true, src, q⟩) = none →
    ∃ out r' src', Delivers (K - n) r src out r' src' ∧
      srdUnitBurst N ⟨inTransaction r K n true, src, q⟩ = settled r' K (n + out.length) src' q out := by
  induction N with
  | zero =>
    intro r n src q hterm hroom hsink hwaits
    exact ⟨[], r, src, .stop (srdRule_of_waits hsink hwaits), (settled_nil_of_open hterm hroom).symm⟩
  | succ N ih =>
    intro r n src q hterm hroom hsink hwaits
    cases hrule : srdRule r src with
    | none =>
      have hstep : srdUnitStep ⟨inTransaction r K n true, src, q⟩ = none := by
        simp [srdUnitStep, srdRule_inTransaction, hrule]
      exact ⟨[], r, src, .stop hrule, (srdUnitBurst_of_no_step hstep _).trans (settled_nil_of_open hterm hroom).symm⟩
    | some x =>
      obtain ⟨r₁, item, src₁⟩ := x
      have hstep := unitStep_always (K := K) (n := n) hsink hrule
      have hone := length_toList_le_one item
      rw [srdUnitBurst_of_step hstep] at hwaits ⊢
      by_cases hend : r₁.isTerminal = true ∨ n + item.toList.length = K
      · refine ⟨item.toList ++ [], r₁, src₁, .step hrule (by omega) ?_, ?_⟩
        · rcases hend with hterm₁ | hfull
          · exact .stop (srdRule_of_terminal hterm₁ _)
          · rw [show K - n - item.toList.length = 0 by omega]
            exact .full
        · rw [List.append_nil, srdUnitBurst_of_no_step (srdUnitStep_settled hend _)]
      · obtain ⟨hterm₁, hopen⟩ := not_or.mp hend
        rw [Bool.not_eq_true] at hterm₁
        have hroom₁ : n + item.toList.length < K := by omega
        rw [settled_of_open hterm₁ hroom₁] at hwaits ⊢
        obtain ⟨out, r', src', hrest, hburst⟩ :=
          ih (q := (settled r₁ K (n + item.toList.length) src₁ q item.toList).port) hterm₁ hroom₁ hsink hwaits
        rw [← Nat.sub_sub] at hrest
        refine ⟨item.toList ++ out, r', src', .step hrule (by omega) hrest, ?_⟩
        rw [hburst, settled_settled_port (srdCompletion_of_open hterm₁ hroom₁).1, List.length_append, Nat.add_assoc]

/-- An open transaction has no step left after the steps of R180 (O56). -/
theorem no_step_after_complete {k : Nat} (hinv : SrdFsmInv r) (hterm : r.isTerminal = false) (hk : 1 ≤ k) :
    srdUnitStep (SrdUnit.complete ⟨inTransaction r k 0 true, src, q⟩) = none := by
  have hfit : SrdInv { Config.exampleParams with kw := k } (inTransaction r k 0 true) :=
    { hinv with K := Nat.lt_two_pow_self, n := Nat.zero_le k, busy := fun _ => ⟨hk, hterm⟩ }
  exact (sreadWorkIsBounded _ _ hfit rfl rfl).1

theorem finish_inTransaction (r : Srd) (K n : Nat) :
    ∃ busy, (inTransaction r K n true).finish = inTransaction r K n busy := by
  unfold Srd.finish
  split
  · exact ⟨false, rfl⟩
  · exact ⟨true, rfl⟩

end Transaction

/-- The unit's registers are those of `r` but for a transaction's. -/
def HasFsm (u : SrdUnit) (r : Srd) : Prop := ∃ K n busy, u.regs = inTransaction r K n busy

theorem hasFsm_self (u : SrdUnit) : HasFsm u u.regs := ⟨_, _, _, rfl⟩

/-- An SREAD of `k` bytes has taken a unit with the registers `r` to one with the registers `r'`, delivering `out`. -/
structure Served (k : Nat) (r : Srd) (u : SrdUnit) (out : List Byte) (r' : Srd) (v : SrdUnit) : Prop where
  delivers : Delivers k r u.src out r' v.src
  fsm : HasFsm v r'
  port : v.port = { u.port with
    out := u.port.out ++ out
    resp := u.port.resp ++ (srdCompletion (inTransaction r' k out.length true)).toList }

/-- An SREAD of at least one byte, run to its end, delivers as many bytes as there are up to its size. -/
theorem read_served {u : SrdUnit} {r : Srd} {k : Nat} (hfsm : HasFsm u r) (hinv : SrdFsmInv r) (hk : 1 ≤ k)
    (hsink : u.port.sink = .always) : ∃ out r', Served k r u out r' (u.read k).complete := by
  obtain ⟨K, n, busy, hregs⟩ := hfsm
  have hterminal : u.regs.isTerminal = r.isTerminal := by rw [hregs, inTransaction_isTerminal]
  cases hterm : r.isTerminal with
  | true =>
    have hwaits : srdUnitStep (u.read k) = none := by
      rw [read_of_terminal (hterminal.trans hterm)]
      simp [srdUnitStep, srdRule_of_terminal (hterminal.trans hterm)]
    rw [SrdUnit.complete, srdUnitBurst_of_no_step hwaits, read_of_terminal (hterminal.trans hterm)]
    refine ⟨[], r, .stop (srdRule_of_terminal hterm _), ⟨K, n, busy, hregs⟩, ?_⟩
    have hanswer : srdCompletion (inTransaction r k ([] : List Byte).length true) = _ :=
      srdCompletion_of_terminal (r := inTransaction r k 0 true) hterm
    rw [hanswer, List.append_nil, hregs]
    rfl
  | false =>
    have hopen : u.read k = ⟨inTransaction r k 0 true, u.src, u.port⟩ := by
      rw [read_of_running (hterminal.trans hterm) (by omega), hregs]
      rfl
    have hwaits : srdUnitStep (SrdUnit.complete ⟨inTransaction r k 0 true, u.src, u.port⟩) = none :=
      no_step_after_complete hinv hterm hk
    rw [hopen]
    obtain ⟨out, r', src', hdelivers, hburst⟩ := delivers_of_burst _ hterm hk hsink hwaits
    rw [Nat.zero_add] at hburst
    refine ⟨out, r', ?_⟩
    rw [SrdUnit.complete, hburst]
    obtain ⟨b, hb⟩ := finish_inTransaction r' k out.length
    exact ⟨hdelivers, ⟨k, out.length, b, hb⟩, rfl⟩

theorem Served.sink {k : Nat} {r r' : Srd} {u v : SrdUnit} {out : List Byte} (h : Served k r u out r' v) :
    v.port.sink = u.port.sink := by
  rw [h.port]

theorem reads_cons (u : SrdUnit) (k : Nat) (ks : List Nat) : u.reads (k :: ks) = (u.read k).complete.reads ks := rfl

/-- A series of SREADs is a delivery of the summed size. -/
theorem reads_deliver (ks : List Nat) : ∀ {u : SrdUnit} {r : Srd}, HasFsm u r → SrdFsmInv r →
    u.port.sink = .always → (∀ k ∈ ks, 1 ≤ k) →
    ∃ out r', Delivers ks.sum r u.src out r' (u.reads ks).src ∧ (u.reads ks).port.out = u.port.out ++ out := by
  induction ks with
  | nil =>
    intro u r _ _ _ _
    exact ⟨[], r, .full, (List.append_nil _).symm⟩
  | cons k ks ih =>
    intro u r hfsm hinv hsink hks
    rw [List.forall_mem_cons] at hks
    obtain ⟨hk, hks⟩ := hks
    obtain ⟨out, r₁, hserved⟩ := read_served hfsm hinv hk hsink
    obtain ⟨outs, r', hrest, hout⟩ := ih hserved.fsm (hserved.delivers.fsmInv hinv) (hserved.sink.trans hsink) hks
    rw [List.sum_cons, reads_cons]
    refine ⟨out ++ outs, r', hserved.delivers.trans hrest, ?_⟩
    rw [hout, hserved.port, List.append_assoc]

/-- An SREAD of no byte on an idle unit delivers nothing and pulls nothing. -/
theorem read_zero_complete {u : SrdUnit} (hidle : u.regs.busy = false) :
    (u.read 0).complete.port.out = u.port.out ∧ (u.read 0).complete.src = u.src := by
  obtain ⟨hregs, hout, hsrc⟩ : (u.read 0).regs = u.regs ∧ (u.read 0).port.out = u.port.out ∧ (u.read 0).src = u.src := by
    cases hterm : u.regs.isTerminal with
    | true => rw [read_of_terminal hterm]; exact ⟨rfl, rfl, rfl⟩
    | false => rw [read_zero hterm]; exact ⟨rfl, rfl, rfl⟩
  rw [complete_of_not_busy (hregs ▸ hidle)]
  exact ⟨hout, hsrc⟩

/-- Settles O58: both series are deliveries of the same size from the same state, and a delivery is determined. -/
theorem deliveryIsPartitionIndependent : Obligations.DeliveryIsPartitionIndependent := by
  unfold Obligations.DeliveryIsPartitionIndependent
  intro p u ks hinv hidle hsink hks
  cases ks with
  | nil =>
    obtain ⟨hout, hsrc⟩ := read_zero_complete hidle
    exact ⟨hout.symm, hsrc.symm⟩
  | cons k ks =>
    have hsum : ∀ m ∈ [(k :: ks).sum], 1 ≤ m := by
      rw [List.forall_mem_cons] at hks
      simp only [List.sum_cons, List.mem_singleton, forall_eq]
      omega
    have hfsm := SrdFsmInv.of_srdInv hinv
    obtain ⟨out, r, hseries, hout⟩ := reads_deliver _ (hasFsm_self u) hfsm hsink hks
    obtain ⟨out', r', hone, hout'⟩ := reads_deliver _ (hasFsm_self u) hfsm hsink hsum
    rw [List.sum_singleton] at hone
    obtain ⟨rfl, -, hsrc⟩ := hseries.unique hone
    exact ⟨hout.trans hout'.symm, hsrc⟩

end Sys2Proof.Proofs
end

section
/-! SRD over a whole stream (R178, R179): record by record as `unpack` goes, then the terminal token, in transactions
of any sizes. -/

namespace Sys2Proof.Proofs

open Sys2Proof Sys2Proof.Machine

/-! ### The residue of a truncated stream (R179) -/

theorem residueFuel_of_decodeRecord {bytes rest : List Byte} {i : Instr} (h : decodeRecord bytes = .ok (i, rest))
    (fuel : Nat) : residueFuel (fuel + 1) bytes = residueFuel fuel rest := by
  revert h
  fun_cases decodeRecord bytes <;> rintro ⟨⟩
  case case3 => simp [residueFuel]
  case case6 r n raw hr hcomplete hne => simp [residueFuel, hr, hcomplete]
  case case8 t r h0 hF hcomplete => simp [residueFuel, h0, hF]

theorem residueFuel_of_truncated {bytes ys : List Byte} {ws : List Word} (h : Truncated bytes ws ys) (fuel : Nat) :
    residueFuel (fuel + 1) bytes = ys := by
  have hnil : residueFuel fuel [] = [] := by cases fuel <;> rfl
  cases h with
  | zrun => simp [residueFuel, hnil]
  | sparse h0 hF hshort => simp [residueFuel, h0, hF, List.drop_eq_nil_of_le hshort.le, hnil]
  | seed hshort => simp [residueFuel, List.drop_eq_nil_of_le hshort]
  | @raw seed n ws ys hmore hshort =>
    have hshort' : (bytesOfWords ws ++ ys).length < 8 * n.toNat := by simp; omega
    have hwhole : 8 * ((bytesOfWords ws ++ ys).length / 8) = (bytesOfWords ws).length := by simp; omega
    simp only [residueFuel, show ¬ (0xFF#8 = 0x00#8) by decide, if_false, if_true, drop_seed_append, hshort', hwhole,
      List.drop_left]

/-! ### The rule over a stream -/

theorem bytesOfWords_replicate_zero (n : Nat) : bytesOfWords (List.replicate n 0) = List.replicate (8 * n) 0 := by
  induction n with
  | zero => rfl
  | succ n ih =>
    have hzero : bytesOfWord 0 = List.replicate 8 0 := by decide
    rw [List.replicate_succ, bytesOfWords_cons, ih, hzero, List.replicate_append_replicate, Nat.mul_succ, Nat.add_comm]

section Stream

variable {r : Srd} {src : List Token}

/-- SRD decodes a whole record at a record boundary to the bytes of its words. -/
theorem runs_record {i : Instr} {p : Params} (hrec : i.isRecord = true) (hwf : i.wellFormed p = true)
    (hst : r.st = .tag) : ∃ (k : Nat) (r' : Srd),
      Runs k r ((encodeRecord i).map Token.byte ++ src) (bytesOfWords (recordWords i)) r' src ∧
      r'.st = .tag ∧ r'.errv = r.errv := by
  cases i with
  | zrun n =>
    have hcount : 8 * (n.toNat + 1) = 8 * n.toNat + 7 + 1 + 0 := by omega
    have hrun := (runs_zrunBytes (src := src) hcount hst).runs
    rw [← Nat.add_zero (8 * n.toNat + 7 + 1), ← hcount, ← bytesOfWords_replicate_zero] at hrun
    exact ⟨_, _, hrun, rfl, rfl⟩
  | lrun seed raw =>
    have hraw : raw.length ≤ Config.runMax := by simpa [Instr.wellFormed] using hwf
    have hmod : (BitVec.ofNat 8 raw.length).toNat = raw.length := Nat.mod_eq_of_lt (Nat.lt_succ_of_le hraw)
    have hcount : 8 * (BitVec.ofNat 8 raw.length).toNat = (bytesOfWords raw).length + 0 := by
      rw [length_bytesOfWords, hmod, Nat.add_zero]
    exact ⟨_, _, (runs_lrunBytes hcount hst).runs, rfl, rfl⟩
  | sparse t lits =>
    simp only [Instr.wellFormed, Bool.and_eq_true, bne_iff_ne, beq_iff_eq] at hwf
    obtain ⟨⟨h0, hF⟩, hlits⟩ := hwf
    have hrun := (runs_sparseRecord (src := src) h0 hF hlits hst).runs
    rw [← List.append_nil (bytesOfWord _)] at hrun
    exact ⟨_, _, hrun, rfl, rfl⟩
  | _ => cases hrec

/-- SRD over bytes that end inside the record at its boundary delivers the complete words and the raw bytes left. -/
theorem runs_truncated {bytes ys : List Byte} {ws : List Word} (h : Truncated bytes ws ys) (hst : r.st = .tag) :
    ∃ (k : Nat) (r' : Srd), Runs k r (bytes.map Token.byte ++ src) (bytesOfWords ws ++ ys) r' src ∧
      Consuming r'.st ∧ r'.st ≠ .tag ∧ r'.errv = r.errv := by
  cases h with
  | zrun => exact ⟨_, _, .silent (srdRule_tag hst) .refl, .inr (.inr (.inl rfl)), nofun, rfl⟩
  | sparse h0 hF hshort => exact ⟨_, _, runs_sparsePart h0 hF hshort hst, .inr (.inl rfl), nofun, rfl⟩
  | @seed xs hshort =>
    by_cases hwhole : xs.length = 8
    · have hbytes : bytesOfWord (wordOfBytes xs) = xs := bytesOfWord_wordOfBytes xs hwhole
      have hrun := runs_seedWhole (src := src) (seed := wordOfBytes xs) hst
      rw [hbytes] at hrun
      exact ⟨_, _, hrun, .inr (.inr (.inr (.inr (.inl rfl)))), nofun, rfl⟩
    · exact ⟨_, _, runs_seedPart (by omega) hst, .inr (.inr (.inr (.inl rfl))), nofun, rfl⟩
  | @raw seed n ws ys hmore hshort =>
    have hcount : 8 * n.toNat = (bytesOfWords ws ++ ys).length + (8 * n.toNat - (bytesOfWords ws ++ ys).length) := by
      simp
      omega
    have hpending : 0 < 8 * n.toNat - (bytesOfWords ws ++ ys).length := by simp; omega
    have hrun := (runs_lrunBytes (src := src) (seed := seed) hcount hst).runs
    rw [pendingState_pos hpending, ← List.append_assoc, ← bytesOfWords_cons] at hrun
    exact ⟨_, _, hrun, .inr (.inr (.inr (.inr (.inr rfl)))), nofun, rfl⟩

/-- The status in which a stream ends, from the status of `unpack` and the error at its end if any (R178, R179). -/
def endStatus (err : Option Config.ErrT) (status : Status) : Status :=
  match err with
  | some _ => .io
  | none => if status = .ok then .eof else .trunc

theorem streamStatus_eq (p : List Byte) (err : Option Config.ErrT) :
    streamStatus p err = endStatus err (unpackBytes p).2 := by
  cases err <;> rfl

/-- SRD is in a terminal state with the status and the error latched (R174). -/
structure Ended (r : Srd) (status : Status) (err : Option Config.ErrT) : Prop where
  terminal : r.isTerminal = true
  status : r.term.status = status
  errv : r.errv = err

/-- The terminal token at a record boundary, or inside a record. -/
theorem runs_terminalToken {status : Status} (hst : Consuming r.st) (hstatus : status = .ok ↔ r.st = .tag)
    (herrv : r.errv = none) (err : Option Config.ErrT) (after : List Token) :
    ∃ rT, Runs 1 r (terminalToken err :: after) [] rT after ∧ Ended rT (endStatus err status) err := by
  cases err with
  | some e =>
    exact ⟨srdIoError r e, .silent (srdRule_err_of_consuming hst e after) .refl, rfl, rfl, rfl⟩
  | none =>
    have hrule : srdRule r (.eof :: after) = some (srdOnEnd r, none, after) := srdRule_eof_of_consuming hst after
    refine ⟨srdOnEnd r, .silent hrule .refl, ?_⟩
    by_cases htag : r.st = .tag
    · have hok : endStatus none status = .eof := if_pos (hstatus.mpr htag)
      rw [srdOnEnd, if_pos htag, hok]
      exact ⟨rfl, rfl, herrv⟩
    · have hcut : endStatus none status = .trunc := if_neg (mt hstatus.mp htag)
      rw [srdOnEnd, if_neg htag, hcut]
      exact ⟨rfl, rfl, herrv⟩

/-- SRD's rule over the bytes that are left and the terminal token delivers the bytes of the words `unpack` finds and
the residue, and ends in the status of R178 and R179. -/
theorem runs_stream (err : Option Config.ErrT) (after : List Token) (n : Nat) : ∀ {r : Srd} {bytes : List Byte},
    bytes.length ≤ n → r.st = .tag → r.errv = none →
    ∃ (k : Nat) (rT : Srd), Runs k r (bytes.map Token.byte ++ terminalToken err :: after)
        (bytesOfWords (unpackFuel n bytes []).1 ++ residueFuel n bytes) rT after ∧
      Ended rT (endStatus err (unpackFuel n bytes []).2) err := by
  have hend : ∀ {r : Srd}, r.st = .tag → r.errv = none →
      ∃ (k : Nat) (rT : Srd), Runs k r (terminalToken err :: after) [] rT after ∧ Ended rT (endStatus err .ok) err :=
    fun hst herrv => ⟨1, runs_terminalToken (.inl hst) (by simp [hst]) herrv err after⟩
  induction n with
  | zero =>
    intro r bytes hlen hst herrv
    cases List.length_eq_zero_iff.mp (Nat.le_zero.mp hlen)
    exact hend hst herrv
  | succ n ih =>
    intro r bytes hlen hst herrv
    cases bytes with
    | nil => exact hend hst herrv
    | cons b bs =>
      rcases decodes_or_truncated b bs with ⟨i, rest, hdec⟩ | ⟨ws, ys, htrunc⟩
      · obtain ⟨hwf, hbytes⟩ := recordDecodingIsExact Config.exampleParams _ _ _ hdec
        have hrec := isRecord_of_decodeRecord hdec
        have hfirst := length_encodeRecord_pos hrec
        have hlength := congrArg List.length hbytes
        rw [List.length_append] at hlength
        have hrest : rest.length ≤ n := by omega
        obtain ⟨k, r', hrun, hst', herrv'⟩ := runs_record hrec hwf hst
        obtain ⟨k', rT, hrun', hended⟩ := ih hrest hst' (herrv'.trans herrv)
        rw [unpackFuel_of_decodeRecord hdec, List.nil_append, unpackFuel_acc n rest _ hrest,
          residueFuel_of_decodeRecord hdec, bytesOfWords_append, List.append_assoc, ← hbytes, List.map_append,
          List.append_assoc]
        exact ⟨k + k', rT, hrun.trans hrun', hended⟩
      · obtain ⟨k, r', hrun, hcons, hinside, herrv'⟩ := runs_truncated htrunc hst
        obtain ⟨rT, hrun', hended⟩ := runs_terminalToken (status := .trunc) hcons (by simp [hinside])
          (herrv'.trans herrv) err after
        rw [unpackFuel_of_truncated htrunc, List.nil_append, residueFuel_of_truncated htrunc, ← List.append_nil (_ ++ ys)]
        exact ⟨k + 1, rT, hrun.trans hrun', hended⟩

end Stream

/-! ### Transactions over a stream -/

/-- A delivery takes the first bytes of what the rule delivers to its end, or all of them where it asks for more. -/
theorem Delivers.of_runs {k : Nat} {r r' rT : Srd} {src src' srcT : List Token} {out : List Byte}
    (h : Delivers k r src out r' src') : ∀ {N : Nat} {all : List Byte}, Runs N r src all rT srcT →
    srdRule rT srcT = none →
    (k ≤ all.length ∧ out = all.take k ∧ ∃ M, Runs M r' src' (all.drop k) rT srcT) ∨
      (all.length < k ∧ out = all ∧ r' = rT ∧ src' = srcT) := by
  induction h with
  | full => exact fun hruns _ => .inl ⟨Nat.zero_le _, rfl, _, hruns⟩
  | @stop m r src hstop =>
    intro N all hruns _
    cases hruns with
    | refl =>
      cases m with
      | zero => exact .inl ⟨le_rfl, rfl, 0, .refl⟩
      | succ m => exact .inr ⟨Nat.succ_pos m, rfl, rfl, rfl⟩
    | step hrule => exact absurd (hstop.symm.trans hrule) nofun
  | silent hrule _ ih =>
    intro N all hruns hend
    cases hruns with
    | refl => exact absurd (hend.symm.trans hrule) nofun
    | step hrule' hrest =>
      cases hrule.symm.trans hrule'
      exact ih hrest hend
  | emit hrule _ ih =>
    intro N all hruns hend
    cases hruns with
    | refl => exact absurd (hend.symm.trans hrule) nofun
    | step hrule' hrest =>
      cases hrule.symm.trans hrule'
      rcases ih hrest hend with ⟨hle, rfl, hmore⟩ | ⟨hlt, rfl, hlast⟩
      · exact .inl ⟨Nat.succ_le_succ hle, rfl, hmore⟩
      · exact .inr ⟨Nat.succ_lt_succ hlt, rfl, hlast⟩

/-- Over a stream that delivers `all` and then ends, a series of SREADs delivers its first bytes and answers as R178
and R179 say. -/
theorem reads_of_runs {rT : Srd} {srcT : List Token} {status : Status} {err : Option Config.ErrT}
    (hended : Ended rT status err) (ks : List Nat) : ∀ {u : SrdUnit} {r : Srd} {N : Nat} {all : List Byte}, HasFsm u r →
    SrdFsmInv r → u.port.sink = .always → (∀ k ∈ ks, 1 ≤ k) → Runs N r u.src all rT srcT →
    (u.reads ks).port = { u.port with
      out := u.port.out ++ all.take ks.sum
      resp := u.port.resp ++ expectedResponses status err all.length ks } := by
  have hend := srdRule_of_terminal hended.terminal srcT
  induction ks with
  | nil =>
    intro u r N all _ _ _ _ _
    simp [SrdUnit.reads, expectedResponses]
  | cons k ks ih =>
    intro u r N all hfsm hinv hsink hks hruns
    rw [List.forall_mem_cons] at hks
    obtain ⟨hk, hks⟩ := hks
    obtain ⟨out, r', hserved⟩ := read_served hfsm hinv hk hsink
    have hinv' := hserved.delivers.fsmInv hinv
    have hsink' := hserved.sink.trans hsink
    rw [reads_cons, expectedResponses]
    rcases hserved.delivers.of_runs hruns hend with ⟨hle, rfl, M, hmore⟩ | ⟨hlt, rfl, rfl, hsrc⟩
    · have hlength : (all.take k).length = k := by simp [hle]
      have hterm := hserved.delivers.not_terminal hk hlength
      have hport := hserved.port
      rw [hlength, (srdCompletion_of_full hterm).1] at hport
      rw [ih hserved.fsm hinv' hsink' hks hmore, hport, if_pos hle, List.length_drop]
      simp [List.take_add]
    · have hport := hserved.port
      have hanswer : srdCompletion (inTransaction r' k out.length true) =
          some (.sread out.length r'.term.status r'.errv) :=
        srdCompletion_of_terminal (r := inTransaction r' k out.length true) hended.terminal
      rw [hanswer, hended.status, hended.errv] at hport
      have hrest : Runs 0 r' (u.read k).complete.src [] r' srcT := by
        rw [hsrc]
        exact .refl
      have hdone := ih hserved.fsm hinv' hsink' hks hrest
      rw [hdone, hport, if_neg hlt.not_ge]
      simp [List.take_of_length_le (show out.length ≤ k + ks.sum by omega)]

/-- Settles O57: the run over the whole stream, in transactions. -/
theorem streamDeliversUnpack : Obligations.StreamDeliversUnpack := by
  unfold Obligations.StreamDeliversUnpack
  intro u p err after ks hreset hsrc hsink hks
  obtain ⟨N, rT, hrun, hended⟩ := runs_stream err after p.length (r := Srd.reset) le_rfl rfl rfl
  rw [← hreset, ← hsrc] at hrun
  rw [streamStatus_eq]
  exact reads_of_runs hended ks (hasFsm_self u) (hreset ▸ .of_srdInv (srdInv_reset Config.exampleParams)) hsink hks hrun

end Sys2Proof.Proofs
end
